-- ==== Sys2Proof/Word.lean ====
section
/-! DEFINITION. The word types of the codec block (spec/00_scope.md R8, R9): bytes, byte strings, and the
16-bit and 32-bit values that requests and registers carry. Every value of the block is unsigned. -/

namespace Sys2Proof

/-- A byte is 8 bits (R8). -/
abbrev Byte := BitVec 8

/-- A byte string: a finite sequence of bytes indexed from 0 (R9). -/
abbrev Bytes := List Byte

/-- A 16-bit value: a request's address, an MDIO data word (R83). -/
abbrev W16 := BitVec 16

/-- A 32-bit value: one whole remote register (R31, R50). -/
abbrev W32 := BitVec 32

end Sys2Proof
end

