-- ==== Sys2Proof/Machine/Bytes.lean ====
section
/-! DEFINITION. Byte-string and length helpers of spec/00_scope.md R9: big-endian strings, slices, alignment. -/

namespace Sys2Proof.Machine

/-- The `n`-byte big-endian string of `v mod 256^n` (R9; `be16` and `be32` are its cases). -/
def beBytes : Nat → Nat → Bytes
  | 0, _ => []
  | n + 1, v => BitVec.ofNat 8 (v >>> (8 * n)) :: beBytes n v

/-- `be16(v)`: `[v[15:8], v[7:0]]` (R9). -/
def be16 (v : Nat) : Bytes := beBytes 2 v

/-- `be32(v)`: `[v[31:24], v[23:16], v[15:8], v[7:0]]` (R9). -/
def be32 (v : W32) : Bytes := beBytes 4 v.toNat

/-- `from_be(s)`: the number whose big-endian bytes are `s` (R9). -/
def fromBe (s : Bytes) : Nat := s.foldl (fun acc b => acc * 256 + b.toNat) 0

/-- `s[i..j)`: bytes `i` to `j - 1` of `s` (R9). -/
def slice (s : Bytes) (i j : Nat) : Bytes := (s.drop i).take (j - i)

/-- `zeros(n)`: `n` zero bytes (R9). -/
def zeros (n : Nat) : Bytes := List.replicate n 0

/-- `align_up(n, a)`: for `a ≥ 1`, the least multiple of `a` that is at least `n` (R9). -/
def alignUp (n a : Nat) : Nat := (n + (a - 1)) / a * a

end Sys2Proof.Machine
end

