-- ==== Sys2Proof/Config.lean ====
section
/-! DEFINITION. What an implementation fixes (spec/00_scope.md R7) and the oracle's free draws (R5).

Every parameter of R7's table is a field of `Params`, those whose value the source gives as well as those it leaves open, so
that a statement about every state holds for every choice of them; `ADDR_MASK` and `ETHERTYPE_LEN`, which the table derives,
are functions of them, and what INIT sets is in `Cfg`. `Params.profileT` is the spec's own test profile T. Marks:
DESIGN CHOICE, notes/assumptions/1.md (where the parameters live) and 4.md (the draws); DEDUCED, 22.md (the source's values
as parameters). -/

namespace Sys2Proof

/-! ## Parameters (R7) -/

/-- `MDIO_LAYOUT`: the lowest bit of each field of the MDIO control word (R76, decision D12).
The widths are TRDONE 1, reserved 1, ST 2, OP 2, PRTAD 5, DEVAD 5, DATA 16. -/
structure MdioLayout where
  trdone : Nat
  rsvd   : Nat
  st     : Nat
  op     : Nat
  prtad  : Nat
  devad  : Nat
  data   : Nat
deriving DecidableEq, Repr

/-- A register address for each of two ports, or of two MDIO slots (R7: `[p]`, `[0]`, `[1]`). -/
structure PerPort where
  at0 : Nat
  at1 : Nat
deriving DecidableEq, Repr

/-- One fixed register write of the TX FIFO flush (R7: `FLUSH[i]`, an (address, value) pair). -/
structure FlushWrite where
  addr  : Nat
  value : W32
deriving DecidableEq, Repr

/-- The parameters of rule R7. A machine state carries them (`State.params`) and no step writes them. The rules write the
value of a parameter the source fixes as a literal; each stands for the field (U6 of spec/93_implementation_defined.md). -/
structure Params where
  /-- `CMD_HDR_BYTES`; decision D4 fixes 2 and keeps it a parameter. -/
  cmdHdrBytes  : Nat
  /-- `ADDR_WIDTH`: valid bits of a register address. -/
  addrWidth    : Nat
  /-- `CD_BIT`: header bit of the control-frame marker. -/
  cdBit        : Nat
  /-- `CD_VAL`: value of the marker in every command frame. -/
  cdVal        : Bool
  /-- `RW_BIT`: header bit of the direction. -/
  rwBit        : Nat
  /-- `RW_WRITE`: value of `RW_BIT` for a write. -/
  rwWrite      : Bool
  /-- `CRC_INIT`: initial CRC-8 register value. -/
  crcInit      : Byte
  /-- `TA_TX`: byte sent during the turnaround and all read data bytes. -/
  taTx         : Byte
  /-- `MDIOACC[0]`, `MDIOACC[1]`. -/
  mdioAcc      : PerPort
  /-- `MDIO_LAYOUT`. -/
  mdioLayout   : MdioLayout
  /-- `MDIO_MAX_POLLS`: maximum completion polls per MDIO phase. -/
  mdioMaxPolls : Nat
  /-- `TX_SPACE_ADDR`. -/
  txSpaceAddr  : Nat
  /-- `TX_FSIZE_ADDR[p]`. -/
  txFsizeAddr  : PerPort
  /-- `TX_DATA_ADDR[p]`. -/
  txDataAddr   : PerPort
  /-- `RX_FSIZE_ADDR[p]`. -/
  rxFsizeAddr  : PerPort
  /-- `RX_DATA_ADDR[p]`. -/
  rxDataAddr   : PerPort
  /-- `STATUS_ADDR`. -/
  statusAddr   : Nat
  /-- `FIFO_ERR_BIT`: bit of the status register that means FIFO error. -/
  fifoErrBit   : Nat
  /-- `FLUSH[0]`. -/
  flush0       : FlushWrite
  /-- `FLUSH[1]`. -/
  flush1       : FlushWrite
  /-- `BUF_LEN`: bytes of each scratch buffer, the largest bus transfer. -/
  bufLen       : Nat
  /-- `REG_BYTES`: bytes of a register value; the source gives 4. -/
  regBytes     : Nat
  /-- `FIFO_HDR_LEN`: bytes of the FIFO frame's port selector; the source gives 2. -/
  fifoHdrLen   : Nat
  /-- `ETH_HDR_LEN`: Ethernet header bytes; the source gives 14. -/
  ethHdrLen    : Nat
  /-- `FCS_LEN`: Ethernet frame check sequence bytes, counted and never sent (R4 (d)); the source gives 4. -/
  fcsLen       : Nat
  /-- `ETH_MIN`: Ethernet minimum frame bytes; the source gives 64. -/
  ethMin       : Nat
  /-- `FIFO_ALIGN`: FIFO transfer alignment in bytes; the source gives 4. -/
  fifoAlign    : Nat
  /-- `MAC_LEN`: MAC address bytes; the source gives 6. -/
  macLen       : Nat
deriving DecidableEq, Repr

/-- `ETHERTYPE_LEN`: the Ethernet header without its two addresses (R7: derived, 14 - 6 - 6). -/
def Params.ethertypeLen (p : Params) : Nat := p.ethHdrLen - p.macLen - p.macLen

/-- The parameters that R7 marks "source" have the values the source gives them. -/
abbrev Params.sourceValues (p : Params) : Prop :=
  p.regBytes = 4 ∧ p.fifoHdrLen = 2 ∧ p.ethHdrLen = 14 ∧ p.fcsLen = 4 ∧ p.ethMin = 64 ∧ p.fifoAlign = 4 ∧ p.macLen = 6

/-- The bits a field at `lo` of width `w` occupies, as a list of bit numbers. -/
def fieldBits (lo w : Nat) : List Nat := (List.range w).map (lo + ·)

/-- Every bit number the seven fields of a layout occupy. -/
def MdioLayout.bits (l : MdioLayout) : List Nat :=
  fieldBits l.trdone 1 ++ fieldBits l.rsvd 1 ++ fieldBits l.st 2 ++ fieldBits l.op 2
    ++ fieldBits l.prtad 5 ++ fieldBits l.devad 5 ++ fieldBits l.data 16

/-- R7: the fields of `MDIO_LAYOUT` lie in bits [31:0] and do not overlap. -/
abbrev MdioLayout.wf (l : MdioLayout) : Prop :=
  (∀ b ∈ l.bits, b < 32) ∧ l.bits.Nodup

/-- The well-formedness constraints that rule R7 puts on the parameters, which the machine checks (`State.create`, `step`).
The last two are what the alignment of R9 and the derived row of R7 need: `a >= 1` in `align_up`, and an ethertype that fits
the Ethernet header (DEDUCED, notes/assumptions/18.md). -/
abbrev Params.wf (p : Params) : Prop :=
  1 ≤ p.addrWidth
    ∧ p.cdBit ≠ p.rwBit
    ∧ (p.addrWidth ≤ p.cdBit ∧ p.cdBit + 1 ≤ 8 * p.cmdHdrBytes)
    ∧ (p.addrWidth ≤ p.rwBit ∧ p.rwBit + 1 ≤ 8 * p.cmdHdrBytes)
    ∧ 1 ≤ p.mdioMaxPolls
    ∧ p.cmdHdrBytes + p.regBytes + 1 ≤ p.bufLen
    ∧ p.cmdHdrBytes + Machine.alignUp (p.fifoHdrLen + 1 + p.ethMin - p.fcsLen) p.fifoAlign ≤ p.bufLen
    ∧ p.mdioLayout.wf
    ∧ 1 ≤ p.fifoAlign
    ∧ p.macLen + p.macLen ≤ p.ethHdrLen

/-- The control word layout of rule R76. -/
def MdioLayout.r76 : MdioLayout :=
  { trdone := 31, rsvd := 30, st := 28, op := 26, prtad := 21, devad := 16, data := 0 }

/-- The spec's test profile T (R7, column T; decision D3). It is no claim about any chip. -/
def Params.profileT : Params :=
  { cmdHdrBytes  := 2
    addrWidth    := 13
    cdBit        := 15
    cdVal        := true
    rwBit        := 13
    rwWrite      := true
    crcInit      := 0x00
    taTx         := 0x00
    mdioAcc      := ⟨0x20, 0x21⟩
    mdioLayout   := MdioLayout.r76
    mdioMaxPolls := 4
    txSpaceAddr  := 0x32
    txFsizeAddr  := ⟨0x30, 0x30⟩
    txDataAddr   := ⟨0x31, 0x31⟩
    rxFsizeAddr  := ⟨0x90, 0xC0⟩
    rxDataAddr   := ⟨0x91, 0xC1⟩
    statusAddr   := 0x08
    fifoErrBit   := 1
    flush0       := ⟨0x36, 0x00000002⟩
    flush1       := ⟨0x36, 0x00000000⟩
    bufLen       := 1536
    regBytes     := 4
    fifoHdrLen   := 2
    ethHdrLen    := 14
    fcsLen       := 4
    ethMin       := 64
    fifoAlign    := 4
    macLen       := 6 }

/-! ## Free values: the oracle's draws (R5)

A bus transaction is answered by an oracle whose answer is a free input. Where the environment's script in
`State.events` does not spell an answer out, these constants stand for it: they have no body, so nothing can be proved
of their values. The first argument is the number of the transaction in the history (R30), so every transaction has a
draw of its own. -/

/-- Whether draw `k` is a bus error, and then which error value of the primitive (R5, R28). -/
opaque Config.drawError (k : Nat) : Option Nat

/-- Byte `i` of the string that draw `k` returns (R5). -/
opaque Config.drawByte (k i : Nat) : Byte

end Sys2Proof
end

