-- ==== Sys2Proof/Machine/Header.lean ====
section
/-! DEFINITION. The bit layouts that depend on the parameters alone: the bus command header (spec/30_encoding.md R71) and
the MDIO control word (R76 to R79). -/

namespace Sys2Proof.Machine

/-- The direction of a command frame (R71: `dir` in `{W, R}`). -/
inductive Dir where
  | write
  | read
deriving DecidableEq, Repr

/-- Register `a` of port or slot `i` (R7: `X[0]`, `X[1]`). No rule asks for an `i` above 1. -/
def portAddr (a : PerPort) (i : Nat) : Nat := if i = 0 then a.at0 else a.at1

/-- `ADDR_MASK = 2^ADDR_WIDTH - 1` (R7). -/
def addrMask (p : Params) : Nat := 2 ^ p.addrWidth - 1

/-- The value of `RW_BIT` for a direction: `RW_WRITE` for a write, `1 - RW_WRITE` for a read (R71). -/
def dirBit (p : Params) : Dir → Bool
  | .write => p.rwWrite
  | .read => !p.rwWrite

/-- The command header `hdr(a, dir)`; every bit it does not name is 0 (R71). -/
def hdr (p : Params) (a : Nat) (dir : Dir) : Nat :=
  (a &&& addrMask p) ||| (p.cdVal.toNat <<< p.cdBit) ||| ((dirBit p dir).toNat <<< p.rwBit)

/-- The command header as sent: its `CMD_HDR_BYTES` bytes, the highest first (R52, R71). R71 writes `be16`; another size is
read from decision D4 (DEDUCED, notes/assumptions/7.md). -/
def hdrBytes (p : Params) (a : Nat) (dir : Dir) : Bytes := beBytes p.cmdHdrBytes (hdr p a dir)

/-- The address field of a received header (R71, R123). -/
def hdrAddr (p : Params) (h : Nat) : Nat := h &&& addrMask p

/-- The bits of a header that R71 reserves, each left in its place (R123: `rsvd`). -/
def hdrReserved (p : Params) (h : Nat) : Nat :=
  h &&& ((2 ^ (8 * p.cmdHdrBytes) - 1) ^^^ (addrMask p ||| (1 <<< p.cdBit) ||| (1 <<< p.rwBit)))

/-! ## MDIO control word -/

/-- The start and operation codes of R77, one per control word the block writes. -/
inductive MdioCode where
  | c22Write
  | c22Read
  | c45Addr
  | c45Write
  | c45Read
deriving DecidableEq, Repr

/-- `ST` of a code (R77). -/
def stCode : MdioCode → BitVec 2
  | .c22Write | .c22Read => 0b01
  | .c45Addr | .c45Write | .c45Read => 0b00

/-- `OP` of a code (R77). -/
def opCode : MdioCode → BitVec 2
  | .c22Write => 0b01
  | .c22Read => 0b10
  | .c45Addr => 0b00
  | .c45Write => 0b01
  | .c45Read => 0b11

/-- The control word encoder `mdio_cw`: each field at its place in the layout, bits TRDONE and reserved 0 (R76, R78). -/
def mdioCw (l : MdioLayout) (c : MdioCode) (prtad dv : BitVec 5) (data : W16) : W32 :=
  ((stCode c).setWidth 32 <<< l.st) ||| ((opCode c).setWidth 32 <<< l.op)
    ||| (prtad.setWidth 32 <<< l.prtad) ||| (dv.setWidth 32 <<< l.devad) ||| (data.setWidth 32 <<< l.data)

/-- `done(w)`: the transaction-done bit of a polled word (R79). -/
def mdioDone (l : MdioLayout) (w : W32) : Bool := w.getLsbD l.trdone

/-- `mdata(w)`: the data field of a polled word (R79). -/
def mdioData (l : MdioLayout) (w : W32) : W16 := w.extractLsb' l.data 16

end Sys2Proof.Machine
end

