-- ==== Sys2Proof/Syntax.lean ====
section
/-! DEFINITION. The instructions: one constructor per row of spec/opcode_table.json. The first fourteen are the host
operations of spec/30_encoding.md R70 with the argument records of R83; the last seven are the words the block puts on the
bus, the five MDIO control words of R76 and R77 and the two command headers of R71 with their frames (R72, R73). -/

namespace Sys2Proof

/-- One instruction. A byte-string argument is an `Option`: the spec lets a required one be absent (R51, R83), as it does
FIFORX's `cap`; an optional `init` that is absent means `CRC_INIT` (R83). -/
inductive Instr where
  /-- INIT, OPC 0x01 (R100). -/
  | init (poly : Byte) (crcEn : Bool) (ports : Byte)
  /-- DEINIT, OPC 0x02 (R101). -/
  | deinit
  /-- CRC8, OPC 0x10 (R113). -/
  | crc8 (data : Option Bytes) (init : Option Byte)
  /-- CRCCHK, OPC 0x11 (R114). -/
  | crcchk (data : Option Bytes) (expected : Byte) (init : Option Byte)
  /-- REGWR, OPC 0x20 (R120). -/
  | regwr (addr : W16) (value : W32)
  /-- REGRD, OPC 0x21 (R121). -/
  | regrd (addr : W16)
  /-- REGUPD, OPC 0x22 (R122). -/
  | regupd (addr : W16) (mask value : W32)
  /-- WFDEC, OPC 0x23 (R123). -/
  | wfdec (frame : Option Bytes)
  /-- C22RD, OPC 0x30 (R141). -/
  | c22rd (prtad regad : Byte)
  /-- C22WR, OPC 0x31 (R142). -/
  | c22wr (prtad regad : Byte) (data : W16)
  /-- C45RD, OPC 0x32 (R143). -/
  | c45rd (prtad devad : Byte) (regaddr : W16)
  /-- C45WR, OPC 0x33 (R144). -/
  | c45wr (prtad devad : Byte) (regaddr data : W16)
  /-- FIFOTX, OPC 0x40 (R163). -/
  | fifotx (port : Byte) (dest src ethertype payload : Option Bytes)
  /-- FIFORX, OPC 0x41 (R164). -/
  | fiforx (port : Byte) (cap : Option W32)
  /-- MDIO_C22_READ: control word with ST 01, OP 10 (R76, R77; used by R141). -/
  | mdioC22Read (trdone rsvd : Bool) (prtad devad : BitVec 5) (data : W16)
  /-- MDIO_C22_WRITE: control word with ST 01, OP 01 (R76, R77; used by R142). -/
  | mdioC22Write (trdone rsvd : Bool) (prtad devad : BitVec 5) (data : W16)
  /-- MDIO_C45_ADDR: control word with ST 00, OP 00 (R76, R77; first phase of R143 and R144). -/
  | mdioC45Addr (trdone rsvd : Bool) (prtad devad : BitVec 5) (data : W16)
  /-- MDIO_C45_WRITE: control word with ST 00, OP 01 (R76, R77; second phase of R144). -/
  | mdioC45Write (trdone rsvd : Bool) (prtad devad : BitVec 5) (data : W16)
  /-- MDIO_C45_READ: control word with ST 00, OP 11 (R76, R77; second phase of R143). -/
  | mdioC45Read (trdone rsvd : Bool) (prtad devad : BitVec 5) (data : W16)
  /-- BUS_WRITE_HDR: the command header of a write and the register value that follows it (R71, R72). -/
  | busWriteHdr (addr : Nat) (value : W32)
  /-- BUS_READ_HDR: the command header of a read (R71, R73). -/
  | busReadHdr (addr : Nat)
deriving DecidableEq, Repr

/-- INIT is the one operation a block that is not configured accepts (R27). -/
def Instr.isInit : Instr → Bool
  | .init _ _ _ => true
  | _ => false

/-! ## Pseudo-operations (R86): each expands to one request -/

/-- `REGSET a, bits` is `REGUPD a, bits, bits`. -/
def Instr.regset (addr : W16) (bits : W32) : Instr := .regupd addr bits bits

/-- `REGCLR a, bits` is `REGUPD a, bits, 0`. -/
def Instr.regclr (addr : W16) (bits : W32) : Instr := .regupd addr bits 0

/-- `CRC8Z data` is `CRC8 data, 0x00`. -/
def Instr.crc8z (data : Option Bytes) : Instr := .crc8 data (some 0x00)

/-! ## Encoded requests -/

/-- The formats of spec/opcode_table.json's rows. -/
inductive Format where
  /-- An operation code and its argument record (R70, R83). -/
  | hostRequest
  /-- One 32-bit MDIO control word, big-endian (R52, R76). -/
  | controlWord
  /-- A bus command header (R71), and the four value bytes of a write after it, big-endian (R52), with no CRC byte (DESIGN
  CHOICE, notes/assumptions/24.md). -/
  | busFrame
deriving DecidableEq, Repr

/-- One request as the bytes that carry it. -/
structure Request where
  format : Format
  bytes  : Bytes
deriving DecidableEq, Repr

/-- Why the decoder reads no instruction from a request. -/
inductive DecodeError where
  /-- A reserved operation code: the block answers it `InvalidOp(OPC)` (R84 (a)). -/
  | reservedOpcode (opc : Byte)
  /-- The request ends inside its argument record. -/
  | truncated
  /-- Bytes follow the argument record. -/
  | trailing
  /-- A one-bit field or a presence mark that is neither 0 nor 1: a value that does not fit its width cannot be
  written in a request (R83). -/
  | badBit (value : Byte)
  /-- The control-frame marker is not `CD_VAL`: no command frame (R71). -/
  | notCommandFrame
  /-- A reserved bit of a command header is 1 (R71, R84 (b)). -/
  | reservedHeaderBits
  /-- A start and operation code that the block never writes (R77, R84 (c)). -/
  | unusedMdioCode
deriving DecidableEq, Repr

end Sys2Proof
end

