-- ==== Sys2Proof/WellFormed.lean ====
section
/-! DEFINITION. Which instructions have an encoding. The widths of rule R83 are in the types of `Instr`; what is left is
that a command header holds a register number of the remote register space (spec/20_memory.md R50). -/

namespace Sys2Proof

/-- The address of a bus command header is a register number in `[0, 2^ADDR_WIDTH)` (R50, R71). -/
def headerAddressFits (p : Params) (addr : Nat) : Bool := decide (addr < 2 ^ p.addrWidth)

/-- `wellFormed p i`: with parameters `p`, instruction `i` can be written in a request. -/
def wellFormed (p : Params) : Instr → Bool
  | .init _ _ _ | .deinit | .crc8 _ _ | .crcchk _ _ _ => true
  | .regwr _ _ | .regrd _ | .regupd _ _ _ | .wfdec _ => true
  | .c22rd _ _ | .c22wr _ _ _ | .c45rd _ _ _ | .c45wr _ _ _ _ => true
  | .fifotx _ _ _ _ _ | .fiforx _ _ => true
  | .mdioC22Read _ _ _ _ _ | .mdioC22Write _ _ _ _ _ | .mdioC45Addr _ _ _ _ _ => true
  | .mdioC45Write _ _ _ _ _ | .mdioC45Read _ _ _ _ _ => true
  | .busWriteHdr addr _ => headerAddressFits p addr
  | .busReadHdr addr => headerAddressFits p addr

end Sys2Proof
end

