-- ==== Sys2Proof/Decode.lean ====
section
/-! DEFINITION. The decoder, total on any bytes and rejecting by name, and after it the encoder.

The operation codes are those of spec/30_encoding.md R70, the argument widths and orders those of R83, the header and the
control word those of R71 and R76. How an argument record is laid out in bytes is this model's framing (the spec gives
none, decision D2): numbers big-endian, a one-bit value as a byte 0 or 1, an optional value after a presence byte 0 or 1,
a byte string as a presence byte and then each byte after a byte 1, closed by a byte 0 (DESIGN CHOICE,
notes/assumptions/6.md). The bytes of a bus word as a request are the model's too (DESIGN CHOICE, notes/assumptions/24.md). -/

namespace Sys2Proof

open Machine

/-! ## Reading fields: each reader gives the value read and the bytes left -/

/-- One byte. -/
def takeByte : Bytes → Except DecodeError (Byte × Bytes)
  | [] => .error .truncated
  | b :: bs => .ok (b, bs)

/-- An `n`-byte big-endian number. -/
def takeBe (n : Nat) (bs : Bytes) : Except DecodeError (Nat × Bytes) :=
  if n ≤ bs.length then .ok (fromBe (bs.take n), bs.drop n) else .error .truncated

/-- A 16-bit value. -/
def take16 (bs : Bytes) : Except DecodeError (W16 × Bytes) := do
  let (v, bs) ← takeBe 2 bs
  return (BitVec.ofNat 16 v, bs)

/-- A 32-bit value. -/
def take32 (bs : Bytes) : Except DecodeError (W32 × Bytes) := do
  let (v, bs) ← takeBe 4 bs
  return (BitVec.ofNat 32 v, bs)

/-- A one-bit value; a byte that is neither 0 nor 1 does not fit it (R83). -/
def takeBit : Bytes → Except DecodeError (Bool × Bytes)
  | [] => .error .truncated
  | b :: bs => if b = 0 then .ok (false, bs) else if b = 1 then .ok (true, bs) else .error (.badBit b)

/-- An optional value: a presence byte, then the value. -/
def takeOption {α : Type} (value : Bytes → Except DecodeError (α × Bytes)) (bs : Bytes) : Except DecodeError (Option α × Bytes) := do
  let (present, bs) ← takeBit bs
  if present then
    let (v, bs) ← value bs
    return (some v, bs)
  else
    return (none, bs)

/-- The bytes of a present byte string. -/
def takeChunks : Bytes → Except DecodeError (Bytes × Bytes)
  | [] => .error .truncated
  | [m] => if m = 0 then .ok ([], []) else if m = 1 then .error .truncated else .error (.badBit m)
  | m :: b :: bs =>
    if m = 0 then .ok ([], b :: bs)
    else if m = 1 then
      match takeChunks bs with
      | .ok (s, rest) => .ok (b :: s, rest)
      | .error e => .error e
    else .error (.badBit m)

/-- A byte-string argument, which may be absent (R51). -/
def takeString (bs : Bytes) : Except DecodeError (Option Bytes × Bytes) := takeOption takeChunks bs

/-! ## The three formats -/

/-- A host request: operation code, then argument record (R70, R83); a code outside R70's map is reserved (R84 (a)). -/
def decodeHost : Bytes → Except DecodeError (Instr × Bytes)
  | [] => .error .truncated
  | opc :: bs =>
    match opc.toNat with
    | 0x01 => do
      let (poly, bs) ← takeByte bs
      let (crcEn, bs) ← takeBit bs
      let (ports, bs) ← takeByte bs
      return (.init poly crcEn ports, bs)
    | 0x02 => .ok (.deinit, bs)
    | 0x10 => do
      let (data, bs) ← takeString bs
      let (init, bs) ← takeOption takeByte bs
      return (.crc8 data init, bs)
    | 0x11 => do
      let (data, bs) ← takeString bs
      let (expected, bs) ← takeByte bs
      let (init, bs) ← takeOption takeByte bs
      return (.crcchk data expected init, bs)
    | 0x20 => do
      let (addr, bs) ← take16 bs
      let (value, bs) ← take32 bs
      return (.regwr addr value, bs)
    | 0x21 => do
      let (addr, bs) ← take16 bs
      return (.regrd addr, bs)
    | 0x22 => do
      let (addr, bs) ← take16 bs
      let (mask, bs) ← take32 bs
      let (value, bs) ← take32 bs
      return (.regupd addr mask value, bs)
    | 0x23 => do
      let (frame, bs) ← takeString bs
      return (.wfdec frame, bs)
    | 0x30 => do
      let (prtad, bs) ← takeByte bs
      let (regad, bs) ← takeByte bs
      return (.c22rd prtad regad, bs)
    | 0x31 => do
      let (prtad, bs) ← takeByte bs
      let (regad, bs) ← takeByte bs
      let (data, bs) ← take16 bs
      return (.c22wr prtad regad data, bs)
    | 0x32 => do
      let (prtad, bs) ← takeByte bs
      let (devad, bs) ← takeByte bs
      let (regaddr, bs) ← take16 bs
      return (.c45rd prtad devad regaddr, bs)
    | 0x33 => do
      let (prtad, bs) ← takeByte bs
      let (devad, bs) ← takeByte bs
      let (regaddr, bs) ← take16 bs
      let (data, bs) ← take16 bs
      return (.c45wr prtad devad regaddr data, bs)
    | 0x40 => do
      let (port, bs) ← takeByte bs
      let (dest, bs) ← takeString bs
      let (src, bs) ← takeString bs
      let (ethertype, bs) ← takeString bs
      let (payload, bs) ← takeString bs
      return (.fifotx port dest src ethertype payload, bs)
    | 0x41 => do
      let (port, bs) ← takeByte bs
      let (cap, bs) ← takeOption take32 bs
      return (.fiforx port cap, bs)
    | _ => .error (.reservedOpcode opc)

/-- The control word a start and an operation code select; the block writes no other (R77, R84 (c)). -/
def mdioCodeOf (st op : BitVec 2) : Option MdioCode :=
  match st.toNat, op.toNat with
  | 1, 1 => some .c22Write
  | 1, 2 => some .c22Read
  | 0, 0 => some .c45Addr
  | 0, 1 => some .c45Write
  | 0, 3 => some .c45Read
  | _, _ => none

/-- The instruction of a control word's code with its other fields. -/
def controlInstr (c : MdioCode) (trdone rsvd : Bool) (prtad devad : BitVec 5) (data : W16) : Instr :=
  match c with
  | .c22Write => .mdioC22Write trdone rsvd prtad devad data
  | .c22Read => .mdioC22Read trdone rsvd prtad devad data
  | .c45Addr => .mdioC45Addr trdone rsvd prtad devad data
  | .c45Write => .mdioC45Write trdone rsvd prtad devad data
  | .c45Read => .mdioC45Read trdone rsvd prtad devad data

/-- The instruction of a 32-bit control word (R76, R77). -/
def decodeControlWord (l : MdioLayout) (w : W32) : Except DecodeError Instr :=
  match mdioCodeOf (w.extractLsb' l.st 2) (w.extractLsb' l.op 2) with
  | some c => .ok (controlInstr c (w.getLsbD l.trdone) (w.getLsbD l.rsvd) (w.extractLsb' l.prtad 5)
      (w.extractLsb' l.devad 5) (w.extractLsb' l.data 16))
  | none => .error .unusedMdioCode

/-- A control word, big-endian (R52, R76); as the bytes of a request, DESIGN CHOICE, notes/assumptions/24.md. -/
def decodeControl (p : Params) (bs : Bytes) : Except DecodeError (Instr × Bytes) := do
  let (w, bs) ← take32 bs
  let i ← decodeControlWord p.mdioLayout w
  return (i, bs)

/-- A bus word as a request: the command header (R71), and for a write four bytes of the value after it, whatever `REG_BYTES`
is. No CRC byte stands in it, with `CRC_EN` 1 too, and no turnaround bytes: the block adds those when it sends the frame
(R72, R73). DESIGN CHOICE, notes/assumptions/24.md. -/
def decodeBus (p : Params) (bs : Bytes) : Except DecodeError (Instr × Bytes) := do
  let (h, bs) ← takeBe p.cmdHdrBytes bs
  if h.testBit p.cdBit != p.cdVal then
    throw .notCommandFrame
  else if hdrReserved p h ≠ 0 then
    throw .reservedHeaderBits
  else if h.testBit p.rwBit = p.rwWrite then
    let (value, bs) ← take32 bs
    return (.busWriteHdr (hdrAddr p h) value, bs)
  else
    return (.busReadHdr (hdrAddr p h), bs)

/-- The decoder: the instruction at the front of the bytes, and the bytes after it. -/
def decode (p : Params) : Format → Bytes → Except DecodeError (Instr × Bytes)
  | .hostRequest, bs => decodeHost bs
  | .controlWord, bs => decodeControl p bs
  | .busFrame, bs => decodeBus p bs

/-- The instruction of one request: its bytes are the instruction's and no more. A reserved operation code is reported
as such whatever follows it (R84 (a)). -/
def decodeRequest (p : Params) (r : Request) : Except DecodeError Instr :=
  match decode p r.format r.bytes with
  | .ok (i, []) => .ok i
  | .ok (_, _ :: _) => .error .trailing
  | .error e => .error e

/-! ## The encoder -/

/-- A one-bit value as a byte. -/
def putBit (b : Bool) : Bytes := [if b then 1 else 0]

/-- A 16-bit value, big-endian. -/
def put16 (v : W16) : Bytes := be16 v.toNat

/-- An optional byte after its presence byte. -/
def putOption {α : Type} (value : α → Bytes) : Option α → Bytes
  | none => [0]
  | some v => 1 :: value v

/-- The bytes of a present byte string. -/
def putChunks : Bytes → Bytes
  | [] => [0]
  | b :: bs => 1 :: b :: putChunks bs

/-- A byte-string argument. -/
def putString (s : Option Bytes) : Bytes := putOption putChunks s

/-- The one-bit field `b` at bit `lo` of a control word. -/
def controlBit (b : Bool) (lo : Nat) : W32 := (BitVec.ofBool b).setWidth 32 <<< lo

/-- A control word with all its fields (R76). -/
def controlWordOf (l : MdioLayout) (c : MdioCode) (trdone rsvd : Bool) (prtad devad : BitVec 5) (data : W16) : W32 :=
  controlBit trdone l.trdone ||| controlBit rsvd l.rsvd ||| mdioCw l c prtad devad data

/-- A control word as a request. -/
def controlRequest (p : Params) (c : MdioCode) (trdone rsvd : Bool) (prtad devad : BitVec 5) (data : W16) : Request :=
  ⟨.controlWord, be32 (controlWordOf p.mdioLayout c trdone rsvd prtad devad data)⟩

/-- The request that carries a well-formed instruction, in the model's framing (DESIGN CHOICE, notes/assumptions/6.md and
24.md). -/
def encode (p : Params) : Instr → Request
  | .init poly crcEn ports => ⟨.hostRequest, 0x01 :: poly :: (putBit crcEn ++ [ports])⟩
  | .deinit => ⟨.hostRequest, [0x02]⟩
  | .crc8 data init => ⟨.hostRequest, 0x10 :: (putString data ++ putOption (fun b => [b]) init)⟩
  | .crcchk data expected init =>
    ⟨.hostRequest, 0x11 :: (putString data ++ [expected] ++ putOption (fun b => [b]) init)⟩
  | .regwr addr value => ⟨.hostRequest, 0x20 :: (put16 addr ++ be32 value)⟩
  | .regrd addr => ⟨.hostRequest, 0x21 :: put16 addr⟩
  | .regupd addr mask value => ⟨.hostRequest, 0x22 :: (put16 addr ++ be32 mask ++ be32 value)⟩
  | .wfdec frame => ⟨.hostRequest, 0x23 :: putString frame⟩
  | .c22rd prtad regad => ⟨.hostRequest, [0x30, prtad, regad]⟩
  | .c22wr prtad regad data => ⟨.hostRequest, 0x31 :: prtad :: regad :: put16 data⟩
  | .c45rd prtad devad regaddr => ⟨.hostRequest, 0x32 :: prtad :: devad :: put16 regaddr⟩
  | .c45wr prtad devad regaddr data => ⟨.hostRequest, 0x33 :: prtad :: devad :: (put16 regaddr ++ put16 data)⟩
  | .fifotx port dest src ethertype payload =>
    ⟨.hostRequest, 0x40 :: port :: (putString dest ++ putString src ++ putString ethertype ++ putString payload)⟩
  | .fiforx port cap => ⟨.hostRequest, 0x41 :: port :: putOption be32 cap⟩
  | .mdioC22Read t r prtad devad data => controlRequest p .c22Read t r prtad devad data
  | .mdioC22Write t r prtad devad data => controlRequest p .c22Write t r prtad devad data
  | .mdioC45Addr t r prtad devad data => controlRequest p .c45Addr t r prtad devad data
  | .mdioC45Write t r prtad devad data => controlRequest p .c45Write t r prtad devad data
  | .mdioC45Read t r prtad devad data => controlRequest p .c45Read t r prtad devad data
  | .busWriteHdr addr value => ⟨.busFrame, hdrBytes p addr .write ++ be32 value⟩
  | .busReadHdr addr => ⟨.busFrame, hdrBytes p addr .read⟩

/-! ## Words numbered as spec/opcode_table.json numbers them -/

/-- The format of a table row of `nbits` bits: command headers have 16, control words 32, operation codes 8. -/
def tableFormat (nbits : Nat) : Format :=
  if nbits = 16 then .busFrame else if nbits = 32 then .controlWord else .hostRequest

/-- The `n` low bytes of `w`, the lowest first. -/
def leBytes : Nat → Nat → Bytes
  | 0, _ => []
  | n + 1, w => BitVec.ofNat 8 w :: leBytes n (w / 256)

/-- The bytes of a table word as they are stored: a header and a control word are big-endian (R52), a host request is
its bytes in order. -/
def tableBytes (nbits w : Nat) : Bytes :=
  match tableFormat nbits with
  | .hostRequest => leBytes (nbits / 8) w
  | .controlWord | .busFrame => beBytes (nbits / 8) w

/-- The longest argument record all of whose bits are 0 (REGUPD's: 2 + 4 + 4 bytes). -/
def zeroOperandBytes : Nat := 10

/-- The request of a table word, every bit of the instruction above the word being 0. -/
def tableRequest (p : Params) (nbits w : Nat) : Request :=
  let raw := tableBytes nbits w ++ zeros zeroOperandBytes
  match decode p (tableFormat nbits) raw with
  | .ok (_, rest) => ⟨tableFormat nbits, raw.take (raw.length - rest.length)⟩
  | .error _ => ⟨tableFormat nbits, tableBytes nbits w⟩

/-- The instruction the decoder reads from a word of spec/opcode_table.json, whose wire rows are of profile T. -/
def decodeTableWord (nbits w : Nat) : Option Instr :=
  match decodeRequest Params.profileT (tableRequest Params.profileT nbits w) with
  | .ok i => some i
  | .error _ => none

end Sys2Proof
end

