-- ==== Sys2Proof/Machine/State.lean ====
section
/-! DEFINITION. The state of the codec block (spec/10_state.md), its interfaces to the host and to the bus (R27, R28), and
the state right after reset (R32, R230). Plain data throughout. -/

namespace Sys2Proof.Machine

/-! ## Registers of the block -/

/-- The configuration registers (R22), written by INIT and dropped by DEINIT. -/
structure Cfg where
  /-- `cfg.POLY`, 8 bits. -/
  poly  : Byte
  /-- `cfg.CRC_EN`, 1 bit. -/
  crcEn : Bool
  /-- `cfg.PORTS`, 2 bits, legal values 1 and 2. -/
  ports : BitVec 2
deriving DecidableEq, Repr

/-- `CRC_TABLE[0..255]`, 256 entries of 8 bits (R23). -/
abbrev CrcTable := Vector Byte 256

/-- The faults of rule R210, with the information a fault carries. -/
inductive FaultName where
  /-- `F_UNINIT`: a request other than INIT while `life = UNINIT` (R27). -/
  | fUninit
  /-- `F_REINIT`: INIT while `life = IDLE` (R100). -/
  | fReinit
  /-- `F_REENTRANT`: a request while `life = BUSY(...)` (R231). -/
  | fReentrant
  /-- `F_RX_SHORT(fs)`: FIFORX read a frame size in `[header_len + 4, header_len + 14)` (R164). -/
  | fRxShort (fs : W32)
deriving DecidableEq, Repr

/-- The local values of an operation in progress (R21: `locals`), kept as the strings its transactions have received so
far, the oldest first: every local of the pseudocode (`old`, `w`, the poll count `n`, `space`, `st`, `fs`) is a function of
them and of the operation's operands (DEDUCED, notes/assumptions/14.md). -/
structure Locals where
  received : List Bytes
deriving DecidableEq, Repr

/-- The sequencer state `life` (R21). -/
inductive Life where
  /-- Not configured; only INIT is accepted. -/
  | uninit
  /-- Configured, no operation in progress. -/
  | idle
  /-- Executing `op`; `phase` is the number of bus transactions the operation has issued so far. -/
  | busy (op : Instr) (phase : Nat) (locals : Locals)
  /-- The sticky fault state of R210. -/
  | fault (name : FaultName)
deriving DecidableEq, Repr

/-! ## The bus (R5, R28, R30) -/

/-- The oracle's answer to one bus transaction: the received string, or the bus primitive's error value (R5, R28), whose
type the spec does not give (DESIGN CHOICE, notes/assumptions/10.md). -/
inductive Answer where
  | ok (rx : Bytes)
  | err (e : Nat)
deriving DecidableEq, Repr

/-- One entry of the transaction history: what was sent and what came back (R30). -/
structure Transaction where
  tx     : Bytes
  answer : Answer
deriving DecidableEq, Repr

/-! ## The host interface (R27, R200) -/

/-- The reasons of `WouldBlock` (R200). -/
inductive BlockReason where
  | noSpace
  | fifoErr
deriving DecidableEq, Repr

/-- The reasons of `InvalidArg` (R200). -/
inductive ArgReason where
  | port
  | null
  | len
  | tooLong
  | capacity
  | variant
deriving DecidableEq, Repr

/-- The statuses of rule R200, each with its `info`. The last three are reserved and never raised by the block. -/
inductive Status where
  | ok
  | wouldBlock (r : BlockReason)
  | invalidArg (r : ArgReason)
  | busError (e : Nat)
  | timeout (slot : Fin 2)
  | invalidOp (opc : Byte)
  | deviceMismatch
  | notConnected
  | resourceExhausted
deriving DecidableEq, Repr

/-- An operation's result record (R27 and the operation's rule). -/
inductive Results where
  /-- `return ()`. -/
  | empty
  /-- CRC8 (R113). -/
  | crc (crc : Byte)
  /-- CRCCHK (R114). -/
  | crcCheck (ok : Bool) (crc : Byte)
  /-- REGRD (R121). -/
  | value (value : W32)
  /-- WFDEC (R123). -/
  | writeFrame (addr : Nat) (value : W32) (cd rw : Bool) (rsvd : Nat) (isWrite crcOk : Bool)
  /-- C22RD, C45RD (R141, R143). -/
  | data (data : W16)
  /-- FIFORX with `present = 0` (R164). -/
  | noFrame
  /-- FIFORX with `present = 1` (R164). -/
  | frame (dest src ethertype payload : Bytes) (len : Nat)
deriving DecidableEq, Repr

/-- A response `(status, info, results)` (R27, R200); `results` is there only when the status is OK. -/
structure Response where
  status  : BitVec 8
  info    : Option Nat
  results : Option Results
deriving DecidableEq, Repr

/-- What reaches the block from outside, one event at a time: a request of the host (R27) or the oracle's answer to a
bus transaction (R5). -/
inductive Event where
  | request (r : Request)
  | answer (a : Answer)
deriving DecidableEq, Repr

/-! ## Why a step stops -/

/-- Faults: the machine stops. -/
inductive Fault where
  /-- The block is in the sticky fault state and has no step (R210). Raised by `exec` and `step` in that state and
  nowhere else. Safe: the spec gives the run no meaning from there. -/
  | sticky (name : FaultName)
deriving DecidableEq, Repr

/-- Refusals: no meaning. -/
inductive Refusal where
  /-- An instruction whose meaning is not written yet. Raised by no arm of this model. Safe. -/
  | notModelled (mnemonic : String)
  /-- Bytes that are no request: not a reserved operation code, which the block answers (R84 (a)), but an argument
  record that R83 says cannot be written, or a bus word that the block never emits (R84). Raised by the fetch of a request,
  never by a meaning. Safe. -/
  | malformedRequest (why : DecodeError)
  /-- Parameters outside the constraints that R7 says a model must check: no block has them. Raised by `step`, and by
  nothing that an instruction does. Safe. -/
  | illFormedParameters
deriving DecidableEq, Repr

/-! ## The state -/

/-- The state of the block with its interfaces. -/
structure State where
  /-- The implementation parameters (R7); no step writes them (DESIGN CHOICE, notes/assumptions/1.md). -/
  params    : Params
  /-- The sequencer state (R21); the fault latch of R32 is its `fault` case. -/
  life      : Life
  /-- The configuration registers (R22); `none` is the spec's "no value" (R32, R101; DEDUCED, notes/assumptions/8.md). -/
  cfg       : Option Cfg
  /-- `CRC_TABLE` (R23); `none` is the spec's "no value" (R32, R101). -/
  crcTable  : Option CrcTable
  /-- `TXBUF` (R24): the bytes from index 0 that hold a value; a byte at or past its length has no value (R32). -/
  txbuf     : Bytes
  /-- `RXBUF` (R24), held as `txbuf` is. -/
  rxbuf     : Bytes
  /-- The transaction history (R30), in issue order, never cleared. -/
  history   : List Transaction
  /-- The responses delivered to the host (R27), in order. The model's own record of that interface (DESIGN CHOICE,
  notes/assumptions/15.md). -/
  responses : List Response
  /-- What the environment does next, in order (R5, R27). The model's own field: the machine's input (DESIGN CHOICE,
  notes/assumptions/4.md). -/
  events    : List Event
deriving DecidableEq, Repr

/-- The fault latch (R32): set with a name exactly in the fault state. -/
def faultLatch (s : State) : Option FaultName :=
  match s.life with
  | .fault n => some n
  | _ => none

/-- The state right after reset, that is, its creation, with given parameters (R32, R230); `State.create` checks them. -/
def State.resetWith (p : Params) : State :=
  { params := p
    life := .uninit
    cfg := none
    crcTable := none
    txbuf := []
    rxbuf := []
    history := []
    responses := []
    events := [] }

/-- The creation of a block (R230) with the check of its parameters that R7 asks for: no block has parameters outside the
constraints (notes/assumptions/18.md). -/
def State.create (p : Params) : Option State := if p.wf then some (State.resetWith p) else none

/-- The machine right after reset, with test profile T as its parameters (R7, R32, R230; DESIGN CHOICE,
notes/assumptions/1.md). -/
def State.reset : State := State.resetWith Params.profileT

end Sys2Proof.Machine
end

