-- ==== Sys2Proof/Machine/Flags.lean ====
section
/-! DEFINITION. The response status. The block has no condition codes (spec/10_state.md R25): the only status a program sees
is the 8-bit status of each response and its `info` (spec/60_exceptions.md R200). -/

namespace Sys2Proof.Machine

/-- The status code (R200). -/
def statusCode : Status → BitVec 8
  | .ok => 0
  | .wouldBlock _ => 1
  | .invalidArg _ => 2
  | .busError _ => 3
  | .timeout _ => 4
  | .invalidOp _ => 5
  | .deviceMismatch => 6
  | .notConnected => 7
  | .resourceExhausted => 8

/-- The info value of a `WouldBlock` (R200). -/
def blockInfo : BlockReason → Nat
  | .noSpace => 1
  | .fifoErr => 2

/-- The info value of an `InvalidArg` (R200). -/
def argInfo : ArgReason → Nat
  | .port => 1
  | .null => 2
  | .len => 3
  | .tooLong => 4
  | .capacity => 5
  | .variant => 6

/-- The info value of a status, where it has one (R200). -/
def statusInfo : Status → Option Nat
  | .ok => none
  | .wouldBlock r => some (blockInfo r)
  | .invalidArg r => some (argInfo r)
  | .busError e => some e
  | .timeout slot => some slot.val
  | .invalidOp opc => some opc.toNat
  | .deviceMismatch | .notConnected | .resourceExhausted => none

/-- The response of an operation that returns these results (R10, R27): status OK. -/
def okResponse (r : Results) : Response :=
  { status := statusCode .ok, info := statusInfo .ok, results := some r }

/-- The response of an operation that raises this status: no result field (R10, R202). -/
def errorResponse (st : Status) : Response :=
  { status := statusCode st, info := statusInfo st, results := none }

end Sys2Proof.Machine
end

