-- ==== Sys2Proof/Machine/Crc8.lean ====
section
/-! DEFINITION. The CRC-8 functions (spec/41_crc8.md R110, R111). -/

namespace Sys2Proof.Machine

/-- One shift of R110's loop: `c` times x, reduced by the polynomial when bit 7 leaves. -/
def crc8Step (poly c : Byte) : Byte :=
  if c.getLsbD 7 then (c <<< 1) ^^^ poly else c <<< 1

/-- R110's loop, `n` shifts. -/
def crc8Shifts (poly : Byte) : Nat → Byte → Byte
  | 0, c => c
  | n + 1, c => crc8Shifts poly n (crc8Step poly c)

/-- Entry `i` of the table (R110). -/
def crc8Entry (poly i : Byte) : Byte := crc8Shifts poly 8 i

/-- `crc8_table(poly)` (R110). -/
def crc8Table (poly : Byte) : CrcTable :=
  ⟨⟨(List.range 256).map fun i => crc8Entry poly (BitVec.ofNat 8 i)⟩, by simp⟩

/-- `T[b]` (R111). -/
def crcLookup (t : CrcTable) (b : Byte) : Byte := t[b.toNat]'b.isLt

/-- `crc8(T, s, init)` (R111): no final XOR, no reflection. -/
def crc8 (t : CrcTable) (s : Bytes) (init : Byte) : Byte :=
  s.foldl (fun c b => crcLookup t (c ^^^ b)) init

end Sys2Proof.Machine
end

