-- ==== Sys2Proof/Machine/Frames.lean ====
section
/-! DEFINITION. The strings the block exchanges on the bus: register frames (spec/30_encoding.md R72 to R75) and FIFO
transfers with their length arithmetic (R80 to R82; spec/44_fifo.md R160 to R162). -/

namespace Sys2Proof.Machine

/-- What an operation's rule reads of the block: the parameters, the configuration and the CRC table. -/
structure Ctx where
  p     : Params
  cfg   : Cfg
  table : CrcTable
deriving DecidableEq, Repr

/-- The CRC byte of a transaction, over every byte before it, or nothing with CRC off (R74). -/
def crcSuffix (x : Ctx) (before : Bytes) : Bytes :=
  if x.cfg.crcEn then [crc8 x.table before x.p.crcInit] else []

/-! ## Register frames -/

/-- A register value as sent: its `REG_BYTES` bytes, the highest first (R52, R72). R72 writes `be32`; another size is read
from the parameter (DEDUCED, notes/assumptions/22.md). -/
def valueBytes (p : Params) (v : W32) : Bytes := beBytes p.regBytes v.toNat

/-- The part of a register write frame before its CRC byte (R72: `base`). -/
def wframeBase (p : Params) (a : Nat) (v : W32) : Bytes := hdrBytes p a .write ++ valueBytes p v

/-- The register write frame `wframe(a, v)` (R72). -/
def wframe (x : Ctx) (a : Nat) (v : W32) : Bytes :=
  wframeBase x.p a v ++ crcSuffix x (wframeBase x.p a v)

/-- The register read frame `rframe(a)`: no CRC byte, whatever `cfg.CRC_EN` is (R73, R75). -/
def rframe (p : Params) (a : Nat) : Bytes :=
  hdrBytes p a .read ++ [p.taTx] ++ List.replicate p.regBytes p.taTx

/-- `rdecode(rx)`: the value after the command header and the turnaround byte (R73; `rx[3..7)` with a 2-byte header;
DEDUCED for another, notes/assumptions/7.md). -/
def rdecode (p : Params) (rx : Bytes) : W32 :=
  BitVec.ofNat 32 (fromBe (slice rx (p.cmdHdrBytes + 1) (p.cmdHdrBytes + 1 + p.regBytes)))

/-! ## FIFO lengths -/

/-- `header_len = FIFO_HDR_LEN + cfg.CRC_EN` (R160). -/
def headerLen (x : Ctx) : Nat := x.p.fifoHdrLen + x.cfg.crcEn.toNat

/-- `tx_pad(L)`: truncated subtraction is the rule's `max(0, ...)` (R161). -/
def txPad (p : Params) (l : Nat) : Nat := p.ethMin - (p.ethHdrLen + l + p.fcsLen)

/-- `frame_length(L)` (R161). -/
def frameLength (x : Ctx) (l : Nat) : Nat := headerLen x + x.p.ethHdrLen + l + txPad x.p l

/-- `no_space(fl, space)`, on integers, without wrap (R162, decision D6). -/
def noSpace (fl space : Nat) : Bool := decide ((fl : Int) > 2 * ((space : Int) - 2))

/-! ## FIFO transfers -/

/-- The opening of a transmit transfer before its CRC byte: command header and port selector (R81: `t`). R81 writes `be16`;
another size of the selector is read from the parameter (DEDUCED, notes/assumptions/22.md). -/
def txOpening (p : Params) (port : Nat) : Bytes :=
  hdrBytes p (portAddr p.txDataAddr port) .write ++ beBytes p.fifoHdrLen port

/-- The transmit transfer `txframe(p, dest, src, et, payload)` (R81). -/
def txframe (x : Ctx) (port : Nat) (dest src et payload : Bytes) : Bytes :=
  txOpening x.p port ++ crcSuffix x (txOpening x.p port)
    ++ dest ++ src ++ et ++ payload
    ++ zeros (txPad x.p payload.length)
    ++ zeros (alignUp (frameLength x payload.length) x.p.fifoAlign - frameLength x payload.length)

/-- The receive transfer `rxcmd(p, fs)` (R82). -/
def rxcmd (p : Params) (port fs : Nat) : Bytes :=
  hdrBytes p (portAddr p.rxDataAddr port) .read ++ [p.taTx] ++ List.replicate (alignUp fs p.fifoAlign) p.taTx

/-- The data region `D` of a receive transfer's answer (R82). -/
def rxData (p : Params) (fs : Nat) (rx : Bytes) : Bytes :=
  slice rx (p.cmdHdrBytes + 1) (p.cmdHdrBytes + 1 + alignUp fs p.fifoAlign)

/-- The frame that a data region holds: fields at fixed offsets, the payload up to the reported size (R80, R164). -/
def decodeFrame (x : Ctx) (fs : Nat) (d : Bytes) : Results :=
  let h := headerLen x
  let n := fs - h - x.p.ethHdrLen
  .frame (slice d h (h + x.p.macLen)) (slice d (h + x.p.macLen) (h + 2 * x.p.macLen))
    (slice d (h + 2 * x.p.macLen) (h + x.p.ethHdrLen)) (slice d (h + x.p.ethHdrLen) (h + x.p.ethHdrLen + n)) n

end Sys2Proof.Machine
end

