-- ==== Sys2Proof/Machine/Ops.lean ====
section
/-! DEFINITION. The shared operations: accepting a request (spec/10_state.md R27), ending an operation (R10, R27), entering
the fault state (spec/60_exceptions.md R210), one bus transaction (spec/00_scope.md R5, R10), and running an operation's
pseudocode over the answers of the bus. -/

namespace Sys2Proof.Machine

/-! ## An operation's pseudocode -/

/-- The pseudocode of an operation from some point on (R10): it returns, it raises, it faults, or it issues one bus
transaction and goes on with the received string. `XferOrFail`'s other case, a bus error, ends every operation alike and is
in `run`. -/
inductive Prog where
  | ret (results : Results)
  | raise (status : Status)
  | fault (name : FaultName)
  | xfer (tx : Bytes) (rest : Bytes → Prog)

/-- The pseudocode after the transactions that received these strings (R21: the position is a function of the operation
and of the locals computed so far). -/
def progAfter : Prog → List Bytes → Prog
  | .xfer _ rest, rx :: received => progAfter (rest rx) received
  | pr, _ => pr

/-- `REGWR-seq(addr, value)`, then `rest` (R120); the received bytes are discarded. -/
def regwrSeq (x : Ctx) (addr : Nat) (value : W32) (rest : Prog) : Prog :=
  .xfer (wframe x addr value) fun _ => rest

/-- `REGRD-seq(addr)`, then `rest` with the value read (R121). -/
def regrdSeq (x : Ctx) (addr : Nat) (rest : W32 → Prog) : Prog :=
  .xfer (rframe x.p addr) fun rx => rest (rdecode x.p rx)

/-! ## Ending an operation -/

/-- Delivering a response to the host (R27). -/
def deliver (r : Response) (s : State) : State := { s with responses := s.responses ++ [r] }

/-- The end of an operation on a configured block: `life <- IDLE` and the response (R21, R27, R205). -/
def finish (r : Response) (s : State) : State := deliver r { s with life := .idle }

/-- `fault <Name>`: the sticky fault state; no response is delivered (R10, R210). Entering it is a next state, and the state
itself has no step (DEDUCED, notes/assumptions/11.md). -/
def enterFault (n : FaultName) (s : State) : State := { s with life := .fault n }

/-! ## The bus -/

/-- A scratch buffer after a string is staged in it from index 0 (R24): bytes past the string stay. -/
def stage (s buf : Bytes) : Bytes := s ++ buf.drop s.length

/-- The answer the oracle gives to transaction number `k` of `n` bytes (R5): of exactly that length. A byte that the
environment's script leaves out is the oracle's free draw. -/
def fullAnswer (k n : Nat) : Answer → Answer
  | .ok rx => .ok ((List.range n).map fun i => rx.getD i (Config.drawByte k i))
  | .err e => .err e

/-- The oracle's free draw for transaction number `k` (R5), where no script spells it out. -/
def freeAnswer (k : Nat) : Answer :=
  match Config.drawError k with
  | some e => .err e
  | none => .ok []

/-- The bytes that transaction number `k` of `n` bytes leaves in the receive buffer (R24, R28): the received string. After a
bus error the spec states no byte of them: each is a free draw (notes/assumptions/9.md). -/
def bytesLeft (k n : Nat) : Answer → Bytes
  | .ok rx => rx
  | .err _ => (List.range n).map (Config.drawByte k)

/-- The receive buffer after transaction number `k` of `n` bytes (R24). -/
def stageAnswer (k n : Nat) (a : Answer) (buf : Bytes) : Bytes := stage (bytesLeft k n a) buf

/-- One bus transaction done: both buffers staged and the history longer by one (R24, R30). -/
def recordTransfer (tx : Bytes) (a : Answer) (s : State) : State :=
  { s with
    txbuf := stage tx s.txbuf
    rxbuf := stageAnswer s.history.length tx.length a s.rxbuf
    history := s.history ++ [⟨tx, a⟩] }

/-- The sequencer after one more transaction of the operation in progress (R21: `phase` advances by exactly one). -/
def advance (rx : Bytes) (s : State) : State :=
  match s.life with
  | .busy op phase locals => { s with life := .busy op (phase + 1) ⟨locals.received ++ [rx]⟩ }
  | _ => s

/-- The pseudocode run over the events of the environment, in order (R5, R57). It stops where the operation ends; at a
bus error, which ends the operation at once (R10: `XferOrFail`, R204); at a request made while it is in progress (R231);
or where no event is left, which leaves the block BUSY before its next transaction (DESIGN CHOICE, notes/assumptions/5.md). -/
def run : Prog → List Event → State → State
  | .ret res, es, s => finish (okResponse res) { s with events := es }
  | .raise st, es, s => finish (errorResponse st) { s with events := es }
  | .fault n, es, s => enterFault n { s with events := es }
  | .xfer _ _, [], s => { s with events := [] }
  | .xfer _ _, .request _ :: es, s => enterFault .fReentrant { s with events := es }
  | .xfer tx rest, .answer a :: es, s =>
    match fullAnswer s.history.length tx.length a with
    | .ok rx => run (rest rx) es (advance rx (recordTransfer tx (.ok rx) s))
    | .err e => finish (errorResponse (.busError e)) { recordTransfer tx (.err e) s with events := es }

/-! ## Accepting a request -/

/-- What becomes of a request before its operation code is looked at (R27, R204 item 1). -/
inductive Acceptance where
  /-- The block is in the fault state: the request has no step. -/
  | noStep (name : FaultName)
  /-- The request puts the block into a fault. -/
  | faults (name : FaultName)
  /-- The request is accepted. -/
  | accepted
deriving DecidableEq, Repr

/-- The sequencer's test of a request, in the order of R204 item 1; `isInit` says whether it is an INIT. -/
def acceptance (isInit : Bool) : Life → Acceptance
  | .fault n => .noStep n
  | .busy _ _ _ => .faults .fReentrant
  | .uninit => if isInit then .accepted else .faults .fUninit
  | .idle => if isInit then .faults .fReinit else .accepted

/-- A request of the given kind: `meaning` is what an accepted one does. -/
def onAccept (isInit : Bool) (s : State) (meaning : State → State) : Host.Outcome State Fault Refusal :=
  match acceptance isInit s.life with
  | .noStep n => .fault (.sticky n)
  | .faults n => .next (enterFault n s)
  | .accepted => .next (meaning s)

/-- What the rules of a configured block read. `none` where the configuration or the table has no value. -/
def ctxOf (s : State) : Option Ctx :=
  match s.cfg, s.crcTable with
  | some c, some t => some ⟨s.params, c, t⟩
  | _, _ => none

/-- An accepted operation that reads the configuration: `life <- BUSY(op, 0, locals)` with no locals yet (R27), then
its pseudocode. A request that would read configuration with no value faults `F_UNINIT` (R32; no run reaches this, DEDUCED,
notes/assumptions/17.md). -/
def startOp (op : Instr) (prog : Ctx → Prog) (s : State) : State :=
  match ctxOf s with
  | some x => run (prog x) s.events { s with life := .busy op 0 ⟨[]⟩ }
  | none => enterFault .fUninit s

/-- The meaning of an operation other than INIT and DEINIT, from its pseudocode. -/
def request (op : Instr) (prog : Ctx → Prog) (s : State) : Host.Outcome State Fault Refusal :=
  onAccept false s (startOp op prog)

/-- A request with a reserved operation code: `InvalidOp(OPC)` and no other effect, once accepted (R84 (a), R204). -/
def reservedRequest (opc : Byte) (s : State) : Host.Outcome State Fault Refusal :=
  onAccept false s (deliver (errorResponse (.invalidOp opc)))

end Sys2Proof.Machine
end

