-- ==== Sys2Proof/Machine/Operands.lean ====
section
/-! DEFINITION. Operand forms: the reductions and checks that rule R83 of spec/30_encoding.md applies to operands. -/

namespace Sys2Proof.Machine

/-- `v & 0x1F`: the 5-bit field of an MDIO operand, masked and never refused (R78, R83). -/
def field5 (v : Byte) : BitVec 5 := v.setWidth 5

/-- `port < cfg.PORTS` (R83). -/
def portOk (c : Cfg) (port : Byte) : Bool := decide (port.toNat < c.ports.toNat)

/-- `ports in {1, 2}` (R83, R100). -/
def portsOk (ports : Byte) : Bool := decide (ports = 1 ∨ ports = 2)

/-- The initial CRC register value: `CRC_INIT` where the optional operand is absent (R83). -/
def initOr (p : Params) (init : Option Byte) : Byte := init.getD p.crcInit

/-- An argument check: `InvalidArg(r)` unless it holds. -/
def require (holds : Bool) (r : ArgReason) (rest : Prog) : Prog :=
  if holds then rest else .raise (.invalidArg r)

/-- A required argument: `InvalidArg(NULL)` where it is absent (R51, R83). -/
def needArg {α : Type} (a : Option α) (rest : α → Prog) : Prog :=
  match a with
  | some v => rest v
  | none => .raise (.invalidArg .null)

end Sys2Proof.Machine
end

