-- ==== Sys2Proof/Machine/Control.lean ====
section
/-! DEFINITION. The control operations INIT and DEINIT (spec/40_control.md R100, R101). -/

namespace Sys2Proof.Machine

/-- The configured state INIT leaves (R100, R32): the registers and the table written, the buffers without a value. -/
def configure (poly : Byte) (crcEn : Bool) (ports : Byte) (s : State) : State :=
  { s with
    cfg := some { poly := poly, crcEn := crcEn, ports := ports.setWidth 2 }
    crcTable := some (crc8Table poly)
    txbuf := []
    rxbuf := [] }

/-- The body of INIT (R100): the variant check before any state is written; on it `life` returns to UNINIT. -/
def initBody (poly : Byte) (crcEn : Bool) (ports : Byte) (s : State) : State :=
  if portsOk ports then finish (okResponse .empty) (configure poly crcEn ports s)
  else deliver (errorResponse (.invalidArg .variant)) s

/-- INIT (R100). -/
def execInit (poly : Byte) (crcEn : Bool) (ports : Byte) (s : State) : Host.Outcome State Fault Refusal :=
  onAccept true s (initBody poly crcEn ports)

/-- The state DEINIT leaves: everything dropped returns to "no value", and the history is kept (R101, R32). -/
def release (s : State) : State :=
  { s with life := .uninit, cfg := none, crcTable := none, txbuf := [], rxbuf := [] }

/-- DEINIT (R101). -/
def execDeinit (s : State) : Host.Outcome State Fault Refusal :=
  onAccept false s fun s => deliver (okResponse .empty) (release s)

end Sys2Proof.Machine
end

