-- ==== Sys2Proof/Machine/CrcUnit.lean ====
section
/-! DEFINITION. The CRC-8 unit: CRC8 and CRCCHK (spec/41_crc8.md R112 to R114). Both issue no bus transaction and bound no
length. -/

namespace Sys2Proof.Machine

/-- CRC8's pseudocode (R113). -/
def crc8Prog (data : Option Bytes) (init : Option Byte) (x : Ctx) : Prog :=
  needArg data fun data =>
  .ret (.crc (crc8 x.table data (initOr x.p init)))

/-- CRC8 (R113). -/
def execCrc8 (data : Option Bytes) (init : Option Byte) (s : State) : Host.Outcome State Fault Refusal :=
  request (.crc8 data init) (crc8Prog data init) s

/-- CRCCHK's pseudocode: a mismatch is a result, not an error (R114). -/
def crcchkProg (data : Option Bytes) (expected : Byte) (init : Option Byte) (x : Ctx) : Prog :=
  needArg data fun data =>
  let c := crc8 x.table data (initOr x.p init)
  .ret (.crcCheck (decide (c = expected)) c)

/-- CRCCHK (R114). -/
def execCrcchk (data : Option Bytes) (expected : Byte) (init : Option Byte) (s : State) :
    Host.Outcome State Fault Refusal :=
  request (.crcchk data expected init) (crcchkProg data expected init) s

end Sys2Proof.Machine
end

