-- ==== Sys2Proof/Machine/Fifo.lean ====
section
/-! DEFINITION. The Ethernet frame FIFO encoder and decoder: FIFOTX and FIFORX (spec/44_fifo.md R163, R164, R166). -/

namespace Sys2Proof.Machine

/-- FIFOTX's transactions T1 to T6, once its arguments are checked (R163). The frame length is stored in a 32-bit register
(R8; DEDUCED, notes/assumptions/19.md). -/
def fifotxSend (port : Nat) (dest src ethertype payload : Bytes) (x : Ctx) : Prog :=
  let fl := frameLength x payload.length
  regrdSeq x x.p.txSpaceAddr fun space =>
  if noSpace fl space.toNat then .raise (.wouldBlock .noSpace) else
  regwrSeq x (portAddr x.p.txFsizeAddr port) (BitVec.ofNat 32 fl) <|
  .xfer (txframe x port dest src ethertype payload) fun _ =>
  regrdSeq x x.p.statusAddr fun st =>
  if st.getLsbD x.p.fifoErrBit then
    regwrSeq x x.p.flush0.addr x.p.flush0.value <|
    regwrSeq x x.p.flush1.addr x.p.flush1.value <|
    .raise (.wouldBlock .fifoErr)
  else .ret .empty

/-- `len(dest) = len(src) = MAC_LEN` and `len(ethertype) = ETHERTYPE_LEN` (R163). -/
def macLengthsOk (p : Params) (dest src ethertype : Bytes) : Bool :=
  dest.length == p.macLen && src.length == p.macLen && ethertype.length == p.ethertypeLen

/-- The transmit transfer of a payload of `l` bytes fits the scratch buffer (R163: `CMD_HDR_BYTES + al <= BUF_LEN`). -/
def txFits (x : Ctx) (l : Nat) : Bool :=
  decide (x.p.cmdHdrBytes + alignUp (frameLength x l) x.p.fifoAlign ≤ x.p.bufLen)

/-- FIFOTX's pseudocode: the checks in order, all before the first transaction (R163, R204). -/
def fifotxProg (port : Byte) (dest src ethertype payload : Option Bytes) (x : Ctx) : Prog :=
  require (portOk x.cfg port) .port <|
  needArg dest fun dest =>
  needArg src fun src =>
  needArg ethertype fun ethertype =>
  needArg payload fun payload =>
  require (macLengthsOk x.p dest src ethertype) .len <|
  require (txFits x payload.length) .tooLong <|
  fifotxSend port.toNat dest src ethertype payload x

/-- FIFOTX (R163). -/
def execFifotx (port : Byte) (dest src ethertype payload : Option Bytes) (s : State) :
    Host.Outcome State Fault Refusal :=
  request (.fifotx port dest src ethertype payload) (fifotxProg port dest src ethertype payload) s

/-- The receive transfer of a frame of `fs` bytes fits the scratch buffer (R164: `CMD_HDR_BYTES + 1 + ral <= BUF_LEN`). -/
def rxFits (x : Ctx) (fs : Nat) : Bool :=
  decide (x.p.cmdHdrBytes + 1 + alignUp fs x.p.fifoAlign ≤ x.p.bufLen)

/-- FIFORX once the frame size `fs` is read: its tests in the rule's order, then transaction T2 (R164). -/
def fiforxTake (port : Nat) (cap fs : W32) (x : Ctx) : Prog :=
  let h := headerLen x
  if fs.toNat < h + x.p.fcsLen then .ret .noFrame
  else if fs.toNat < h + x.p.ethHdrLen then .fault (.fRxShort fs)
  else
    require (rxFits x fs.toNat) .tooLong <|
    require (decide (fs.toNat - h - x.p.ethHdrLen ≤ cap.toNat)) .capacity <|
    .xfer (rxcmd x.p port fs.toNat) fun rx =>
    .ret (decodeFrame x fs.toNat (rxData x.p fs.toNat rx))

/-- FIFORX's pseudocode (R164). -/
def fiforxProg (port : Byte) (cap : Option W32) (x : Ctx) : Prog :=
  require (portOk x.cfg port) .port <|
  needArg cap fun cap =>
  regrdSeq x (portAddr x.p.rxFsizeAddr port.toNat) fun fs =>
  fiforxTake port.toNat cap fs x

/-- FIFORX (R164). -/
def execFiforx (port : Byte) (cap : Option W32) (s : State) : Host.Outcome State Fault Refusal :=
  request (.fiforx port cap) (fiforxProg port cap) s

end Sys2Proof.Machine
end

