-- ==== Sys2Proof/Machine/Mdio.lean ====
section
/-! DEFINITION. The MDIO indirect-register engine: C22RD, C22WR, C45RD, C45WR (spec/43_mdio.md R140 to R144). -/

namespace Sys2Proof.Machine

/-- The completion polls of one MDIO phase (R140): at most `n` reads of the slot, `Timeout(slot)` where none shows done;
`rest` goes on with the word that showed it. -/
def mdioPoll (x : Ctx) (slot : Fin 2) (rest : W32 → Prog) : Nat → Prog
  | 0 => .raise (.timeout slot)
  | n + 1 =>
    regrdSeq x (portAddr x.p.mdioAcc slot.val) fun w =>
    if mdioDone x.p.mdioLayout w then rest w else mdioPoll x slot rest n

/-- `mdio_phase(slot, cw)`, then `rest` with its result: one write of the slot, then 1 to `MDIO_MAX_POLLS` polls of the
same slot (R140). -/
def mdioPhase (x : Ctx) (slot : Fin 2) (cw : W32) (rest : W32 → Prog) : Prog :=
  regwrSeq x (portAddr x.p.mdioAcc slot.val) cw <|
  mdioPoll x slot rest x.p.mdioMaxPolls

/-- The control word of a code with masked operands (R77, R78, R83). -/
def cwOf (x : Ctx) (c : MdioCode) (prtad dv : Byte) (data : W16) : W32 :=
  mdioCw x.p.mdioLayout c (field5 prtad) (field5 dv) data

/-- C22RD's pseudocode (R141). -/
def c22rdProg (prtad regad : Byte) (x : Ctx) : Prog :=
  mdioPhase x 0 (cwOf x .c22Read prtad regad 0) fun w =>
  .ret (.data (mdioData x.p.mdioLayout w))

/-- C22RD (R141). -/
def execC22rd (prtad regad : Byte) (s : State) : Host.Outcome State Fault Refusal :=
  request (.c22rd prtad regad) (c22rdProg prtad regad) s

/-- C22WR's pseudocode (R142). -/
def c22wrProg (prtad regad : Byte) (data : W16) (x : Ctx) : Prog :=
  mdioPhase x 0 (cwOf x .c22Write prtad regad data) fun _ =>
  .ret .empty

/-- C22WR (R142). -/
def execC22wr (prtad regad : Byte) (data : W16) (s : State) : Host.Outcome State Fault Refusal :=
  request (.c22wr prtad regad data) (c22wrProg prtad regad data) s

/-- C45RD's pseudocode: address phase on slot 0, read phase on slot 1 (R143). -/
def c45rdProg (prtad devad : Byte) (regaddr : W16) (x : Ctx) : Prog :=
  mdioPhase x 0 (cwOf x .c45Addr prtad devad regaddr) fun _ =>
  mdioPhase x 1 (cwOf x .c45Read prtad devad 0) fun w =>
  .ret (.data (mdioData x.p.mdioLayout w))

/-- C45RD (R143). -/
def execC45rd (prtad devad : Byte) (regaddr : W16) (s : State) : Host.Outcome State Fault Refusal :=
  request (.c45rd prtad devad regaddr) (c45rdProg prtad devad regaddr) s

/-- C45WR's pseudocode: address phase on slot 0, write phase on slot 1 (R144). -/
def c45wrProg (prtad devad : Byte) (regaddr data : W16) (x : Ctx) : Prog :=
  mdioPhase x 0 (cwOf x .c45Addr prtad devad regaddr) fun _ =>
  mdioPhase x 1 (cwOf x .c45Write prtad devad data) fun _ =>
  .ret .empty

/-- C45WR (R144). -/
def execC45wr (prtad devad : Byte) (regaddr data : W16) (s : State) : Host.Outcome State Fault Refusal :=
  request (.c45wr prtad devad regaddr data) (c45wrProg prtad devad regaddr data) s

end Sys2Proof.Machine
end

