-- ==== Sys2Proof/Machine/RegBus.lean ====
section
/-! DEFINITION. The register/bus codec: REGWR, REGRD, REGUPD, WFDEC (spec/42_regbus.md R120 to R123). -/

namespace Sys2Proof.Machine

/-- REGWR's pseudocode (R120). -/
def regwrProg (addr : W16) (value : W32) (x : Ctx) : Prog :=
  regwrSeq x addr.toNat value <|
  .ret .empty

/-- REGWR (R120). -/
def execRegwr (addr : W16) (value : W32) (s : State) : Host.Outcome State Fault Refusal :=
  request (.regwr addr value) (regwrProg addr value) s

/-- REGRD's pseudocode (R121). -/
def regrdProg (addr : W16) (x : Ctx) : Prog :=
  regrdSeq x addr.toNat fun value =>
  .ret (.value value)

/-- REGRD (R121). -/
def execRegrd (addr : W16) (s : State) : Host.Outcome State Fault Refusal :=
  request (.regrd addr) (regrdProg addr) s

/-- `new = (old & ~mask) | (value & mask)` (R122). -/
def merge (old mask value : W32) : W32 := (old &&& ~~~mask) ||| (value &&& mask)

/-- REGUPD's pseudocode: the write is issued whatever the read gave (R122). -/
def regupdProg (addr : W16) (mask value : W32) (x : Ctx) : Prog :=
  regrdSeq x addr.toNat fun old =>
  regwrSeq x addr.toNat (merge old mask value) <|
  .ret .empty

/-- REGUPD (R122). -/
def execRegupd (addr : W16) (mask value : W32) (s : State) : Host.Outcome State Fault Refusal :=
  request (.regupd addr mask value) (regupdProg addr mask value) s

/-- The length of a register write frame (R85, R123). -/
def wframeLen (x : Ctx) : Nat := x.p.cmdHdrBytes + x.p.regBytes + x.cfg.crcEn.toNat

/-- The fields of a write frame of the right length; no such frame is refused (R84 (d), R123). -/
def decodeWriteFrame (x : Ctx) (frame : Bytes) : Results :=
  let h := fromBe (frame.take x.p.cmdHdrBytes)
  let cd := h.testBit x.p.cdBit
  let rw := h.testBit x.p.rwBit
  let value := BitVec.ofNat 32 (fromBe (slice frame x.p.cmdHdrBytes (x.p.cmdHdrBytes + x.p.regBytes)))
  let crcOk := frame.drop (x.p.cmdHdrBytes + x.p.regBytes) = crcSuffix x (frame.take (x.p.cmdHdrBytes + x.p.regBytes))
  .writeFrame (hdrAddr x.p h) value cd rw (hdrReserved x.p h) (cd == x.p.cdVal && rw == x.p.rwWrite) (decide crcOk)

/-- WFDEC's pseudocode (R123). -/
def wfdecProg (frame : Option Bytes) (x : Ctx) : Prog :=
  needArg frame fun frame =>
  require (frame.length == wframeLen x) .len <|
  .ret (decodeWriteFrame x frame)

/-- WFDEC (R123). -/
def execWfdec (frame : Option Bytes) (s : State) : Host.Outcome State Fault Refusal :=
  request (.wfdec frame) (wfdecProg frame) s

end Sys2Proof.Machine
end

