-- ==== Sys2Proof/Machine/Wire.lean ====
section
/-! DEFINITION. The bus words of spec/opcode_table.json as instructions: what the block does on the bus with each of them.

DESIGN CHOICE (notes/assumptions/3.md): the spec gives a host no operation code for them; it gives each the step of the
sequencer that emits it. A control word is one MDIO transaction, `mdio_phase(slot, cw)` of R140, on the slot that R141 to
R144 give its code; a command header is one register transaction, `REGWR-seq` or `REGRD-seq` of R120 and R121. A request
for one is accepted as any other operation's. Its TRDONE and reserved bits are sent 0 whatever the word says (DEDUCED,
notes/assumptions/16.md), and its DATA field as the word gives it, in the two read words too (DESIGN CHOICE,
notes/assumptions/23.md). -/

namespace Sys2Proof.Machine

/-- The MDIO transaction of a control word on its slot (R140), TRDONE and the reserved bit sent 0 (R78, R84 (b)). -/
def controlPhase (slot : Fin 2) (c : MdioCode) (prtad devad : BitVec 5) (data : W16) (rest : W32 → Prog) (x : Ctx) :
    Prog :=
  mdioPhase x slot (mdioCw x.p.mdioLayout c prtad devad data) rest

/-- MDIO_C22_READ: the phase of C22RD on slot 0, with the data of the final poll (R141). `data` is sent as the word gives it,
where C22RD sends 0 (DESIGN CHOICE, notes/assumptions/23.md). -/
def mdioC22ReadProg (prtad devad : BitVec 5) (data : W16) (x : Ctx) : Prog :=
  controlPhase 0 .c22Read prtad devad data (fun w => .ret (.data (mdioData x.p.mdioLayout w))) x

/-- MDIO_C22_READ as an instruction. -/
def execMdioC22Read (trdone rsvd : Bool) (prtad devad : BitVec 5) (data : W16) (s : State) :
    Host.Outcome State Fault Refusal :=
  request (.mdioC22Read trdone rsvd prtad devad data) (mdioC22ReadProg prtad devad data) s

/-- MDIO_C22_WRITE: the phase of C22WR on slot 0 (R142). -/
def mdioC22WriteProg (prtad devad : BitVec 5) (data : W16) (x : Ctx) : Prog :=
  controlPhase 0 .c22Write prtad devad data (fun _ => .ret .empty) x

/-- MDIO_C22_WRITE as an instruction. -/
def execMdioC22Write (trdone rsvd : Bool) (prtad devad : BitVec 5) (data : W16) (s : State) :
    Host.Outcome State Fault Refusal :=
  request (.mdioC22Write trdone rsvd prtad devad data) (mdioC22WriteProg prtad devad data) s

/-- MDIO_C45_ADDR: the address-set phase of C45RD and C45WR on slot 0 (R143, R144). -/
def mdioC45AddrProg (prtad devad : BitVec 5) (data : W16) (x : Ctx) : Prog :=
  controlPhase 0 .c45Addr prtad devad data (fun _ => .ret .empty) x

/-- MDIO_C45_ADDR as an instruction. -/
def execMdioC45Addr (trdone rsvd : Bool) (prtad devad : BitVec 5) (data : W16) (s : State) :
    Host.Outcome State Fault Refusal :=
  request (.mdioC45Addr trdone rsvd prtad devad data) (mdioC45AddrProg prtad devad data) s

/-- MDIO_C45_WRITE: the write phase of C45WR on slot 1 (R144). -/
def mdioC45WriteProg (prtad devad : BitVec 5) (data : W16) (x : Ctx) : Prog :=
  controlPhase 1 .c45Write prtad devad data (fun _ => .ret .empty) x

/-- MDIO_C45_WRITE as an instruction. -/
def execMdioC45Write (trdone rsvd : Bool) (prtad devad : BitVec 5) (data : W16) (s : State) :
    Host.Outcome State Fault Refusal :=
  request (.mdioC45Write trdone rsvd prtad devad data) (mdioC45WriteProg prtad devad data) s

/-- MDIO_C45_READ: the read phase of C45RD on slot 1, with the data of the final poll (R143). `data` is sent as the word gives
it, where C45RD sends 0 (DESIGN CHOICE, notes/assumptions/23.md). -/
def mdioC45ReadProg (prtad devad : BitVec 5) (data : W16) (x : Ctx) : Prog :=
  controlPhase 1 .c45Read prtad devad data (fun w => .ret (.data (mdioData x.p.mdioLayout w))) x

/-- MDIO_C45_READ as an instruction. -/
def execMdioC45Read (trdone rsvd : Bool) (prtad devad : BitVec 5) (data : W16) (s : State) :
    Host.Outcome State Fault Refusal :=
  request (.mdioC45Read trdone rsvd prtad devad data) (mdioC45ReadProg prtad devad data) s

/-- BUS_WRITE_HDR: one register write frame (R72, R120). -/
def busWriteHdrProg (addr : Nat) (value : W32) (x : Ctx) : Prog :=
  regwrSeq x addr value <|
  .ret .empty

/-- BUS_WRITE_HDR as an instruction. -/
def execBusWriteHdr (addr : Nat) (value : W32) (s : State) : Host.Outcome State Fault Refusal :=
  request (.busWriteHdr addr value) (busWriteHdrProg addr value) s

/-- BUS_READ_HDR: one register read frame, with the value read (R73, R121). -/
def busReadHdrProg (addr : Nat) (x : Ctx) : Prog :=
  regrdSeq x addr fun value =>
  .ret (.value value)

/-- BUS_READ_HDR as an instruction. -/
def execBusReadHdr (addr : Nat) (s : State) : Host.Outcome State Fault Refusal :=
  request (.busReadHdr addr) (busReadHdrProg addr) s

end Sys2Proof.Machine
end

