-- ==== Sys2Proof/Machine/Dispatch.lean ====
section
/-! DEFINITION. One arm per instruction. -/

namespace Sys2Proof.Machine

def exec (i : Instr) (s : State) : Host.Outcome State Fault Refusal :=
  match i with
  | .init poly crcEn ports => Sys2Proof.Machine.execInit poly crcEn ports s
  | .deinit => Sys2Proof.Machine.execDeinit s
  | .crc8 data init => Sys2Proof.Machine.execCrc8 data init s
  | .crcchk data expected init => Sys2Proof.Machine.execCrcchk data expected init s
  | .regwr addr value => Sys2Proof.Machine.execRegwr addr value s
  | .regrd addr => Sys2Proof.Machine.execRegrd addr s
  | .regupd addr mask value => Sys2Proof.Machine.execRegupd addr mask value s
  | .wfdec frame => Sys2Proof.Machine.execWfdec frame s
  | .c22rd prtad regad => Sys2Proof.Machine.execC22rd prtad regad s
  | .c22wr prtad regad data => Sys2Proof.Machine.execC22wr prtad regad data s
  | .c45rd prtad devad regaddr => Sys2Proof.Machine.execC45rd prtad devad regaddr s
  | .c45wr prtad devad regaddr data => Sys2Proof.Machine.execC45wr prtad devad regaddr data s
  | .fifotx port dest src ethertype payload => Sys2Proof.Machine.execFifotx port dest src ethertype payload s
  | .fiforx port cap => Sys2Proof.Machine.execFiforx port cap s
  | .mdioC22Read trdone rsvd prtad devad data => Sys2Proof.Machine.execMdioC22Read trdone rsvd prtad devad data s
  | .mdioC22Write trdone rsvd prtad devad data => Sys2Proof.Machine.execMdioC22Write trdone rsvd prtad devad data s
  | .mdioC45Addr trdone rsvd prtad devad data => Sys2Proof.Machine.execMdioC45Addr trdone rsvd prtad devad data s
  | .mdioC45Write trdone rsvd prtad devad data => Sys2Proof.Machine.execMdioC45Write trdone rsvd prtad devad data s
  | .mdioC45Read trdone rsvd prtad devad data => Sys2Proof.Machine.execMdioC45Read trdone rsvd prtad devad data s
  | .busWriteHdr addr value => Sys2Proof.Machine.execBusWriteHdr addr value s
  | .busReadHdr addr => Sys2Proof.Machine.execBusReadHdr addr s

end Sys2Proof.Machine
end

