-- ==== Sys2Proof/Machine/Sequencer.lean ====
section
/-! DEFINITION. What a step does with the next event: it takes up a request, or it goes on with the operation in progress
(spec/10_state.md R21, R27; spec/70_reset_and_hazards.md R231). -/

namespace Sys2Proof.Machine

/-- The pseudocode of an operation that can be in progress. INIT and DEINIT complete in one step (R21). -/
def progOf (op : Instr) (x : Ctx) : Prog :=
  match op with
  | .init _ _ _ => .ret .empty
  | .deinit => .ret .empty
  | .crc8 data init => crc8Prog data init x
  | .crcchk data expected init => crcchkProg data expected init x
  | .regwr addr value => regwrProg addr value x
  | .regrd addr => regrdProg addr x
  | .regupd addr mask value => regupdProg addr mask value x
  | .wfdec frame => wfdecProg frame x
  | .c22rd prtad regad => c22rdProg prtad regad x
  | .c22wr prtad regad data => c22wrProg prtad regad data x
  | .c45rd prtad devad regaddr => c45rdProg prtad devad regaddr x
  | .c45wr prtad devad regaddr data => c45wrProg prtad devad regaddr data x
  | .fifotx port dest src ethertype payload => fifotxProg port dest src ethertype payload x
  | .fiforx port cap => fiforxProg port cap x
  | .mdioC22Read _ _ prtad devad data => mdioC22ReadProg prtad devad data x
  | .mdioC22Write _ _ prtad devad data => mdioC22WriteProg prtad devad data x
  | .mdioC45Addr _ _ prtad devad data => mdioC45AddrProg prtad devad data x
  | .mdioC45Write _ _ prtad devad data => mdioC45WriteProg prtad devad data x
  | .mdioC45Read _ _ prtad devad data => mdioC45ReadProg prtad devad data x
  | .busWriteHdr addr value => busWriteHdrProg addr value x
  | .busReadHdr addr => busReadHdrProg addr x

/-- What the rest of the operation in progress still has to do (R21: a function of `op`, `phase` and `locals`). -/
def remaining (op : Instr) (locals : Locals) (x : Ctx) : Prog := progAfter (progOf op x) locals.received

/-- The operation in progress goes on over the given events. -/
def resume (op : Instr) (locals : Locals) (es : List Event) (s : State) : State :=
  match ctxOf s with
  | some x => run (remaining op locals x) es s
  | none => enterFault .fUninit s

/-- A request is taken up: the instruction it decodes to is run. While an operation is in progress any request faults,
whatever it says (R201, R231); in the fault state it has no step (R210); a reserved operation code is answered (R84 (a));
bytes that are no request are refused (DESIGN CHOICE, notes/assumptions/12.md). -/
def takeRequest (r : Request) (s : State) : Host.Outcome State Fault Refusal :=
  match s.life with
  | .fault n => .fault (.sticky n)
  | .busy _ _ _ => .next (enterFault .fReentrant s)
  | .uninit | .idle =>
    match decodeRequest s.params r with
    | .ok i => exec i s
    | .error (.reservedOpcode opc) => reservedRequest opc s
    | .error why => .refused (.malformedRequest why)

/-- No request is next: an operation in progress goes on with the script's answers, or with the oracle's free draw where
the script has none (R5); otherwise the block waits for a request, and an answer to no transaction has no effect (DESIGN
CHOICE, notes/assumptions/13.md). -/
def takeNoRequest (s : State) : Host.Outcome State Fault Refusal :=
  match s.life with
  | .fault n => .fault (.sticky n)
  | .busy op _ locals =>
    match s.events with
    | [] => .next (resume op locals [.answer (freeAnswer s.history.length)] s)
    | es => .next (resume op locals es s)
  | .uninit | .idle => .next { s with events := s.events.drop 1 }

/-- The environment's next event is taken up (R5, R27). -/
def takeEvent (s : State) : Host.Outcome State Fault Refusal :=
  match s.events with
  | .request r :: es => takeRequest r { s with events := es }
  | _ => takeNoRequest s

end Sys2Proof.Machine
end

