-- ==== Sys2Proof/Machine/Step.lean ====
section
/-! DEFINITION. One step of the block, and the placing of an instruction's word where a step takes it up. -/

namespace Sys2Proof.Machine

/-- One step: the environment's next event is taken up, by a block whose parameters R7 allows. -/
def step (s : State) : Host.Outcome State Fault Refusal :=
  if s.params.wf then takeEvent s else .refused .illFormedParameters

/-- `s` with an instruction's word as the request that the next step takes up (notes/assumptions/2.md). -/
def State.withFetchWord (s : State) (nbits w : Nat) : State :=
  { s with events := .request (tableRequest s.params nbits w) :: s.events }

end Sys2Proof.Machine
end

