-- ==== Sys2Proof/Safety.lean ====
section
/-! DEFINITION. The terms the statements are made in: the invariants of the block (spec/10_state.md R21 to R24, R30, R32;
spec/60_exceptions.md R200, R202), the state an operation that ran to its end leaves, and the transaction counts of
spec/70_reset_and_hazards.md R239. Nothing here is used by the machine. -/

namespace Sys2Proof.Machine

/-! ## States and next states -/

/-- The block is configured and idle, and `x` is what its rules read (R21, R22). -/
def Ready (s : State) (x : Ctx) : Prop := s.life = .idle ∧ ctxOf s = some x

/-- A buffer after strings were staged in it, the first one first (R24). -/
def stageAll (ss : List Bytes) (buf : Bytes) : Bytes := ss.foldl (fun b s => stage s b) buf

/-- The receive buffer after the transactions `ts`, the first of which was number `k` (R24). -/
def stageAnswers : Nat → List Transaction → Bytes → Bytes
  | _, [], buf => buf
  | k, t :: ts, buf => stageAnswers (k + 1) ts (stageAnswer k t.tx.length t.answer buf)

/-- The state after an operation that issued the transactions `ts`, delivered `r` and left the events `es`: the block is
idle, the buffers hold what the transactions staged, the history and the responses are longer, and nothing else changed. -/
def ended (r : Response) (es : List Event) (ts : List Transaction) (s : State) : State :=
  { s with
    life := .idle
    txbuf := stageAll (ts.map Transaction.tx) s.txbuf
    rxbuf := stageAnswers s.history.length ts s.rxbuf
    history := s.history ++ ts
    responses := s.responses ++ [r]
    events := es }

/-- The state after an operation whose transactions `ts` were answered and which then faulted (R210). -/
def faulted (n : FaultName) (es : List Event) (ts : List Transaction) (s : State) : State :=
  { s with
    life := .fault n
    txbuf := stageAll (ts.map Transaction.tx) s.txbuf
    rxbuf := stageAnswers s.history.length ts s.rxbuf
    history := s.history ++ ts
    events := es }

/-- The event that answers a transaction with a string. -/
def answered (rx : Bytes) : Event := .answer (.ok rx)

/-- A transaction that was answered with a string. -/
def exchanged (tx rx : Bytes) : Transaction := ⟨tx, .ok rx⟩

/-- A string the oracle may return for `tx`: one of the same length (R5). -/
def Fits (rx tx : Bytes) : Prop := rx.length = tx.length

/-- The control word a poll's string shows (R73, R79). -/
def polled (x : Ctx) (rx : Bytes) : W32 := rdecode x.p rx

/-- The string of a poll that shows `TRDONE = 0` (R79). -/
def NotDone (x : Ctx) (slot : Fin 2) (rx : Bytes) : Prop :=
  Fits rx (rframe x.p (portAddr x.p.mdioAcc slot.val)) ∧ mdioDone x.p.mdioLayout (polled x rx) = false

/-- The string of a poll that shows `TRDONE = 1` (R79). -/
def Done (x : Ctx) (slot : Fin 2) (rx : Bytes) : Prop :=
  Fits rx (rframe x.p (portAddr x.p.mdioAcc slot.val)) ∧ mdioDone x.p.mdioLayout (polled x rx) = true

/-- The transactions of an MDIO phase whose write was answered `rxw` and whose polls were answered `rxs` (R140). -/
def phaseTransactions (x : Ctx) (slot : Fin 2) (cw : W32) (rxw : Bytes) (rxs : List Bytes) : List Transaction :=
  exchanged (wframe x (portAddr x.p.mdioAcc slot.val) cw) rxw
    :: rxs.map (exchanged (rframe x.p (portAddr x.p.mdioAcc slot.val)))

/-- An MDIO phase on `slot` with control word `cw` runs to completion (R140): the events that answer it, the transactions
it makes, and the word its last poll shows. Fewer than `MDIO_MAX_POLLS` polls that do not show done come first. -/
inductive PhaseRuns (x : Ctx) (slot : Fin 2) (cw : W32) : List Event → List Transaction → W32 → Prop where
  | completes (rxw : Bytes) (polls : List Bytes) (last : Bytes)
      (hw : Fits rxw (wframe x (portAddr x.p.mdioAcc slot.val) cw))
      (hn : polls.length < x.p.mdioMaxPolls)
      (hp : ∀ rx ∈ polls, NotDone x slot rx)
      (hl : Done x slot last) :
      PhaseRuns x slot cw (answered rxw :: (polls ++ [last]).map answered)
        (phaseTransactions x slot cw rxw (polls ++ [last])) (polled x last)

/-- An MDIO phase ends its operation (R140): the events that answer it, the transactions it makes, and the status. -/
inductive PhaseFails (x : Ctx) (slot : Fin 2) (cw : W32) : List Event → List Transaction → Status → Prop where
  /-- The write is answered with a bus error. -/
  | writeError (e : Nat) :
      PhaseFails x slot cw [.answer (.err e)] [⟨wframe x (portAddr x.p.mdioAcc slot.val) cw, .err e⟩] (.busError e)
  /-- A poll is answered with a bus error. -/
  | pollError (rxw : Bytes) (polls : List Bytes) (e : Nat)
      (hw : Fits rxw (wframe x (portAddr x.p.mdioAcc slot.val) cw))
      (hn : polls.length < x.p.mdioMaxPolls)
      (hp : ∀ rx ∈ polls, NotDone x slot rx) :
      PhaseFails x slot cw (answered rxw :: polls.map answered ++ [.answer (.err e)])
        (phaseTransactions x slot cw rxw polls ++ [⟨rframe x.p (portAddr x.p.mdioAcc slot.val), .err e⟩]) (.busError e)
  /-- No poll of the allowed number shows done. -/
  | timesOut (rxw : Bytes) (polls : List Bytes)
      (hw : Fits rxw (wframe x (portAddr x.p.mdioAcc slot.val) cw))
      (hn : polls.length = x.p.mdioMaxPolls)
      (hp : ∀ rx ∈ polls, NotDone x slot rx) :
      PhaseFails x slot cw (answered rxw :: polls.map answered) (phaseTransactions x slot cw rxw polls) (.timeout slot)

/-! ## Invariants -/

/-- The configuration has a value: legal ports, and the table of the polynomial (R22, R23). -/
def Configured (s : State) : Prop :=
  ∃ c, s.cfg = some c ∧ s.crcTable = some (crc8Table c.poly) ∧ (c.ports = 1 ∨ c.ports = 2)

/-- Configuration, table and buffers have no value (R32: after reset, after DEINIT). -/
def Unconfigured (s : State) : Prop :=
  s.cfg = none ∧ s.crcTable = none ∧ s.txbuf = [] ∧ s.rxbuf = []

/-- R32, by the sequencer's state: nothing has a value while UNINIT, all of the configuration has one while IDLE or
BUSY, and a fault leaves either as it was; what is in progress is an operation that can be (R21). -/
def ConfigInv (s : State) : Prop :=
  match s.life with
  | .uninit => Unconfigured s
  | .idle => Configured s
  | .busy op _ _ => Configured s ∧ op.isInit = false ∧ op ≠ .deinit
  | .fault _ => Unconfigured s ∨ Configured s

/-- R24: neither buffer holds more than `BUF_LEN` bytes and no transaction was longer; R5: every string received is as
long as the string sent. -/
def BufferInv (s : State) : Prop :=
  s.txbuf.length ≤ s.params.bufLen ∧ s.rxbuf.length ≤ s.params.bufLen
    ∧ ∀ t ∈ s.history, t.tx.length ≤ s.params.bufLen ∧ ∀ rx, t.answer = .ok rx → rx.length = t.tx.length

/-- The transactions a pseudocode issues when its transactions receive these strings. -/
def transcript : Prog → List Bytes → List Transaction
  | .xfer tx rest, rx :: received => ⟨tx, .ok rx⟩ :: transcript (rest rx) received
  | _, _ => []

/-- The pseudocode is before a bus transaction. -/
def Awaiting (pr : Prog) : Prop := ∃ tx rest, pr = .xfer tx rest

/-- R21 for an operation in progress: `phase` counts its transactions, they end the history, each was answered with the
string that the locals hold, and a transaction is next. -/
def SequencerInv (s : State) : Prop :=
  ∀ op phase locals, s.life = .busy op phase locals →
    ∃ x before, ctxOf s = some x
      ∧ s.history = before ++ transcript (progOf op x) locals.received
      ∧ (transcript (progOf op x) locals.received).length = phase
      ∧ locals.received.length = phase
      ∧ Awaiting (remaining op locals x)

/-- R200, R202: a response's status is one that the block raises, and only status OK carries results. -/
def ResponseInv (s : State) : Prop :=
  ∀ r ∈ s.responses, r.status.toNat ≤ 5 ∧ (r.results.isSome ↔ r.status = 0)

/-! ## Operation codes (R70) -/

/-- The operation codes of R70's map; every other value is reserved (R84). -/
def hostOpcodes : List Byte :=
  [0x01, 0x02, 0x10, 0x11, 0x20, 0x21, 0x22, 0x23, 0x30, 0x31, 0x32, 0x33, 0x40, 0x41]

/-! ## Transaction counts (R239) -/

/-- The least and the most bus transactions of an operation that ran to its end (R239); a bus word as an instruction
counts as the sequence it is (R120, R121, R140). -/
def transactionRange (p : Params) : Instr → Nat × Nat
  | .init _ _ _ | .deinit | .crc8 _ _ | .crcchk _ _ _ | .wfdec _ => (0, 0)
  | .regwr _ _ | .regrd _ | .busWriteHdr _ _ | .busReadHdr _ => (1, 1)
  | .regupd _ _ _ => (1, 2)
  | .c22rd _ _ | .c22wr _ _ _ => (1, 1 + p.mdioMaxPolls)
  | .c45rd _ _ _ | .c45wr _ _ _ _ => (1, 2 * (1 + p.mdioMaxPolls))
  | .fifotx _ _ _ _ _ => (0, 6)
  | .fiforx _ _ => (0, 2)
  | .mdioC22Read _ _ _ _ _ | .mdioC22Write _ _ _ _ _ | .mdioC45Addr _ _ _ _ _ => (1, 1 + p.mdioMaxPolls)
  | .mdioC45Write _ _ _ _ _ | .mdioC45Read _ _ _ _ _ => (1, 1 + p.mdioMaxPolls)

/-! ## R110's other construction of the CRC-8 table -/

/-- One round of R110's doubling construction on the first `k` entries: `t` doubled, then `T[k + j] = T[j] ^ t`. -/
def doublingRound (poly : Byte) (st : List Byte × Byte) : List Byte × Byte :=
  let t := (st.2 <<< 1) ^^^ (if st.2.getLsbD 7 then poly else 0)
  (st.1 ++ st.1.map (· ^^^ t), t)

/-- R110's doubling construction: `T[0] = 0`, `t = 0x80`, and a round for each of `k = 1, 2, 4, ..., 128`. -/
def doublingTable (poly : Byte) : List Byte := ((doublingRound poly)^[8] ([0], 0x80)).1

end Sys2Proof.Machine
end

