-- ==== Sys2Proof/Certificates/Slice0/Obligations.lean ====
section
/-! DEFINITION. The statements for the provers. The terms they are made in are those of Sys2Proof/Safety.lean; what only a
statement speaks of, the polynomials of rule R111, is defined first.

What every statement about a bus operation takes from the model and not from a rule (notes/assumptions/): the answers of the
oracle stand in `events` (4.md), one instruction goes on over all of them (5.md), the delivered responses are kept as a list
(15.md), and the bytes a transaction leaves in the scratch buffers, where the rules say nothing of them (8.md and 9.md).
Docstrings name further entries where a statement rests on more. -/

namespace Sys2Proof.Machine

/-! ## CRC-8 as a remainder over GF(2) (R110, R111) -/

/-- A byte as a polynomial over GF(2): bit `i` is the coefficient of `x^i`. -/
noncomputable def bytePoly (b : Byte) : Polynomial (ZMod 2) :=
  ((List.range 8).map fun i => if b.getLsbD i then Polynomial.X ^ i else 0).sum

/-- A byte string as a polynomial over GF(2), bit 7 of the first byte the highest coefficient. -/
noncomputable def bytesPoly (s : Bytes) : Polynomial (ZMod 2) :=
  s.foldl (fun acc b => acc * Polynomial.X ^ 8 + bytePoly b) 0

/-- The generator `x^8 + poly(x)` (R22, R110). -/
noncomputable def generator (poly : Byte) : Polynomial (ZMod 2) := Polynomial.X ^ 8 + bytePoly poly
/-- A byte string with bit `j` of byte `i` inverted. -/
def flipBit (s : Bytes) (i j : Nat) : Bytes := s.modify i (· ^^^ (1 <<< j))

end Sys2Proof.Machine

open Sys2Proof Sys2Proof.Machine

/-! ## Reset and the invariants -/

/-- R230, R32: after reset nothing has a value, the latch is clear and the history is empty, whatever the parameters. How "no
value" is held is the model's (notes/assumptions/8.md). -/
def Obligations.ResetLeavesEveryRegisterWithoutValue : Prop :=
  ∀ s : State, (s = State.reset ∨ ∃ p, s = State.resetWith p) →
    s.life = .uninit ∧ s.cfg = none ∧ s.crcTable = none ∧ s.txbuf = [] ∧ s.rxbuf = []
      ∧ faultLatch s = none ∧ s.history = []

/-- The four invariants hold right after reset, and the parameters there, test profile T by the model's choice
(notes/assumptions/1.md), are well-formed. -/
def Obligations.ResetMeetsTheInvariants : Prop :=
  ConfigInv State.reset ∧ BufferInv State.reset ∧ SequencerInv State.reset ∧ ResponseInv State.reset
    ∧ State.reset.params.wf

/-- R32, R22, R23: every step keeps the configuration's relation to the sequencer's state, and a configured block's
table that of its polynomial. -/
def Obligations.StepKeepsConfigurationInvariant : Prop :=
  ∀ s t : State, ConfigInv s → step s = .next t → ConfigInv t

/-- R24, R5: every step keeps the buffers and every transaction within `BUF_LEN`, and every
received string as long as the sent one. That a transaction is staged from index 0 is the model's reading
(notes/assumptions/8.md). -/
def Obligations.StepKeepsBufferBound : Prop :=
  ∀ s t : State, BufferInv s → step s = .next t → BufferInv t

/-- R21: every step keeps the count of transactions, the locals and the history of an operation in progress in step with
its pseudocode. Keeping the locals as the received strings is the model's reading (notes/assumptions/14.md). -/
def Obligations.StepKeepsSequencerPosition : Prop :=
  ∀ s t : State, SequencerInv s → step s = .next t → SequencerInv t

/-- R200, R202: no step delivers a status the block never raises, or results without status OK. -/
def Obligations.StepKeepsResponsesLegal : Prop :=
  ∀ s t : State, ResponseInv s → step s = .next t → ResponseInv t

/-- R30, R7: a step only adds to the history and to the responses, and never writes a parameter. That the state holds the
parameters and the responses is the model's choice (notes/assumptions/1.md and 15.md). -/
def Obligations.StepOnlyAppendsToHistory : Prop :=
  ∀ s t : State, step s = .next t → s.history <+: t.history ∧ s.responses <+: t.responses ∧ t.params = s.params

/-- R22, R23: an instruction other than INIT and DEINIT, and a step of an operation in progress, leave the configuration and
the CRC table as they were. -/
def Obligations.OnlyInitAndDeinitWriteConfiguration : Prop :=
  ∀ s t : State,
    ((∃ i : Instr, i.isInit = false ∧ i ≠ .deinit ∧ exec i s = .next t)
      ∨ ((∃ op n l, s.life = .busy op n l) ∧ step s = .next t)) →
    t.cfg = s.cfg ∧ t.crcTable = s.crcTable

/-! ## Requests, acceptance and faults -/

/-- A step whose next event is a request runs the instruction it decodes to, on the state without that event: the model's
choice of how an operation comes to run (notes/assumptions/2.md, 4.md, 6.md and 24.md). -/
def Obligations.StepRunsTheDecodedInstruction : Prop :=
  ∀ (s : State) (r : Request) (es : List Event) (i : Instr),
    s.params.wf → s.events = .request r :: es → decodeRequest s.params r = .ok i → step s = exec i { s with events := es }

/-- R210: each fault's cause enters it, with no response, and from then no step and no instruction has an effect. That entering
a fault is a next state is the model's reading (notes/assumptions/11.md). -/
def Obligations.FaultsAreEnteredAndSticky : Prop :=
  (∀ (i : Instr) (s : State), s.life = .uninit → i.isInit = false → exec i s = .next { s with life := .fault .fUninit })
  ∧ (∀ (poly ports : Byte) (crcEn : Bool) (s : State), s.life = .idle →
      exec (.init poly crcEn ports) s = .next { s with life := .fault .fReinit })
  ∧ (∀ (i : Instr) (s : State) (op : Instr) (n : Nat) (l : Locals), s.life = .busy op n l →
      exec i s = .next { s with life := .fault .fReentrant })
  ∧ (∀ (s : State) (x : Ctx) (port : Byte) (cap : W32) (rx : Bytes) (es : List Event),
      Ready s x → port.toNat < x.cfg.ports.toNat →
      Fits rx (rframe x.p (portAddr x.p.rxFsizeAddr port.toNat)) → s.events = answered rx :: es →
      headerLen x + x.p.fcsLen ≤ (rdecode x.p rx).toNat → (rdecode x.p rx).toNat < headerLen x + x.p.ethHdrLen →
      exec (.fiforx port (some cap)) s = .next (faulted (.fRxShort (rdecode x.p rx)) es
        [exchanged (rframe x.p (portAddr x.p.rxFsizeAddr port.toNat)) rx] s))
  ∧ (∀ (i : Instr) (s : State) (n : FaultName), s.life = .fault n →
      exec i s = .fault (.sticky n) ∧ (s.params.wf → step s = .fault (.sticky n)))

/-- R231: a request made while an operation is in progress enters `F_REENTRANT`, whatever it says, between two steps as
well as while an instruction waits for an answer. -/
def Obligations.ReentrantRequestFaults : Prop :=
  (∀ (s : State) (op : Instr) (n : Nat) (l : Locals) (r : Request) (es : List Event),
      s.params.wf → s.life = .busy op n l → s.events = .request r :: es →
      step s = .next { s with life := .fault .fReentrant, events := es })
  ∧ (∀ (s : State) (x : Ctx) (i : Instr) (r : Request) (es : List Event),
      Ready s x → i.isInit = false → i ≠ .deinit → Awaiting (progOf i x) → s.events = .request r :: es →
      exec i s = .next { s with life := .fault .fReentrant, events := es })

/-- R84 (a), R204: a reserved operation code is answered `InvalidOp(OPC)` with no other effect by an idle block; acceptance
is tested before the code is looked at. -/
def Obligations.ReservedOpcodeIsAnsweredInvalidOp : Prop :=
  ∀ (s : State) (opc : Byte) (rest : Bytes) (es : List Event),
    s.params.wf → opc ∉ hostOpcodes → s.events = .request ⟨.hostRequest, opc :: rest⟩ :: es →
    (s.life = .idle → step s = .next { s with
        events := es
        responses := s.responses ++ [{ status := 5, info := some opc.toNat, results := none }] })
    ∧ (s.life = .uninit → step s = .next { s with life := .fault .fUninit, events := es })

/-- R27: an accepted operation that needs the bus is in progress with no transaction issued and no locals, until its first
answer is there (the model's choice of what a step does: notes/assumptions/5.md). -/
def Obligations.AcceptedOperationIsInProgress : Prop :=
  ∀ (i : Instr) (s : State) (x : Ctx), Ready s x → i.isInit = false → i ≠ .deinit → Awaiting (progOf i x) →
    s.events = [] → exec i s = .next { s with life := .busy i 0 ⟨[]⟩ }

/-- R27: an instruction that ends, or a step in which the operation in progress ends, delivers exactly one response; one
after which it is still in progress, or faulted, delivers none. -/
def Obligations.OneResponsePerFinishedOperation : Prop :=
  ∀ s t : State, ((∃ i : Instr, exec i s = .next t) ∨ ((∃ op n l, s.life = .busy op n l) ∧ step s = .next t)) →
    (t.life = .idle ∨ t.life = .uninit → ∃ r, t.responses = s.responses ++ [r])
    ∧ ((∃ op n l, t.life = .busy op n l) ∨ (∃ n, t.life = .fault n) → t.responses = s.responses)

/-- R21: from one state of an operation in progress to the next, `phase` counts the transactions issued between them. -/
def Obligations.PhaseCountsTransactions : Prop :=
  ∀ (s t : State) (op op' : Instr) (n n' : Nat) (l l' : Locals),
    s.life = .busy op n l → step s = .next t → t.life = .busy op' n' l' →
    op' = op ∧ n + t.history.length = n' + s.history.length

/-- The model's choice of how much one step does (notes/assumptions/5.md) is not observable: an operation in progress that is
given its answers together ends where it ends when it is given them one at a time. -/
def Obligations.AnswersTogetherOrOneByOne : Prop :=
  ∀ (s : State) (op : Instr) (n : Nat) (l : Locals) (a : Answer) (es : List Event),
    s.params.wf → SequencerInv s → s.life = .busy op n l → s.events = .answer a :: es → es ≠ [] →
    ∃ u, step { s with events := [.answer a] } = .next u
      ∧ ((∃ n' l', u.life = .busy op n' l') → step s = step { u with events := es })
      ∧ ((¬ ∃ n' l', u.life = .busy op n' l') → step s = .next { u with events := es })

/-- R204 item 4, R203, R205: where an operation waits after receiving `pre`, a bus error as the next answer ends it at once
with `BusError(e)`: one more transaction, no other effect. -/
def Obligations.BusErrorEndsTheOperation : Prop :=
  ∀ (i : Instr) (s : State) (x : Ctx) (pre : List Bytes) (tx : Bytes) (rest : Bytes → Prog) (e : Nat) (es : List Event),
    Ready s x → i.isInit = false → i ≠ .deinit →
    (∀ t ∈ List.zip (transcript (progOf i x) pre) pre, Fits t.2 t.1.tx) →
    (transcript (progOf i x) pre).length = pre.length →
    progAfter (progOf i x) pre = .xfer tx rest →
    s.events = pre.map answered ++ .answer (.err e) :: es →
    exec i s = .next (ended (errorResponse (.busError e)) es (transcript (progOf i x) pre ++ [⟨tx, .err e⟩]) s)

/-- R239: the transactions of an instruction are within its row's bounds, the lower one once it ran to its end. The bounds of
a bus word as an instruction are the model's (notes/assumptions/3.md). -/
def Obligations.TransactionsAreBounded : Prop :=
  ∀ (i : Instr) (s t : State), exec i s = .next t →
    ∃ ts, t.history = s.history ++ ts ∧ ts.length ≤ (transactionRange s.params i).2
      ∧ (s.life = .idle → t.life = .idle → (transactionRange s.params i).1 ≤ ts.length)

/-- R239: an operation in progress ends after a bounded number of steps, whatever the oracle draws. The bounds
of a bus word as an instruction, and one draw for a step without a scripted answer, are the model's (notes/assumptions/3.md
and 5.md). -/
def Obligations.OperationInProgressEnds : Prop :=
  ∀ (s : State) (op : Instr) (n : Nat) (l : Locals), s.params.wf → s.life = .busy op n l → s.events = [] →
    ∃ (k : Nat) (t : State), k ≤ max 1 (transactionRange s.params op).2
      ∧ Host.Core.run Sys2Proof.core k s = .next t ∧ ∀ op' n' l', t.life ≠ .busy op' n' l'

/-! ## Control operations -/

/-- R100, R32: INIT configures a block that is not configured, refuses another variant before any state is written, and faults
a configured block; after INIT the buffers have no value, held as the model holds it (notes/assumptions/8.md). -/
def Obligations.InitConfiguresTheBlock : Prop :=
  ∀ (poly ports : Byte) (crcEn : Bool) (s : State),
    (s.life = .uninit → (ports = 1 ∨ ports = 2) →
      exec (.init poly crcEn ports) s = .next { s with
        life := .idle
        cfg := some { poly := poly, crcEn := crcEn, ports := ports.setWidth 2 }
        crcTable := some (crc8Table poly)
        txbuf := []
        rxbuf := []
        responses := s.responses ++ [{ status := 0, info := none, results := some .empty }] })
    ∧ (s.life = .uninit → ports ≠ 1 → ports ≠ 2 →
      exec (.init poly crcEn ports) s = .next { s with
        responses := s.responses ++ [{ status := 2, info := some 6, results := none }] })
    ∧ (s.life = .idle → exec (.init poly crcEn ports) s = .next { s with life := .fault .fReinit })

/-- R101: DEINIT drops the configuration, the table and the buffers and leaves the block UNINIT; a block that is not
configured faults; and DEINIT then INIT gives the block that the same INIT gives after reset, but for the history (and the
model's own records of the two interfaces, notes/assumptions/4.md and 15.md). -/
def Obligations.DeinitReleasesTheBlock : Prop :=
  ∀ s : State,
    (s.life = .idle → exec .deinit s = .next { s with
        life := .uninit
        cfg := none
        crcTable := none
        txbuf := []
        rxbuf := []
        responses := s.responses ++ [{ status := 0, info := none, results := some .empty }] })
    ∧ (s.life = .uninit → exec .deinit s = .next { s with life := .fault .fUninit })
    ∧ (∀ (t u v : State) (poly ports : Byte) (crcEn : Bool), s.life = .idle →
      exec .deinit s = .next t → exec (.init poly crcEn ports) t = .next u →
      exec (.init poly crcEn ports) (State.resetWith s.params) = .next v →
      u = { v with history := s.history, responses := u.responses, events := s.events })

/-! ## CRC-8 unit -/

/-- R113: CRC8 of present data is the CRC from the given or the default initial value; absent data is `InvalidArg(NULL)`;
no transaction is issued. -/
def Obligations.Crc8ReturnsTheCrc : Prop :=
  ∀ (s : State) (x : Ctx) (init : Option Byte), Ready s x →
    (∀ data : Bytes, exec (.crc8 (some data) init) s
        = .next (ended (okResponse (.crc (crc8 x.table data (init.getD x.p.crcInit)))) s.events [] s))
    ∧ exec (.crc8 none init) s = .next (ended (errorResponse (.invalidArg .null)) s.events [] s)

/-- R114: CRCCHK returns the CRC and whether it is the expected one; absent data is `InvalidArg(NULL)`. -/
def Obligations.CrcchkComparesTheCrc : Prop :=
  ∀ (s : State) (x : Ctx) (expected : Byte) (init : Option Byte), Ready s x →
    (∀ (data : Bytes) (c : Byte), c = crc8 x.table data (init.getD x.p.crcInit) →
      exec (.crcchk (some data) expected init) s
        = .next (ended (okResponse (.crcCheck (c == expected) c)) s.events [] s))
    ∧ exec (.crcchk none expected init) s = .next (ended (errorResponse (.invalidArg .null)) s.events [] s)

/-- R110: `T[0] = 0`, `T[1] = poly`, the table is linear, and polynomial 0 gives the zero table. -/
def Obligations.CrcTableIsLinear : Prop :=
  ∀ poly : Byte,
    crcLookup (crc8Table poly) 0 = 0 ∧ crcLookup (crc8Table poly) 1 = poly
      ∧ (∀ i j : Byte, crcLookup (crc8Table poly) (i ^^^ j)
          = crcLookup (crc8Table poly) i ^^^ crcLookup (crc8Table poly) j)
      ∧ (poly = 0 → ∀ i : Byte, crcLookup (crc8Table poly) i = 0)

/-- R111: the CRC of a concatenation goes on from the CRC of its first part, and a string followed by its own CRC has
CRC 0. -/
def Obligations.CrcOfStringFollowedByItsCrcIsZero : Prop :=
  (∀ (t : CrcTable) (s u : Bytes) (init : Byte), crc8 t (s ++ u) init = crc8 t u (crc8 t s init))
    ∧ ∀ (poly : Byte) (s : Bytes) (init : Byte),
      crc8 (crc8Table poly) (s ++ [crc8 (crc8Table poly) s init]) init = 0

/-- R110: the doubling construction gives the same table, for every polynomial. -/
def Obligations.DoublingConstructionGivesTheTable : Prop :=
  ∀ poly : Byte, doublingTable poly = (crc8Table poly).toList

/-- R111: with initial value 0 the CRC is the remainder of `s(x) * x^8` divided by `x^8 + poly(x)` over GF(2). -/
def Obligations.CrcIsTheRemainderOverGF2 : Prop :=
  ∀ (poly : Byte) (s : Bytes),
    bytePoly (crc8 (crc8Table poly) s 0) = (bytesPoly s * Polynomial.X ^ 8) %ₘ generator poly

/-- R111, R124: with a polynomial other than 0, inverting any one bit of a string changes its CRC. -/
def Obligations.CrcDetectsEverySingleBitError : Prop :=
  ∀ (poly init : Byte) (s : Bytes) (i j : Nat), poly ≠ 0 → i < s.length → j < 8 →
    crc8 (crc8Table poly) (flipBit s i j) init ≠ crc8 (crc8Table poly) s init

/-! ## Register codec -/

/-- R120: REGWR is one write transaction of the masked address; a bus error is reported. -/
def Obligations.RegwrIsOneWriteTransaction : Prop :=
  ∀ (s : State) (x : Ctx) (addr : W16) (value : W32) (es : List Event), Ready s x →
    (∀ rx, Fits rx (wframe x addr.toNat value) → s.events = answered rx :: es →
      exec (.regwr addr value) s
        = .next (ended (okResponse .empty) es [exchanged (wframe x addr.toNat value) rx] s))
    ∧ (∀ e, s.events = .answer (.err e) :: es →
      exec (.regwr addr value) s
        = .next (ended (errorResponse (.busError e)) es [⟨wframe x addr.toNat value, .err e⟩] s))
    ∧ wframe x addr.toNat value = wframe x (addr.toNat % 2 ^ x.p.addrWidth) value

/-- R121: REGRD is one read transaction; its value is the `REG_BYTES` bytes after the header and the turnaround byte, which never
affect it. -/
def Obligations.RegrdReturnsTheValueBytes : Prop :=
  ∀ (s : State) (x : Ctx) (addr : W16) (es : List Event), Ready s x →
    (∀ (head vb : Bytes) (value : W32), head.length = x.p.cmdHdrBytes + 1 → vb.length = x.p.regBytes →
      value = BitVec.ofNat 32 (fromBe vb) → s.events = answered (head ++ vb) :: es →
      exec (.regrd addr) s
        = .next (ended (okResponse (.value value)) es [exchanged (rframe x.p addr.toNat) (head ++ vb)] s))
    ∧ (∀ e, s.events = .answer (.err e) :: es →
      exec (.regrd addr) s
        = .next (ended (errorResponse (.busError e)) es [⟨rframe x.p addr.toNat, .err e⟩] s))

/-- R122: REGUPD reads, merges the masked bits and writes back, always; a bus error of the read ends it without a write. -/
def Obligations.RegupdReadsMergesAndWrites : Prop :=
  ∀ (s : State) (x : Ctx) (addr : W16) (mask value : W32) (es : List Event), Ready s x →
    (∀ rx frame, Fits rx (rframe x.p addr.toNat) →
      frame = wframe x addr.toNat ((rdecode x.p rx &&& ~~~mask) ||| (value &&& mask)) →
      (∀ rx', Fits rx' frame → s.events = answered rx :: answered rx' :: es →
        exec (.regupd addr mask value) s = .next (ended (okResponse .empty) es
          [exchanged (rframe x.p addr.toNat) rx, exchanged frame rx'] s))
      ∧ (∀ e, s.events = answered rx :: .answer (.err e) :: es →
        exec (.regupd addr mask value) s = .next (ended (errorResponse (.busError e)) es
          [exchanged (rframe x.p addr.toNat) rx, ⟨frame, .err e⟩] s)))
    ∧ (∀ e, s.events = .answer (.err e) :: es →
      exec (.regupd addr mask value) s
        = .next (ended (errorResponse (.busError e)) es [⟨rframe x.p addr.toNat, .err e⟩] s))

/-- R123: WFDEC reports every field of a frame of the right length, the reserved bits each in its place, and checks its CRC
byte; it refuses an absent frame and a wrong length, and issues no transaction. For a header of another size than two bytes the offsets are the model's reading
(notes/assumptions/7.md). -/
def Obligations.WfdecReportsEveryField : Prop :=
  ∀ (s : State) (x : Ctx), Ready s x →
    (∀ (hd vb crc : Bytes) (h rsvd : Nat),
      hd.length = x.p.cmdHdrBytes → vb.length = x.p.regBytes → crc.length = x.cfg.crcEn.toNat → h = fromBe hd →
      (∀ i, rsvd.testBit i
        = (h.testBit i && decide (x.p.addrWidth ≤ i ∧ i ≠ x.p.cdBit ∧ i ≠ x.p.rwBit))) →
      exec (.wfdec (some (hd ++ vb ++ crc))) s = .next (ended (okResponse (.writeFrame
          (h % 2 ^ x.p.addrWidth)
          (BitVec.ofNat 32 (fromBe vb))
          (h.testBit x.p.cdBit)
          (h.testBit x.p.rwBit)
          rsvd
          (decide (h.testBit x.p.cdBit = x.p.cdVal ∧ h.testBit x.p.rwBit = x.p.rwWrite))
          (!x.cfg.crcEn || crc == [crc8 x.table (hd ++ vb) x.p.crcInit]))) s.events [] s))
    ∧ (∀ frame : Bytes, frame.length ≠ x.p.cmdHdrBytes + x.p.regBytes + x.cfg.crcEn.toNat →
      exec (.wfdec (some frame)) s = .next (ended (errorResponse (.invalidArg .len)) s.events [] s))
    ∧ exec (.wfdec none) s = .next (ended (errorResponse (.invalidArg .null)) s.events [] s)

/-- R124: decoding an encoded write frame gives the masked address and the value back, with and without CRC; with CRC on,
any other last byte is reported as wrong. -/
def Obligations.WfdecInvertsTheWriteFrame : Prop :=
  ∀ (s : State) (x : Ctx) (a : W16) (v : W32), x.p.wf → 4 ≤ x.p.regBytes → Ready s x →
    exec (.wfdec (some (wframe x a.toNat v))) s = .next (ended (okResponse (.writeFrame
        (a.toNat % 2 ^ x.p.addrWidth) v x.p.cdVal x.p.rwWrite 0 true true)) s.events [] s)
    ∧ ∀ b : Byte, x.cfg.crcEn = true → b ≠ crc8 x.table (wframeBase x.p a.toNat v) x.p.crcInit →
      exec (.wfdec (some (wframeBase x.p a.toNat v ++ [b]))) s = .next (ended (okResponse (.writeFrame
        (a.toNat % 2 ^ x.p.addrWidth) v x.p.cdVal x.p.rwWrite 0 true false)) s.events [] s)

/-! ## MDIO engine -/

/-- R141: C22RD is one phase on slot 0 with the clause-22 read word; its data are those of the final poll. -/
def Obligations.C22rdRunsOnePhase : Prop :=
  ∀ (s : State) (x : Ctx) (prtad regad : Byte) (cw : W32) (evs es : List Event) (ts : List Transaction), Ready s x →
    cw = mdioCw x.p.mdioLayout .c22Read (prtad.setWidth 5) (regad.setWidth 5) 0 → s.events = evs ++ es →
    (∀ w, PhaseRuns x 0 cw evs ts w → exec (.c22rd prtad regad) s
      = .next (ended (okResponse (.data (mdioData x.p.mdioLayout w))) es ts s))
    ∧ (∀ st, PhaseFails x 0 cw evs ts st → exec (.c22rd prtad regad) s = .next (ended (errorResponse st) es ts s))

/-- R142: C22WR is one phase on slot 0 with the clause-22 write word and the data. -/
def Obligations.C22wrRunsOnePhase : Prop :=
  ∀ (s : State) (x : Ctx) (prtad regad : Byte) (data : W16) (cw : W32) (evs es : List Event) (ts : List Transaction),
    Ready s x →
    cw = mdioCw x.p.mdioLayout .c22Write (prtad.setWidth 5) (regad.setWidth 5) data → s.events = evs ++ es →
    (∀ w, PhaseRuns x 0 cw evs ts w → exec (.c22wr prtad regad data) s = .next (ended (okResponse .empty) es ts s))
    ∧ (∀ st, PhaseFails x 0 cw evs ts st → exec (.c22wr prtad regad data) s = .next (ended (errorResponse st) es ts s))

/-- R143: C45RD is an address phase on slot 0 and then a read phase on slot 1, whose final poll holds the data; the first
phase's failure ends it before the second word is written. -/
def Obligations.C45rdRunsTwoPhases : Prop :=
  ∀ (s : State) (x : Ctx) (prtad devad : Byte) (regaddr : W16) (cw1 cw2 : W32) (evs1 : List Event)
    (ts1 : List Transaction), Ready s x →
    cw1 = mdioCw x.p.mdioLayout .c45Addr (prtad.setWidth 5) (devad.setWidth 5) regaddr →
    cw2 = mdioCw x.p.mdioLayout .c45Read (prtad.setWidth 5) (devad.setWidth 5) 0 →
    (∀ w1, PhaseRuns x 0 cw1 evs1 ts1 w1 → ∀ (evs2 es : List Event) (ts2 : List Transaction),
      s.events = evs1 ++ (evs2 ++ es) →
      (∀ w, PhaseRuns x 1 cw2 evs2 ts2 w → exec (.c45rd prtad devad regaddr) s
        = .next (ended (okResponse (.data (mdioData x.p.mdioLayout w))) es (ts1 ++ ts2) s))
      ∧ (∀ st, PhaseFails x 1 cw2 evs2 ts2 st → exec (.c45rd prtad devad regaddr) s
        = .next (ended (errorResponse st) es (ts1 ++ ts2) s)))
    ∧ (∀ st es, PhaseFails x 0 cw1 evs1 ts1 st → s.events = evs1 ++ es →
      exec (.c45rd prtad devad regaddr) s = .next (ended (errorResponse st) es ts1 s))

/-- R144: C45WR is an address phase on slot 0 and then a write phase on slot 1. -/
def Obligations.C45wrRunsTwoPhases : Prop :=
  ∀ (s : State) (x : Ctx) (prtad devad : Byte) (regaddr data : W16) (cw1 cw2 : W32) (evs1 : List Event)
    (ts1 : List Transaction), Ready s x →
    cw1 = mdioCw x.p.mdioLayout .c45Addr (prtad.setWidth 5) (devad.setWidth 5) regaddr →
    cw2 = mdioCw x.p.mdioLayout .c45Write (prtad.setWidth 5) (devad.setWidth 5) data →
    (∀ w1, PhaseRuns x 0 cw1 evs1 ts1 w1 → ∀ (evs2 es : List Event) (ts2 : List Transaction),
      s.events = evs1 ++ (evs2 ++ es) →
      (∀ w, PhaseRuns x 1 cw2 evs2 ts2 w → exec (.c45wr prtad devad regaddr data) s
        = .next (ended (okResponse .empty) es (ts1 ++ ts2) s))
      ∧ (∀ st, PhaseFails x 1 cw2 evs2 ts2 st → exec (.c45wr prtad devad regaddr data) s
        = .next (ended (errorResponse st) es (ts1 ++ ts2) s)))
    ∧ (∀ st es, PhaseFails x 0 cw1 evs1 ts1 st → s.events = evs1 ++ es →
      exec (.c45wr prtad devad regaddr data) s = .next (ended (errorResponse st) es ts1 s))

/-- R145 (b): a clause-45 operation that returned OK wrote exactly two control words, the address word to slot 0 before
the data word to slot 1, each followed by 1 to `MDIO_MAX_POLLS` reads of its slot. -/
def Obligations.Clause45OkMeansTwoWritesInOrder : Prop :=
  ∀ (s t : State) (x : Ctx) (i : Instr) (cw1 cw2 : W32) (r : Results), Ready s x →
    (∃ prtad devad regaddr,
      cw1 = mdioCw x.p.mdioLayout .c45Addr (BitVec.setWidth 5 prtad) (BitVec.setWidth 5 devad) regaddr
      ∧ ((i = .c45rd prtad devad regaddr
            ∧ cw2 = mdioCw x.p.mdioLayout .c45Read (BitVec.setWidth 5 prtad) (BitVec.setWidth 5 devad) 0)
          ∨ ∃ data, i = .c45wr prtad devad regaddr data
            ∧ cw2 = mdioCw x.p.mdioLayout .c45Write (BitVec.setWidth 5 prtad) (BitVec.setWidth 5 devad) data)) →
    exec i s = .next t → t.responses = s.responses ++ [okResponse r] →
    ∃ k1 k2 ts, t.history = s.history ++ ts
      ∧ 1 ≤ k1 ∧ k1 ≤ x.p.mdioMaxPolls ∧ 1 ≤ k2 ∧ k2 ≤ x.p.mdioMaxPolls
      ∧ ts.map Transaction.tx
        = wframe x x.p.mdioAcc.at0 cw1 :: List.replicate k1 (rframe x.p x.p.mdioAcc.at0)
          ++ wframe x x.p.mdioAcc.at1 cw2 :: List.replicate k2 (rframe x.p x.p.mdioAcc.at1)

/-! ## Ethernet frame FIFO -/

/-- R163, R204: FIFOTX tests its arguments in the rule's order and before any transaction. -/
def Obligations.FifotxChecksItsArgumentsInOrder : Prop :=
  ∀ (s : State) (x : Ctx) (port : Byte) (dest src et payload : Option Bytes) (r : ArgReason), Ready s x →
    ((x.cfg.ports.toNat ≤ port.toNat ∧ r = .port)
      ∨ (port.toNat < x.cfg.ports.toNat ∧ (dest = none ∨ src = none ∨ et = none ∨ payload = none) ∧ r = .null)
      ∨ (port.toNat < x.cfg.ports.toNat ∧ ∃ d m t l, dest = some d ∧ src = some m ∧ et = some t ∧ payload = some l
          ∧ ((¬ (d.length = x.p.macLen ∧ m.length = x.p.macLen ∧ t.length = x.p.ethertypeLen) ∧ r = .len)
            ∨ (d.length = x.p.macLen ∧ m.length = x.p.macLen ∧ t.length = x.p.ethertypeLen
              ∧ x.p.bufLen < x.p.cmdHdrBytes + alignUp (frameLength x l.length) x.p.fifoAlign ∧ r = .tooLong)))) →
    exec (.fifotx port dest src et payload) s = .next (ended (errorResponse (.invalidArg r)) s.events [] s)

/-- R163: a FIFOTX whose arguments are accepted reads the space; without space it ends there (R162), else it writes the
unaligned frame length, sends the frame and reads the status; with the FIFO-error bit it flushes and reports it. -/
def Obligations.FifotxTransmitsTheFrame : Prop :=
  ∀ (s : State) (x : Ctx) (port : Byte) (d m t l : Bytes) (fl : Nat) (space fsize frame status flush0 flush1 : Bytes)
    (rx1 : Bytes) (es : List Event), Ready s x →
    port.toNat < x.cfg.ports.toNat → d.length = x.p.macLen → m.length = x.p.macLen → t.length = x.p.ethertypeLen →
    fl = frameLength x l.length → x.p.cmdHdrBytes + alignUp fl x.p.fifoAlign ≤ x.p.bufLen →
    space = rframe x.p x.p.txSpaceAddr →
    fsize = wframe x (portAddr x.p.txFsizeAddr port.toNat) (BitVec.ofNat 32 fl) →
    frame = txframe x port.toNat d m t l →
    status = rframe x.p x.p.statusAddr →
    flush0 = wframe x x.p.flush0.addr x.p.flush0.value →
    flush1 = wframe x x.p.flush1.addr x.p.flush1.value →
    Fits rx1 space →
    ((fl : Int) > 2 * (((rdecode x.p rx1).toNat : Int) - 2) → s.events = answered rx1 :: es →
      exec (.fifotx port (some d) (some m) (some t) (some l)) s
        = .next (ended (errorResponse (.wouldBlock .noSpace)) es [exchanged space rx1] s))
    ∧ ((fl : Int) ≤ 2 * (((rdecode x.p rx1).toNat : Int) - 2) →
      ∀ rx2 rx3 rx4, Fits rx2 fsize → Fits rx3 frame → Fits rx4 status →
      ((rdecode x.p rx4).getLsbD x.p.fifoErrBit = false →
        s.events = answered rx1 :: answered rx2 :: answered rx3 :: answered rx4 :: es →
        exec (.fifotx port (some d) (some m) (some t) (some l)) s
          = .next (ended (okResponse .empty) es
            [exchanged space rx1, exchanged fsize rx2, exchanged frame rx3, exchanged status rx4] s))
      ∧ ((rdecode x.p rx4).getLsbD x.p.fifoErrBit = true → ∀ rx5 rx6, Fits rx5 flush0 → Fits rx6 flush1 →
        s.events = answered rx1 :: answered rx2 :: answered rx3 :: answered rx4 :: answered rx5 :: answered rx6 :: es →
        exec (.fifotx port (some d) (some m) (some t) (some l)) s
          = .next (ended (errorResponse (.wouldBlock .fifoErr)) es
            [exchanged space rx1, exchanged fsize rx2, exchanged frame rx3, exchanged status rx4,
              exchanged flush0 rx5, exchanged flush1 rx6] s)))

/-- R164: a FIFORX with a bad port or no capacity issues nothing; otherwise it reads the frame size, and a size below the
threshold, a frame too long for the buffer and one too big for the caller end it there, in that order of test. -/
def Obligations.FiforxStopsBeforeTheFrame : Prop :=
  ∀ (s : State) (x : Ctx) (port : Byte), Ready s x →
    (∀ cap, x.cfg.ports.toNat ≤ port.toNat →
      exec (.fiforx port cap) s = .next (ended (errorResponse (.invalidArg .port)) s.events [] s))
    ∧ (port.toNat < x.cfg.ports.toNat →
      exec (.fiforx port none) s = .next (ended (errorResponse (.invalidArg .null)) s.events [] s)
      ∧ ∀ (cap : W32) (rx : Bytes) (es : List Event) (size : Bytes) (fs h : Nat) (r : Response),
        size = rframe x.p (portAddr x.p.rxFsizeAddr port.toNat) → fs = (rdecode x.p rx).toNat → h = headerLen x →
        Fits rx size → s.events = answered rx :: es →
        ((fs < h + x.p.fcsLen ∧ r = okResponse .noFrame)
          ∨ (h + x.p.fcsLen ≤ fs ∧ h + x.p.ethHdrLen ≤ fs ∧ x.p.bufLen < x.p.cmdHdrBytes + 1 + alignUp fs x.p.fifoAlign
            ∧ r = errorResponse (.invalidArg .tooLong))
          ∨ (h + x.p.fcsLen ≤ fs ∧ h + x.p.ethHdrLen ≤ fs ∧ x.p.cmdHdrBytes + 1 + alignUp fs x.p.fifoAlign ≤ x.p.bufLen
            ∧ cap.toNat < fs - h - x.p.ethHdrLen ∧ r = errorResponse (.invalidArg .capacity))) →
        exec (.fiforx port (some cap)) s = .next (ended r es [exchanged size rx] s))

/-- R164: otherwise one transfer brings the frame, and its fields are taken at fixed offsets of the data region. -/
def Obligations.FiforxDeliversTheFrame : Prop :=
  ∀ (s : State) (x : Ctx) (port : Byte) (cap : W32) (rx1 size cmd head hdr dest src et payload tail : Bytes) (fs : Nat)
    (es : List Event), x.p.wf → Ready s x → port.toNat < x.cfg.ports.toNat →
    size = rframe x.p (portAddr x.p.rxFsizeAddr port.toNat) → Fits rx1 size → fs = (rdecode x.p rx1).toNat →
    headerLen x + x.p.fcsLen ≤ fs → headerLen x + x.p.ethHdrLen ≤ fs →
    x.p.cmdHdrBytes + 1 + alignUp fs x.p.fifoAlign ≤ x.p.bufLen → fs - headerLen x - x.p.ethHdrLen ≤ cap.toNat →
    cmd = rxcmd x.p port.toNat fs →
    head.length = x.p.cmdHdrBytes + 1 → hdr.length = headerLen x → dest.length = x.p.macLen →
    src.length = x.p.macLen → et.length = x.p.ethertypeLen → payload.length = fs - headerLen x - x.p.ethHdrLen →
    tail.length = alignUp fs x.p.fifoAlign - fs →
    s.events = answered rx1 :: answered (head ++ (hdr ++ dest ++ src ++ et ++ payload ++ tail)) :: es →
    exec (.fiforx port (some cap)) s
      = .next (ended (okResponse (.frame dest src et payload (fs - headerLen x - x.p.ethHdrLen))) es
        [exchanged size rx1, exchanged cmd (head ++ (hdr ++ dest ++ src ++ et ++ payload ++ tail))] s)

/-- R161, R165 (a) to (c): the padding brings a frame to the Ethernet minimum, and alignment adds at most three bytes. -/
def Obligations.TransmitLengthsMeetTheMinimum : Prop :=
  ∀ (x : Ctx) (l : Nat), x.p.sourceValues →
    headerLen x = 2 + x.cfg.crcEn.toNat
      ∧ (txPad x.p l : Int) = max 0 (64 - (14 + (l : Int) + 4))
      ∧ frameLength x l = headerLen x + 14 + l + txPad x.p l
      ∧ frameLength x l = headerLen x + 14 + max l 46
      ∧ 4 ∣ alignUp (frameLength x l) 4
      ∧ frameLength x l ≤ alignUp (frameLength x l) 4 ∧ alignUp (frameLength x l) 4 ≤ frameLength x l + 3

/-- R162: the space check on integers; the least space that admits a frame, which the spec derives from the rule. -/
def Obligations.LeastSpaceThatAdmitsAFrame : Prop :=
  ∀ fl space : Nat,
    (noSpace fl space = true ↔ (fl : Int) > 2 * ((space : Int) - 2))
      ∧ (noSpace fl space = false ↔ (fl + 1) / 2 + 2 ≤ space)

/-- R165 (e): the largest payload FIFOTX accepts and the largest frame size FIFORX reads. -/
def Obligations.LargestFramesThatFitTheBuffer : Prop :=
  ∀ (x : Ctx) (n : Nat), x.p.wf → x.p.sourceValues →
    (46 + headerLen x + 14 ≤ 4 * ((x.p.bufLen - x.p.cmdHdrBytes) / 4) →
      (txFits x n = true ↔ n ≤ 4 * ((x.p.bufLen - x.p.cmdHdrBytes) / 4) - headerLen x - 14))
    ∧ (rxFits x n = true ↔ n ≤ 4 * ((x.p.bufLen - x.p.cmdHdrBytes - 1) / 4))

/-- R80, R164, R75: the frame header bytes, the CRC byte's position among them, and the bytes past the reported size do
not affect what is received. -/
def Obligations.ReceiveIgnoresHeaderAndTail : Prop :=
  ∀ (x : Ctx) (fs : Nat) (d d' : Bytes), x.p.wf → headerLen x + x.p.ethHdrLen ≤ fs →
    fs ≤ d.length → d'.length = d.length →
    (∀ i, headerLen x ≤ i → i < fs → d[i]? = d'[i]?) → decodeFrame x fs d = decodeFrame x fs d'

/-! ## Bus words as instructions -/

/-- The model's choice of what a control word is as an instruction (notes/assumptions/3.md, 16.md and 23.md): one phase of R140 on the slot
that R141 to R144 give its code. -/
def Obligations.ControlWordsRunOnePhase : Prop :=
  ∀ (s : State) (x : Ctx) (trdone rsvd : Bool) (prtad devad : BitVec 5) (data : W16) (evs es : List Event)
    (ts : List Transaction) (i : Instr) (slot : Fin 2) (c : MdioCode) (reads : Bool),
    Ready s x → s.events = evs ++ es →
    ((i = .mdioC22Read trdone rsvd prtad devad data ∧ slot = 0 ∧ c = .c22Read ∧ reads = true)
      ∨ (i = .mdioC22Write trdone rsvd prtad devad data ∧ slot = 0 ∧ c = .c22Write ∧ reads = false)
      ∨ (i = .mdioC45Addr trdone rsvd prtad devad data ∧ slot = 0 ∧ c = .c45Addr ∧ reads = false)
      ∨ (i = .mdioC45Write trdone rsvd prtad devad data ∧ slot = 1 ∧ c = .c45Write ∧ reads = false)
      ∨ (i = .mdioC45Read trdone rsvd prtad devad data ∧ slot = 1 ∧ c = .c45Read ∧ reads = true)) →
    (∀ w, PhaseRuns x slot (mdioCw x.p.mdioLayout c prtad devad data) evs ts w → exec i s
      = .next (ended (okResponse (if reads then .data (mdioData x.p.mdioLayout w) else .empty)) es ts s))
    ∧ (∀ st, PhaseFails x slot (mdioCw x.p.mdioLayout c prtad devad data) evs ts st → exec i s
      = .next (ended (errorResponse st) es ts s))

/-- The model's choice of what a command header is as an instruction (notes/assumptions/3.md): the register transaction of
R120 or R121 that it opens. -/
def Obligations.CommandHeadersRunOneTransaction : Prop :=
  ∀ (s : State) (x : Ctx) (addr : Nat) (value : W32) (rx : Bytes) (es : List Event), Ready s x →
    (Fits rx (wframe x addr value) → s.events = answered rx :: es → exec (.busWriteHdr addr value) s
      = .next (ended (okResponse .empty) es [exchanged (wframe x addr value) rx] s))
    ∧ (Fits rx (rframe x.p addr) → s.events = answered rx :: es → exec (.busReadHdr addr) s
      = .next (ended (okResponse (.value (rdecode x.p rx))) es [exchanged (rframe x.p addr) rx] s))
    ∧ (∀ e, s.events = .answer (.err e) :: es →
      exec (.busWriteHdr addr value) s
        = .next (ended (errorResponse (.busError e)) es [⟨wframe x addr value, .err e⟩] s)
      ∧ exec (.busReadHdr addr) s
        = .next (ended (errorResponse (.busError e)) es [⟨rframe x.p addr, .err e⟩] s))

/-! ## Encodings -/

/-- R71: the header's address field, marker and direction, every other bit 0, and its two bytes in order. -/
def Obligations.CommandHeaderBits : Prop :=
  ∀ (p : Params) (a i : Nat) (dir : Dir), p.wf →
    (hdr p a dir).testBit i
        = (if i < p.addrWidth then a.testBit i else if i = p.cdBit then p.cdVal
          else if i = p.rwBit then (match dir with | .write => p.rwWrite | .read => !p.rwWrite) else false)
    ∧ (p.cmdHdrBytes = 2 → hdrBytes p a dir = [BitVec.ofNat 8 (hdr p a dir / 256), BitVec.ofNat 8 (hdr p a dir)]
      ∧ hdr p a dir < 2 ^ 16)

/-- R72, R73: the bytes of the two register frames with a two-byte header and four-byte values, and the value a read frame's answer holds. -/
def Obligations.RegisterFrameBytes : Prop :=
  ∀ (x : Ctx) (a : Nat) (v : W32), x.p.cmdHdrBytes = 2 → x.p.regBytes = 4 →
    (∃ b0 b1, hdrBytes x.p a .write = [b0, b1] ∧
      wframe x a v = [b0, b1, v.extractLsb' 24 8, v.extractLsb' 16 8, v.extractLsb' 8 8, v.extractLsb' 0 8]
        ++ (if x.cfg.crcEn then [crc8 x.table [b0, b1, v.extractLsb' 24 8, v.extractLsb' 16 8, v.extractLsb' 8 8,
          v.extractLsb' 0 8] x.p.crcInit] else []))
    ∧ (∃ b0 b1, hdrBytes x.p a .read = [b0, b1] ∧
      rframe x.p a = [b0, b1, x.p.taTx, x.p.taTx, x.p.taTx, x.p.taTx, x.p.taTx])
    ∧ ∀ r0 r1 r2 : Byte, rdecode x.p (r0 :: r1 :: r2 :: be32 v) = v

/-- R85: the lengths of the four bus transactions. -/
def Obligations.BusTransactionLengths : Prop :=
  ∀ (x : Ctx) (a port fs : Nat) (v : W32) (d m t l : Bytes), x.p.sourceValues →
    (wframe x a v).length = x.p.cmdHdrBytes + 4 + x.cfg.crcEn.toNat
    ∧ (rframe x.p a).length = x.p.cmdHdrBytes + 5
    ∧ (d.length = 6 → m.length = 6 → t.length = 2 →
      (txframe x port d m t l).length = x.p.cmdHdrBytes + alignUp (frameLength x l.length) 4)
    ∧ (rxcmd x.p port fs).length = x.p.cmdHdrBytes + 1 + alignUp fs 4

/-- R76 to R79: in every legal layout the encoder puts each field where a poll reads it, masked to its width, with
TRDONE and the reserved bit 0, the start and operation codes being R77's; in R76's layout the word is R78's formula, and any
word that is polled shows done by its bit 31 and its data by its bits 15 to 0. -/
def Obligations.ControlWordFields : Prop :=
  (∀ (l : MdioLayout) (c : MdioCode) (st op : BitVec 2) (prtad dv : BitVec 5) (data : W16), l.wf →
    (c, st, op) ∈ [(MdioCode.c22Write, 0b01, 0b01), (.c22Read, 0b01, 0b10), (.c45Addr, 0b00, 0b00),
      (.c45Write, 0b00, 0b01), (.c45Read, 0b00, 0b11)] →
    (mdioCw l c prtad dv data).extractLsb' l.st 2 = st
      ∧ (mdioCw l c prtad dv data).extractLsb' l.op 2 = op
      ∧ (mdioCw l c prtad dv data).extractLsb' l.prtad 5 = prtad
      ∧ (mdioCw l c prtad dv data).extractLsb' l.devad 5 = dv
      ∧ mdioData l (mdioCw l c prtad dv data) = data
      ∧ mdioDone l (mdioCw l c prtad dv data) = false
      ∧ (mdioCw l c prtad dv data).getLsbD l.rsvd = false)
  ∧ (∀ w : W32, mdioDone .r76 w = decide (2 ^ 31 ≤ w.toNat) ∧ (mdioData .r76 w).toNat = w.toNat % 2 ^ 16)
  ∧ ∀ (c : MdioCode) (st op : BitVec 2) (prtad dv : Byte) (data : W16),
    (c, st, op) ∈ [(MdioCode.c22Write, 0b01, 0b01), (.c22Read, 0b01, 0b10), (.c45Addr, 0b00, 0b00),
      (.c45Write, 0b00, 0b01), (.c45Read, 0b00, 0b11)] →
    mdioCw .r76 c (field5 prtad) (field5 dv) data
      = (st.setWidth 32 <<< 28) ||| (op.setWidth 32 <<< 26)
        ||| ((prtad &&& 0x1F).setWidth 32 <<< 21) ||| ((dv &&& 0x1F).setWidth 32 <<< 16) ||| data.setWidth 32

/-- Decoding an encoded instruction gives it back, for every well-formed instruction and legal parameters. The bytes of a
request after its operation code, and those of a bus word, are the model's framing (notes/assumptions/6.md and 24.md). -/
def Obligations.DecodeInvertsEncode : Prop :=
  ∀ (p : Params) (i : Instr), p.wf → wellFormed p i = true → decodeRequest p (encode p i) = .ok i

/-- A request that decodes is the encoding of what it decodes to, which is well-formed: no two requests are one
instruction. The bytes of a request after its operation code, and those of a bus word, are the model's framing
(notes/assumptions/6.md and 24.md). -/
def Obligations.EncodeInvertsDecode : Prop :=
  ∀ (p : Params) (r : Request) (i : Instr), p.wf → decodeRequest p r = .ok i →
    wellFormed p i = true ∧ encode p i = r

/-- A few words written out from the spec's encodings decode to the instructions they stand for (R70, R71, R76, R77);
profile T and the bytes of a request are the model's choice (notes/assumptions/1.md, 6.md and 24.md). -/
def Obligations.WrittenWordsDecode : Prop :=
  decodeTableWord 8 0x02 = some .deinit
    ∧ decodeTableWord 16 0xA123 = some (.busWriteHdr 0x123 0)
    ∧ decodeTableWord 16 0x8030 = some (.busReadHdr 0x30)
    ∧ decodeTableWord 32 0x14201234 = some (.mdioC22Write false false 1 0 0x1234)
    ∧ decodeTableWord 32 0x0C1E0000 = some (.mdioC45Read false false 0 0x1E 0)
    ∧ decodeRequest .profileT ⟨.hostRequest, [0x20, 0x00, 0x04, 0x12, 0x34, 0x56, 0x78]⟩
      = .ok (.regwr 0x0004 0x12345678)
    ∧ decodeRequest .profileT ⟨.hostRequest, [0x10, 1, 1, 0x41, 0, 1, 0xFF]⟩
      = .ok (.crc8 (some [0x41]) (some 0xFF))

/-- R81, R82, R80: the bytes of the two FIFO transfers with a two-byte header and the source's sizes: on transmit the write
header of the port's TX data register, the port selector, with CRC on the CRC-8 of those four bytes, the addresses, the
ethertype, the payload, zeros up to the Ethernet minimum and zeros up to a multiple of four; on receive the read header of
the port's RX data register and turnaround bytes, the answer's data region coming after three bytes. -/
def Obligations.FifoTransferBytes : Prop :=
  ∀ (x : Ctx) (port ta ra : Nat) (d m t l : Bytes), x.p.cmdHdrBytes = 2 → x.p.sourceValues →
    ((port = 0 ∧ ta = x.p.txDataAddr.at0 ∧ ra = x.p.rxDataAddr.at0)
      ∨ (port = 1 ∧ ta = x.p.txDataAddr.at1 ∧ ra = x.p.rxDataAddr.at1)) →
    d.length = 6 → m.length = 6 → t.length = 2 →
    (∃ b0 b1 opening crc k, hdrBytes x.p ta .write = [b0, b1]
      ∧ opening = [b0, b1, 0, BitVec.ofNat 8 port]
      ∧ crc = (if x.cfg.crcEn then [crc8 x.table opening x.p.crcInit] else [])
      ∧ k < 4 ∧ 4 ∣ (2 + crc.length + 14 + l.length + (46 - l.length)) + k
      ∧ txframe x port d m t l
        = opening ++ crc ++ d ++ m ++ t ++ l ++ List.replicate (46 - l.length) 0 ++ List.replicate k 0)
    ∧ ∀ fs : Nat, ∃ b0 b1 k, hdrBytes x.p ra .read = [b0, b1]
      ∧ k < 4 ∧ 4 ∣ fs + k
      ∧ rxcmd x.p port fs = [b0, b1, x.p.taTx] ++ List.replicate (fs + k) x.p.taTx
      ∧ ∀ rx : Bytes, rxData x.p fs rx = (rx.drop 3).take (fs + k)

/-- R7: a block is created exactly with parameters that meet the rule's constraints, and no step is taken with others. How
the machine says so is the model's choice (notes/assumptions/18.md). -/
def Obligations.ParametersAreChecked : Prop :=
  ∀ p : Params,
    (p.wf → State.create p = some (State.resetWith p)) ∧ (¬ p.wf → State.create p = none)
      ∧ ∀ s : State, s.params = p → ¬ p.wf → step s = .refused .illFormedParameters
end

