-- ==== Sys2Proof/Laws/Bytes.lean ====
section
/-! SUPPORT. Lengths and round trips of the byte-string helpers and of the frames. -/

-- One thread elaborates this file: its many small proofs need no more, and each further thread reserves memory.
set_option Elab.async false

namespace Sys2Proof.Machine

@[simp] theorem beBytes_length (n v : Nat) : (beBytes n v).length = n := by
  induction n generalizing v with
  | zero => rfl
  | succ n ih => simp [beBytes, ih]

@[simp] theorem be16_length (v : Nat) : (be16 v).length = 2 := beBytes_length 2 v

@[simp] theorem be32_length (v : W32) : (be32 v).length = 4 := beBytes_length 4 v.toNat

@[simp] theorem zeros_length (n : Nat) : (zeros n).length = n := by simp [zeros]

@[simp] theorem hdrBytes_length (p : Params) (a : Nat) (d : Dir) : (hdrBytes p a d).length = p.cmdHdrBytes :=
  beBytes_length _ _

@[simp] theorem valueBytes_length (p : Params) (v : W32) : (valueBytes p v).length = p.regBytes := beBytes_length _ _

/-- With the source's size of a register value, its bytes are `be32` (R52, R72). -/
theorem valueBytes_eq {p : Params} (h : p.regBytes = 4) (v : W32) : valueBytes p v = be32 v := by rw [valueBytes, h, be32]

/-- Reading on from a byte string is reading it, then going on. -/
theorem fromBe_append (s t : Bytes) : fromBe (s ++ t) = fromBe s * 256 ^ t.length + fromBe t := by
  have key : ∀ (t : Bytes) (a : Nat), t.foldl (fun acc b => acc * 256 + b.toNat) a
      = a * 256 ^ t.length + t.foldl (fun acc b => acc * 256 + b.toNat) 0 := by
    intro t
    induction t with
    | nil => simp
    | cons b t ih =>
      intro a
      rw [List.foldl_cons, List.foldl_cons, ih, ih (0 * 256 + b.toNat), List.length_cons, Nat.pow_succ]
      ring
  unfold fromBe
  rw [List.foldl_append, key]

/-- The big-endian string of a number reads back as the number reduced to its width (R9). -/
theorem fromBe_beBytes (n v : Nat) : fromBe (beBytes n v) = v % 256 ^ n := by
  induction n generalizing v with
  | zero => simp [beBytes, fromBe, Nat.mod_one]
  | succ n ih =>
    have h : beBytes (n + 1) v = [BitVec.ofNat 8 (v >>> (8 * n))] ++ beBytes n v := rfl
    have h256 : (256 : Nat) ^ n = 2 ^ (8 * n) := by rw [Nat.pow_mul]
    rw [h, fromBe_append, ih, beBytes_length]
    simp only [fromBe, List.foldl_cons, List.foldl_nil, BitVec.toNat_ofNat, Nat.zero_mul, Nat.zero_add]
    have hm : v % 256 ^ (n + 1) = v % 256 ^ n + 256 ^ n * (v / 256 ^ n % 256) := by
      rw [Nat.pow_succ 256 n, Nat.mod_mul]
    rw [Nat.shiftRight_eq_div_pow, ← h256, hm]
    ring

/-- A 32-bit value's four bytes read back as the value. -/
@[simp] theorem fromBe_be32 (v : W32) : fromBe (be32 v) = v.toNat := by
  rw [be32, fromBe_beBytes]
  exact Nat.mod_eq_of_lt (by have := v.isLt; omega)

/-- `align_up` gives a multiple of the alignment, at least its argument and less than one alignment above it (R9). -/
theorem alignUp_spec (n : Nat) {a : Nat} (ha : 1 ≤ a) :
    a ∣ alignUp n a ∧ n ≤ alignUp n a ∧ alignUp n a < n + a := by
  have h := Nat.div_add_mod (n + (a - 1)) a
  have hlt := Nat.mod_lt (n + (a - 1)) (show 0 < a by omega)
  unfold alignUp
  rw [Nat.mul_comm] at h
  refine ⟨Dvd.intro_left _ rfl, ?_, ?_⟩ <;> omega

/-! ## Frame lengths (R85) -/

@[simp] theorem crcSuffix_length (x : Ctx) (s : Bytes) : (crcSuffix x s).length = x.cfg.crcEn.toNat := by
  unfold crcSuffix
  cases x.cfg.crcEn <;> rfl

@[simp] theorem stage_length (s buf : Bytes) : (stage s buf).length = max s.length buf.length := by
  simp only [stage, List.length_append, List.length_drop]
  omega

end Sys2Proof.Machine
end

