-- ==== Sys2Proof/Laws/State.lean ====
section
/-! SUPPORT. What each update of the state leaves in each field, one lemma per field per update, and the same for the
named next states of Safety.lean. -/

-- One thread elaborates this file: its many small proofs need no more, and each further thread reserves memory.
set_option Elab.async false

namespace Sys2Proof.Machine

/-! ## deliver -/

@[simp] theorem deliver_params (r : Response) (s : State) : (deliver r s).params = s.params := rfl
@[simp] theorem deliver_life (r : Response) (s : State) : (deliver r s).life = s.life := rfl
@[simp] theorem deliver_cfg (r : Response) (s : State) : (deliver r s).cfg = s.cfg := rfl
@[simp] theorem deliver_crcTable (r : Response) (s : State) : (deliver r s).crcTable = s.crcTable := rfl
@[simp] theorem deliver_txbuf (r : Response) (s : State) : (deliver r s).txbuf = s.txbuf := rfl
@[simp] theorem deliver_rxbuf (r : Response) (s : State) : (deliver r s).rxbuf = s.rxbuf := rfl
@[simp] theorem deliver_history (r : Response) (s : State) : (deliver r s).history = s.history := rfl
@[simp] theorem deliver_responses (r : Response) (s : State) : (deliver r s).responses = s.responses ++ [r] := rfl
@[simp] theorem deliver_events (r : Response) (s : State) : (deliver r s).events = s.events := rfl

/-! ## finish -/

@[simp] theorem finish_params (r : Response) (s : State) : (finish r s).params = s.params := rfl
@[simp] theorem finish_life (r : Response) (s : State) : (finish r s).life = .idle := rfl
@[simp] theorem finish_cfg (r : Response) (s : State) : (finish r s).cfg = s.cfg := rfl
@[simp] theorem finish_crcTable (r : Response) (s : State) : (finish r s).crcTable = s.crcTable := rfl
@[simp] theorem finish_txbuf (r : Response) (s : State) : (finish r s).txbuf = s.txbuf := rfl
@[simp] theorem finish_rxbuf (r : Response) (s : State) : (finish r s).rxbuf = s.rxbuf := rfl
@[simp] theorem finish_history (r : Response) (s : State) : (finish r s).history = s.history := rfl
@[simp] theorem finish_responses (r : Response) (s : State) : (finish r s).responses = s.responses ++ [r] := rfl
@[simp] theorem finish_events (r : Response) (s : State) : (finish r s).events = s.events := rfl

/-! ## enterFault -/

@[simp] theorem enterFault_params (n : FaultName) (s : State) : (enterFault n s).params = s.params := rfl
@[simp] theorem enterFault_life (n : FaultName) (s : State) : (enterFault n s).life = .fault n := rfl
@[simp] theorem enterFault_cfg (n : FaultName) (s : State) : (enterFault n s).cfg = s.cfg := rfl
@[simp] theorem enterFault_crcTable (n : FaultName) (s : State) : (enterFault n s).crcTable = s.crcTable := rfl
@[simp] theorem enterFault_txbuf (n : FaultName) (s : State) : (enterFault n s).txbuf = s.txbuf := rfl
@[simp] theorem enterFault_rxbuf (n : FaultName) (s : State) : (enterFault n s).rxbuf = s.rxbuf := rfl
@[simp] theorem enterFault_history (n : FaultName) (s : State) : (enterFault n s).history = s.history := rfl
@[simp] theorem enterFault_responses (n : FaultName) (s : State) : (enterFault n s).responses = s.responses := rfl
@[simp] theorem enterFault_events (n : FaultName) (s : State) : (enterFault n s).events = s.events := rfl

/-! ## recordTransfer -/

@[simp] theorem recordTransfer_params (tx : Bytes) (a : Answer) (s : State) : (recordTransfer tx a s).params = s.params := rfl
@[simp] theorem recordTransfer_life (tx : Bytes) (a : Answer) (s : State) : (recordTransfer tx a s).life = s.life := rfl
@[simp] theorem recordTransfer_cfg (tx : Bytes) (a : Answer) (s : State) : (recordTransfer tx a s).cfg = s.cfg := rfl
@[simp] theorem recordTransfer_crcTable (tx : Bytes) (a : Answer) (s : State) : (recordTransfer tx a s).crcTable = s.crcTable := rfl
@[simp] theorem recordTransfer_txbuf (tx : Bytes) (a : Answer) (s : State) : (recordTransfer tx a s).txbuf = stage tx s.txbuf := rfl
@[simp] theorem recordTransfer_rxbuf (tx : Bytes) (a : Answer) (s : State) : (recordTransfer tx a s).rxbuf = stageAnswer s.history.length tx.length a s.rxbuf := rfl
@[simp] theorem recordTransfer_history (tx : Bytes) (a : Answer) (s : State) : (recordTransfer tx a s).history = s.history ++ [⟨tx, a⟩] := rfl
@[simp] theorem recordTransfer_responses (tx : Bytes) (a : Answer) (s : State) : (recordTransfer tx a s).responses = s.responses := rfl
@[simp] theorem recordTransfer_events (tx : Bytes) (a : Answer) (s : State) : (recordTransfer tx a s).events = s.events := rfl

/-! ## configure -/

@[simp] theorem configure_params (poly : Byte) (crcEn : Bool) (ports : Byte) (s : State) : (configure poly crcEn ports s).params = s.params := rfl
@[simp] theorem configure_life (poly : Byte) (crcEn : Bool) (ports : Byte) (s : State) : (configure poly crcEn ports s).life = s.life := rfl
@[simp] theorem configure_cfg (poly : Byte) (crcEn : Bool) (ports : Byte) (s : State) : (configure poly crcEn ports s).cfg = some { poly := poly, crcEn := crcEn, ports := ports.setWidth 2 } := rfl
@[simp] theorem configure_crcTable (poly : Byte) (crcEn : Bool) (ports : Byte) (s : State) : (configure poly crcEn ports s).crcTable = some (crc8Table poly) := rfl
@[simp] theorem configure_txbuf (poly : Byte) (crcEn : Bool) (ports : Byte) (s : State) : (configure poly crcEn ports s).txbuf = [] := rfl
@[simp] theorem configure_rxbuf (poly : Byte) (crcEn : Bool) (ports : Byte) (s : State) : (configure poly crcEn ports s).rxbuf = [] := rfl
@[simp] theorem configure_history (poly : Byte) (crcEn : Bool) (ports : Byte) (s : State) : (configure poly crcEn ports s).history = s.history := rfl
@[simp] theorem configure_responses (poly : Byte) (crcEn : Bool) (ports : Byte) (s : State) : (configure poly crcEn ports s).responses = s.responses := rfl
@[simp] theorem configure_events (poly : Byte) (crcEn : Bool) (ports : Byte) (s : State) : (configure poly crcEn ports s).events = s.events := rfl

/-! ## release -/

@[simp] theorem release_params (s : State) : (release s).params = s.params := rfl
@[simp] theorem release_life (s : State) : (release s).life = .uninit := rfl
@[simp] theorem release_cfg (s : State) : (release s).cfg = none := rfl
@[simp] theorem release_crcTable (s : State) : (release s).crcTable = none := rfl
@[simp] theorem release_txbuf (s : State) : (release s).txbuf = [] := rfl
@[simp] theorem release_rxbuf (s : State) : (release s).rxbuf = [] := rfl
@[simp] theorem release_history (s : State) : (release s).history = s.history := rfl
@[simp] theorem release_responses (s : State) : (release s).responses = s.responses := rfl
@[simp] theorem release_events (s : State) : (release s).events = s.events := rfl

/-! ## advance -/

@[simp] theorem advance_params (rx : Bytes) (s : State) : (advance rx s).params = s.params := by
  unfold advance; split <;> rfl
@[simp] theorem advance_cfg (rx : Bytes) (s : State) : (advance rx s).cfg = s.cfg := by
  unfold advance; split <;> rfl
@[simp] theorem advance_crcTable (rx : Bytes) (s : State) : (advance rx s).crcTable = s.crcTable := by
  unfold advance; split <;> rfl
@[simp] theorem advance_txbuf (rx : Bytes) (s : State) : (advance rx s).txbuf = s.txbuf := by
  unfold advance; split <;> rfl
@[simp] theorem advance_rxbuf (rx : Bytes) (s : State) : (advance rx s).rxbuf = s.rxbuf := by
  unfold advance; split <;> rfl
@[simp] theorem advance_history (rx : Bytes) (s : State) : (advance rx s).history = s.history := by
  unfold advance; split <;> rfl
@[simp] theorem advance_responses (rx : Bytes) (s : State) : (advance rx s).responses = s.responses := by
  unfold advance; split <;> rfl
@[simp] theorem advance_events (rx : Bytes) (s : State) : (advance rx s).events = s.events := by
  unfold advance; split <;> rfl

/-- The sequencer advances by exactly one transaction (R21). -/
theorem advance_life_busy {s : State} {op : Instr} {phase : Nat} {l : Locals} (rx : Bytes)
    (h : s.life = .busy op phase l) : (advance rx s).life = .busy op (phase + 1) ⟨l.received ++ [rx]⟩ := by
  simp [advance, h]

/-! ## What the rules read -/

/-- What the rules read depends on the parameters, the configuration and the table alone. -/
theorem ctxOf_congr {s t : State} (hp : t.params = s.params) (hc : t.cfg = s.cfg) (ht : t.crcTable = s.crcTable) :
    ctxOf t = ctxOf s := by
  simp [ctxOf, hp, hc, ht]

/-- What the rules read are the state's own parameters, configuration and table. -/
theorem ctxOf_eq_some {s : State} {x : Ctx} :
    ctxOf s = some x ↔ x.p = s.params ∧ s.cfg = some x.cfg ∧ s.crcTable = some x.table := by
  unfold ctxOf
  constructor
  · intro h
    split at h
    · cases h; exact ⟨rfl, ‹_›, ‹_›⟩
    · cases h
  · rintro ⟨hp, hc, ht⟩
    cases x
    simp_all

/-! ## Named next states -/

@[simp] theorem ended_params (r : Response) (es : List Event) (ts : List Transaction) (s : State) : (ended r es ts s).params = s.params := rfl
@[simp] theorem ended_life (r : Response) (es : List Event) (ts : List Transaction) (s : State) : (ended r es ts s).life = .idle := rfl
@[simp] theorem ended_cfg (r : Response) (es : List Event) (ts : List Transaction) (s : State) : (ended r es ts s).cfg = s.cfg := rfl
@[simp] theorem ended_crcTable (r : Response) (es : List Event) (ts : List Transaction) (s : State) : (ended r es ts s).crcTable = s.crcTable := rfl
@[simp] theorem ended_history (r : Response) (es : List Event) (ts : List Transaction) (s : State) : (ended r es ts s).history = s.history ++ ts := rfl
@[simp] theorem ended_responses (r : Response) (es : List Event) (ts : List Transaction) (s : State) : (ended r es ts s).responses = s.responses ++ [r] := rfl
@[simp] theorem ended_events (r : Response) (es : List Event) (ts : List Transaction) (s : State) : (ended r es ts s).events = es := rfl

@[simp] theorem faulted_params (n : FaultName) (es : List Event) (ts : List Transaction) (s : State) : (faulted n es ts s).params = s.params := rfl
@[simp] theorem faulted_life (n : FaultName) (es : List Event) (ts : List Transaction) (s : State) : (faulted n es ts s).life = .fault n := rfl
@[simp] theorem faulted_cfg (n : FaultName) (es : List Event) (ts : List Transaction) (s : State) : (faulted n es ts s).cfg = s.cfg := rfl
@[simp] theorem faulted_crcTable (n : FaultName) (es : List Event) (ts : List Transaction) (s : State) : (faulted n es ts s).crcTable = s.crcTable := rfl
@[simp] theorem faulted_history (n : FaultName) (es : List Event) (ts : List Transaction) (s : State) : (faulted n es ts s).history = s.history ++ ts := rfl
@[simp] theorem faulted_responses (n : FaultName) (es : List Event) (ts : List Transaction) (s : State) : (faulted n es ts s).responses = s.responses := rfl
@[simp] theorem faulted_events (n : FaultName) (es : List Event) (ts : List Transaction) (s : State) : (faulted n es ts s).events = es := rfl

end Sys2Proof.Machine
end

