-- ==== Sys2Proof/Laws/Ops.lean ====
section
/-! SUPPORT. What the shared operations can do, once for each: accepting a request, a bus transaction, and running an
operation's pseudocode over the environment's events. -/

-- One thread elaborates this file: its many small proofs need no more, and each further thread reserves memory.
set_option Elab.async false

namespace Sys2Proof.Machine

/-! ## Accepting a request (R27, R204) -/

@[simp] theorem onAccept_idle {s : State} (h : s.life = .idle) (m : State → State) :
    onAccept false s m = .next (m s) := by
  simp [onAccept, acceptance, h]

@[simp] theorem onAccept_init_uninit {s : State} (h : s.life = .uninit) (m : State → State) :
    onAccept true s m = .next (m s) := by
  simp [onAccept, acceptance, h]

theorem onAccept_busy {s : State} {op : Instr} {n : Nat} {l : Locals} (h : s.life = .busy op n l) (isInit : Bool)
    (m : State → State) : onAccept isInit s m = .next (enterFault .fReentrant s) := by
  simp [onAccept, acceptance, h]

theorem onAccept_fault {s : State} {n : FaultName} (h : s.life = .fault n) (isInit : Bool) (m : State → State) :
    onAccept isInit s m = .fault (.sticky n) := by
  simp [onAccept, acceptance, h]

/-- Everything a request can come to: no step, a fault of the sequencer, or what its meaning does. -/
theorem onAccept_next {isInit : Bool} {s t : State} {m : State → State} (h : onAccept isInit s m = .next t) :
    (acceptance isInit s.life = .accepted ∧ t = m s)
      ∨ ∃ n, acceptance isInit s.life = .faults n ∧ t = enterFault n s := by
  unfold onAccept at h
  split at h
  · cases h
  · cases h; exact .inr ⟨_, ‹_›, rfl⟩
  · cases h; exact .inl ⟨‹_›, rfl⟩

/-- A request other than INIT is accepted exactly by an idle block. -/
theorem acceptance_accepted {l : Life} : acceptance false l = .accepted ↔ l = .idle := by
  cases l <;> simp [acceptance]

/-- INIT is accepted exactly by a block that is not configured. -/
theorem acceptance_init_accepted {l : Life} : acceptance true l = .accepted ↔ l = .uninit := by
  cases l <;> simp [acceptance]

/-- A request never answers a refusal. -/
theorem onAccept_ne_refused (isInit : Bool) (s : State) (m : State → State) (r : Refusal) :
    onAccept isInit s m ≠ .refused r := by
  unfold onAccept
  split <;> simp

/-- A ready block starts an operation by running its pseudocode from BUSY with no transaction issued (R27). -/
theorem startOp_ready {s : State} {x : Ctx} (h : ctxOf s = some x) (op : Instr) (prog : Ctx → Prog) :
    startOp op prog s = run (prog x) s.events { s with life := .busy op 0 ⟨[]⟩ } := by
  simp [startOp, h]

/-- A ready block's answer to a request. -/
theorem request_ready {s : State} {x : Ctx} (h : Ready s x) (op : Instr) (prog : Ctx → Prog) :
    request op prog s = .next (run (prog x) s.events { s with life := .busy op 0 ⟨[]⟩ }) := by
  simp [request, onAccept_idle h.1, startOp_ready h.2]

/-! ## One bus transaction -/

/-- A scripted answer of the right length is the oracle's answer (R5). -/
theorem fullAnswer_ok {k n : Nat} {rx : Bytes} (h : rx.length = n) : fullAnswer k n (.ok rx) = .ok rx := by
  subst h
  refine congrArg Answer.ok (List.ext_getElem (by simp) ?_)
  intro i h1 h2
  simp only [List.length_map, List.length_range] at h1
  simp [List.getD_eq_getElem?_getD, h1]

/-- Whatever the script says, the oracle returns a string of the length sent (R5). -/
theorem fullAnswer_length {k n : Nat} {a : Answer} {rx : Bytes} (h : fullAnswer k n a = .ok rx) : rx.length = n := by
  cases a with
  | ok _ => cases h; simp
  | err _ => cases h

@[simp] theorem fullAnswer_err (k n e : Nat) : fullAnswer k n (.err e) = .err e := rfl

/-! ## Running a pseudocode: one lemma per case -/

@[simp] theorem run_ret (res : Results) (es : List Event) (s : State) :
    run (.ret res) es s = finish (okResponse res) { s with events := es } := by
  cases es <;> rfl

@[simp] theorem run_raise (st : Status) (es : List Event) (s : State) :
    run (.raise st) es s = finish (errorResponse st) { s with events := es } := by
  cases es <;> rfl

@[simp] theorem run_fault (n : FaultName) (es : List Event) (s : State) :
    run (.fault n) es s = enterFault n { s with events := es } := by
  cases es <;> rfl

@[simp] theorem run_xfer_waits (tx : Bytes) (rest : Bytes → Prog) (s : State) :
    run (.xfer tx rest) [] s = { s with events := [] } := rfl

@[simp] theorem run_xfer_request (tx : Bytes) (rest : Bytes → Prog) (r : Request) (es : List Event) (s : State) :
    run (.xfer tx rest) (.request r :: es) s = enterFault .fReentrant { s with events := es } := rfl

theorem run_xfer_answered {tx rx : Bytes} (h : Fits rx tx) (rest : Bytes → Prog) (es : List Event) (s : State) :
    run (.xfer tx rest) (answered rx :: es) s
      = run (rest rx) es (advance rx (recordTransfer tx (.ok rx) s)) := by
  simp only [answered, run, fullAnswer_ok (h : rx.length = tx.length)]

@[simp] theorem run_xfer_error (tx : Bytes) (rest : Bytes → Prog) (e : Nat) (es : List Event) (s : State) :
    run (.xfer tx rest) (.answer (.err e) :: es) s
      = finish (errorResponse (.busError e)) { recordTransfer tx (.err e) s with events := es } := by
  simp only [run, fullAnswer_err]

/-! ## Running a pseudocode: everything it can do -/

/-- The state after a pseudocode's transactions received these strings. -/
def afterReceived : Prog → List Bytes → State → State
  | .xfer tx rest, rx :: received, s => afterReceived (rest rx) received (advance rx (recordTransfer tx (.ok rx) s))
  | _, _, s => s

@[simp] theorem afterReceived_nil (pr : Prog) (s : State) : afterReceived pr [] s = s := by
  cases pr <;> rfl

@[simp] theorem progAfter_nil (pr : Prog) : progAfter pr [] = pr := by
  cases pr <;> rfl

@[simp] theorem transcript_nil (pr : Prog) : transcript pr [] = [] := by
  cases pr <;> rfl

@[simp] theorem afterReceived_params (pr : Prog) (rxs : List Bytes) (s : State) :
    (afterReceived pr rxs s).params = s.params := by
  induction rxs generalizing pr s with
  | nil => simp
  | cons rx rxs ih => cases pr <;> simp [afterReceived, ih]

@[simp] theorem afterReceived_cfg (pr : Prog) (rxs : List Bytes) (s : State) :
    (afterReceived pr rxs s).cfg = s.cfg := by
  induction rxs generalizing pr s with
  | nil => simp
  | cons rx rxs ih => cases pr <;> simp [afterReceived, ih]

@[simp] theorem afterReceived_crcTable (pr : Prog) (rxs : List Bytes) (s : State) :
    (afterReceived pr rxs s).crcTable = s.crcTable := by
  induction rxs generalizing pr s with
  | nil => simp
  | cons rx rxs ih => cases pr <;> simp [afterReceived, ih]

@[simp] theorem afterReceived_responses (pr : Prog) (rxs : List Bytes) (s : State) :
    (afterReceived pr rxs s).responses = s.responses := by
  induction rxs generalizing pr s with
  | nil => simp
  | cons rx rxs ih => cases pr <;> simp [afterReceived, ih]

@[simp] theorem afterReceived_events (pr : Prog) (rxs : List Bytes) (s : State) :
    (afterReceived pr rxs s).events = s.events := by
  induction rxs generalizing pr s with
  | nil => simp
  | cons rx rxs ih => cases pr <;> simp [afterReceived, ih]

/-- The history grows by the transactions, in order (R30). -/
@[simp] theorem afterReceived_history (pr : Prog) (rxs : List Bytes) (s : State) :
    (afterReceived pr rxs s).history = s.history ++ transcript pr rxs := by
  induction rxs generalizing pr s with
  | nil => simp
  | cons rx rxs ih => cases pr <;> simp [afterReceived, transcript, ih]

/-- The sequencer has counted the transactions and holds what they received (R21). -/
theorem afterReceived_life {s : State} {op : Instr} {n : Nat} {l : Locals} (pr : Prog) (rxs : List Bytes)
    (h : s.life = .busy op n l) (hc : (transcript pr rxs).length = rxs.length) :
    (afterReceived pr rxs s).life = .busy op (n + rxs.length) ⟨l.received ++ rxs⟩ := by
  induction rxs generalizing pr s n l with
  | nil => simpa using h
  | cons rx rxs ih =>
    cases pr with
    | xfer tx rest =>
      have hc' : (transcript (rest rx) rxs).length = rxs.length := by simpa [transcript] using hc
      have hl : (advance rx (recordTransfer tx (.ok rx) s)).life = .busy op (n + 1) ⟨l.received ++ [rx]⟩ :=
        advance_life_busy rx (by simpa using h)
      simp only [afterReceived]
      rw [ih (rest rx) hl hc']
      simp [Nat.add_assoc, Nat.add_comm 1]
    | ret _ => simp [transcript] at hc
    | raise _ => simp [transcript] at hc
    | fault _ => simp [transcript] at hc

/-- A pseudocode ran over some events: after transactions that received `rxs`, each as long as what was sent, with the
events `es` left, it gave the state `t`. -/
inductive Ran (pr : Prog) (s t : State) (rxs : List Bytes) (es : List Event) : Prop where
  /-- It returned. -/
  | returned (res : Results) (h : progAfter pr rxs = .ret res)
      (ht : t = finish (okResponse res) { afterReceived pr rxs s with events := es })
  /-- It raised. -/
  | raised (st : Status) (h : progAfter pr rxs = .raise st)
      (ht : t = finish (errorResponse st) { afterReceived pr rxs s with events := es })
  /-- It faulted. -/
  | faulted (n : FaultName) (h : progAfter pr rxs = .fault n)
      (ht : t = enterFault n { afterReceived pr rxs s with events := es })
  /-- It waits for the answer to its next transaction. -/
  | waits (h : Awaiting (progAfter pr rxs)) (he : es = [])
      (ht : t = { afterReceived pr rxs s with events := es })
  /-- A request was made while it was in progress. -/
  | reentered (h : Awaiting (progAfter pr rxs))
      (ht : t = enterFault .fReentrant { afterReceived pr rxs s with events := es })
  /-- A transaction was answered with a bus error. -/
  | busError (tx : Bytes) (rest : Bytes → Prog) (e : Nat) (h : progAfter pr rxs = .xfer tx rest)
      (ht : t = finish (errorResponse (.busError e))
        { recordTransfer tx (.err e) (afterReceived pr rxs s) with events := es })

/-- Every transaction of a transcript was answered with a string of the length sent. -/
def LengthsMatch (ts : List Transaction) : Prop := ∀ t ∈ ts, ∀ rx, t.answer = .ok rx → rx.length = t.tx.length

/-- Everything that running a pseudocode can do. -/
theorem run_spec (pr : Prog) (es : List Event) (s : State) :
    ∃ rxs es', (transcript pr rxs).length = rxs.length ∧ LengthsMatch (transcript pr rxs)
      ∧ Ran pr s (run pr es s) rxs es' := by
  induction es generalizing pr s with
  | nil =>
    refine ⟨[], [], by simp, by simp [LengthsMatch], ?_⟩
    cases pr with
    | ret res => exact .returned res (by simp) (by simp)
    | raise st => exact .raised st (by simp) (by simp)
    | fault n => exact .faulted n (by simp) (by simp)
    | xfer tx rest => exact .waits ⟨tx, rest, by simp⟩ rfl (by simp)
  | cons ev es ih =>
    cases pr with
    | ret res => exact ⟨[], ev :: es, by simp, by simp [LengthsMatch], .returned res (by simp) (by simp)⟩
    | raise st => exact ⟨[], ev :: es, by simp, by simp [LengthsMatch], .raised st (by simp) (by simp)⟩
    | fault n => exact ⟨[], ev :: es, by simp, by simp [LengthsMatch], .faulted n (by simp) (by simp)⟩
    | xfer tx rest =>
      cases ev with
      | request r => exact ⟨[], es, by simp, by simp [LengthsMatch], .reentered ⟨tx, rest, by simp⟩ (by simp)⟩
      | answer a =>
        cases hf : fullAnswer s.history.length tx.length a with
        | err e =>
          refine ⟨[], es, by simp, by simp [LengthsMatch], .busError tx rest e (by simp) ?_⟩
          simp [run, hf]
        | ok rx =>
          obtain ⟨rxs, es', hc, hl, hr⟩ := ih (rest rx) (advance rx (recordTransfer tx (.ok rx) s))
          have hrun : run (.xfer tx rest) (.answer a :: es) s
              = run (rest rx) es (advance rx (recordTransfer tx (.ok rx) s)) := by simp [run, hf]
          refine ⟨rx :: rxs, es', by simp [transcript, hc], ?_, ?_⟩
          · intro t ht
            rcases List.mem_cons.mp ht with rfl | ht
            · intro rx' h
              cases h
              exact fullAnswer_length hf
            · exact hl t ht
          · rw [hrun]
            cases hr with
            | returned res h ht => exact .returned res h ht
            | raised st h ht => exact .raised st h ht
            | faulted n h ht => exact .faulted n h ht
            | waits h he ht => exact .waits h he ht
            | reentered h ht => exact .reentered h ht
            | busError tx' rest' e h ht => exact .busError tx' rest' e h ht

/-- What no run of a pseudocode changes: the parameters, the configuration and the CRC table (R22, R23). -/
theorem run_frame (pr : Prog) (es : List Event) (s : State) :
    (run pr es s).params = s.params ∧ (run pr es s).cfg = s.cfg ∧ (run pr es s).crcTable = s.crcTable := by
  obtain ⟨rxs, es', -, -, hr⟩ := run_spec pr es s
  cases hr <;> simp_all

end Sys2Proof.Machine
end

