-- ==== Sys2Proof/Laws/Steps.lean ====
section
/-! SUPPORT. What an instruction and a step can do, once for each; and an instruction whose transactions are all answered:
from a run of its pseudocode to the named next states of Safety.lean. -/

-- One thread elaborates this file: its proofs need no more, and each further thread reserves memory.
set_option Elab.async false

namespace Sys2Proof.Machine

/-! ## Argument checks -/

theorem require_holds {b : Bool} (h : b = true) (r : ArgReason) (pr : Prog) : require b r pr = pr := by
  subst h; rfl

theorem require_fails {b : Bool} (h : b = false) (r : ArgReason) (pr : Prog) :
    require b r pr = .raise (.invalidArg r) := by
  subst h; rfl

@[simp] theorem needArg_some {α : Type} (a : α) (rest : α → Prog) : needArg (some a) rest = rest a := rfl

@[simp] theorem needArg_none {α : Type} (rest : α → Prog) : needArg (none : Option α) rest = .raise (.invalidArg .null) := rfl

/-! ## What an instruction can do -/

/-- Every instruction other than INIT and DEINIT is a request that runs its pseudocode. -/
theorem exec_request {i : Instr} (h1 : i.isInit = false) (h2 : i ≠ .deinit) (s : State) :
    exec i s = request i (progOf i) s := by
  cases i <;> first | rfl | exact absurd rfl h2 | (simp [Instr.isInit] at h1)

/-- Every next state of an instruction: a fault was entered, INIT or DEINIT ran, or a pseudocode ran. -/
theorem exec_next {i : Instr} {s t : State} (h : exec i s = .next t) :
    (∃ n, t = enterFault n s)
      ∨ (∃ poly crcEn ports, i = .init poly crcEn ports ∧ s.life = .uninit ∧ t = initBody poly crcEn ports s)
      ∨ (i = .deinit ∧ s.life = .idle ∧ t = deliver (okResponse .empty) (release s))
      ∨ (i.isInit = false ∧ i ≠ .deinit ∧ s.life = .idle ∧ ∃ x, ctxOf s = some x
          ∧ t = run (progOf i x) s.events { s with life := .busy i 0 ⟨[]⟩ }) := by
  by_cases hi : i.isInit
  · cases i <;> simp [Instr.isInit] at hi
    rcases onAccept_next h with ⟨ha, ht⟩ | ⟨n, -, ht⟩
    · exact .inr (.inl ⟨_, _, _, rfl, acceptance_init_accepted.mp ha, ht⟩)
    · exact .inl ⟨n, ht⟩
  · by_cases hd : i = .deinit
    · subst hd
      have h' : onAccept false s (fun s => deliver (okResponse .empty) (release s)) = .next t := h
      rcases onAccept_next h' with ⟨ha, ht⟩ | ⟨n, -, ht⟩
      · exact .inr (.inr (.inl ⟨rfl, acceptance_accepted.mp ha, ht⟩))
      · exact .inl ⟨n, ht⟩
    · rw [exec_request (by simpa using hi) hd] at h
      rcases onAccept_next h with ⟨ha, ht⟩ | ⟨n, -, ht⟩
      · cases hx : ctxOf s with
        | none => exact .inl ⟨.fUninit, by rw [ht]; simp [startOp, hx]⟩
        | some x =>
          exact .inr (.inr (.inr ⟨by simpa using hi, hd, acceptance_accepted.mp ha, x, rfl, by rw [ht, startOp_ready hx]⟩))
      · exact .inl ⟨n, ht⟩

/-! ## What a step can do -/

/-- With parameters that R7 allows, a step takes up the next event. -/
theorem step_takes {s : State} (h : s.params.wf) : step s = takeEvent s := if_pos h

/-- A step that answers a next state had parameters that R7 allows. -/
theorem wf_of_step {s t : State} (h : step s = .next t) : s.params.wf := by
  by_contra hw
  rw [step, if_neg hw] at h
  cases h

/-- Every next state of a step: a fault was entered, an instruction ran, a reserved operation code was answered, nothing
was in progress and no request was next, or the operation in progress went on. -/
theorem step_next {s t : State} (h : step s = .next t) :
    (∃ n es, t = enterFault n { s with events := es })
      ∨ (∃ i es, exec i { s with events := es } = .next t ∧ (s.life = .idle ∨ s.life = .uninit))
      ∨ (∃ opc es, s.life = .idle ∧ t = deliver (errorResponse (.invalidOp opc)) { s with events := es })
      ∨ (∃ es, (s.life = .idle ∨ s.life = .uninit) ∧ t = { s with events := es })
      ∨ (∃ op n l es x, s.life = .busy op n l ∧ ctxOf s = some x ∧ t = run (remaining op l x) es s) := by
  rw [step_takes (wf_of_step h)] at h
  unfold takeEvent at h
  split at h
  · rename_i r es he
    simp only [takeRequest] at h
    split at h
    · cases h
    · cases h; exact .inl ⟨_, _, rfl⟩
    all_goals
      rename_i hl
      have hl' : s.life = .idle ∨ s.life = .uninit := by first | exact .inl hl | exact .inr hl
      split at h
      · exact .inr (.inl ⟨_, es, h, hl'⟩)
      · rcases onAccept_next h with ⟨ha, ht⟩ | ⟨n, -, ht⟩
        · exact .inr (.inr (.inl ⟨_, es, acceptance_accepted.mp ha, ht⟩))
        · exact .inl ⟨n, es, ht⟩
      · cases h
  · simp only [takeNoRequest] at h
    split at h
    · cases h
    · rename_i op n l hl
      have hr : ∃ es, t = resume op l es s := by split at h <;> (cases h; exact ⟨_, rfl⟩)
      obtain ⟨es, ht⟩ := hr
      unfold resume at ht
      split at ht
      · exact .inr (.inr (.inr (.inr ⟨op, n, l, es, _, hl, ‹_›, ht⟩)))
      · exact .inl ⟨_, s.events, ht⟩
    all_goals
      cases h
      exact .inr (.inr (.inr (.inl ⟨_, by first | exact .inl ‹_› | exact .inr ‹_›, rfl⟩)))

/-- An operation in progress goes on with the script's answers. -/
theorem step_answered {s : State} {op : Instr} {n : Nat} {l : Locals} {x : Ctx} {a : Answer} {es : List Event}
    (hw : s.params.wf) (he : s.events = .answer a :: es) (hl : s.life = .busy op n l) (hx : ctxOf s = some x) :
    step s = .next (run (remaining op l x) (.answer a :: es) s) := by
  simp [step_takes hw, takeEvent, he, takeNoRequest, hl, resume, hx]

/-- An operation in progress without a scripted answer goes on with the oracle's free draw. -/
theorem step_drawn {s : State} {op : Instr} {n : Nat} {l : Locals} {x : Ctx} (hw : s.params.wf)
    (he : s.events = []) (hl : s.life = .busy op n l) (hx : ctxOf s = some x) :
    step s = .next (run (remaining op l x) [.answer (freeAnswer s.history.length)] s) := by
  simp [step_takes hw, takeEvent, he, takeNoRequest, hl, resume, hx]

/-! ## Runs -/

theorem advance_withEvents (rx : Bytes) (s : State) (es : List Event) :
    advance rx { s with events := es } = { advance rx s with events := es } := by
  cases s with | mk p l c t tb rb h r ev => cases l <;> rfl

/-- A run depends on the events it is given and not on those the state holds. -/
theorem run_withEvents (pr : Prog) (es : List Event) (s : State) (es' : List Event) :
    run pr es { s with events := es' } = run pr es s := by
  induction es generalizing pr s with
  | nil => cases pr <;> simp
  | cons ev es ih =>
    cases pr with
    | xfer tx rest =>
      cases ev with
      | request r => simp
      | answer a =>
        simp only [run]
        cases hf : fullAnswer s.history.length tx.length a with
        | ok rx =>
          have hr : recordTransfer tx (.ok rx) { s with events := es' } = { recordTransfer tx (.ok rx) s with events := es' } := rfl
          simp only
          rw [hr, advance_withEvents, ih]
        | err e => rfl
    | _ => simp

/-- Transactions that received one list of strings and then another. -/
theorem transcript_append {pr : Prog} {rxs : List Bytes} (h : (transcript pr rxs).length = rxs.length) (rxs' : List Bytes) :
    transcript pr (rxs ++ rxs') = transcript pr rxs ++ transcript (progAfter pr rxs) rxs'
      ∧ progAfter pr (rxs ++ rxs') = progAfter (progAfter pr rxs) rxs' := by
  induction rxs generalizing pr with
  | nil => simp
  | cons rx rxs ih =>
    cases pr with
    | xfer tx rest =>
      have := ih (pr := rest rx) (by simpa [transcript] using h)
      simp [transcript, progAfter, this]
    | _ => simp [transcript] at h

/-- Each string is one the oracle may return for the transaction at its place (R5). -/
def FitsAll (ts : List Transaction) (rxs : List Bytes) : Prop := ∀ t ∈ List.zip ts rxs, Fits t.2 t.1.tx

/-- A run over answers to its next transactions goes on after them. -/
theorem run_answered {pr : Prog} {rxs : List Bytes} (es : List Event) (s : State)
    (hc : (transcript pr rxs).length = rxs.length) (hf : FitsAll (transcript pr rxs) rxs) :
    run pr (rxs.map answered ++ es) s = run (progAfter pr rxs) es (afterReceived pr rxs s) := by
  induction rxs generalizing pr s with
  | nil => simp
  | cons rx rxs ih =>
    cases pr with
    | xfer tx rest =>
      simp only [List.map_cons, List.cons_append]
      rw [run_xfer_answered (hf _ (List.mem_cons_self ..)), ih _ (by simpa [transcript] using hc)
        (fun t ht => hf t (List.mem_cons_of_mem _ ht))]
      rfl
    | _ => simp [transcript] at hc

/-! ## The state after a run, in the terms of Safety.lean -/

theorem afterReceived_txbuf (pr : Prog) (rxs : List Bytes) (s : State) :
    (afterReceived pr rxs s).txbuf = stageAll ((transcript pr rxs).map Transaction.tx) s.txbuf := by
  induction rxs generalizing pr s with
  | nil => simp [stageAll]
  | cons rx rxs ih => cases pr <;> simp [afterReceived, transcript, ih, stageAll]

theorem stageAnswers_append (k : Nat) (ts ts' : List Transaction) (buf : Bytes) :
    stageAnswers k (ts ++ ts') buf = stageAnswers (k + ts.length) ts' (stageAnswers k ts buf) := by
  induction ts generalizing k buf with
  | nil => simp [stageAnswers]
  | cons t ts ih => simp [stageAnswers, ih, Nat.add_assoc, Nat.add_comm 1]

theorem afterReceived_rxbuf (pr : Prog) (rxs : List Bytes) (s : State) :
    (afterReceived pr rxs s).rxbuf = stageAnswers s.history.length (transcript pr rxs) s.rxbuf := by
  induction rxs generalizing pr s with
  | nil => simp [stageAnswers]
  | cons rx rxs ih => cases pr <;> simp [afterReceived, transcript, ih, stageAnswers]

theorem finish_afterReceived (pr : Prog) (rxs : List Bytes) (s : State) (r : Response) (es : List Event) :
    finish r { afterReceived pr rxs s with events := es } = ended r es (transcript pr rxs) s := by
  simp [finish, deliver, ended, afterReceived_txbuf, afterReceived_rxbuf]

theorem finish_busError (pr : Prog) (rxs : List Bytes) (s : State) (r : Response) (es : List Event) (tx : Bytes) (e : Nat) :
    finish r { recordTransfer tx (.err e) (afterReceived pr rxs s) with events := es }
      = ended r es (transcript pr rxs ++ [⟨tx, .err e⟩]) s := by
  simp [finish, deliver, ended, afterReceived_txbuf, afterReceived_rxbuf, recordTransfer, stageAll,
    stageAnswers_append, stageAnswers]

/-- An instruction whose pseudocode returns after answered transactions. -/
theorem exec_returns {i : Instr} {s : State} {x : Ctx} {rxs : List Bytes} {res : Results} {es : List Event} (hr : Ready s x)
    (h1 : i.isInit = false) (h2 : i ≠ .deinit) (he : s.events = rxs.map answered ++ es)
    (hc : (transcript (progOf i x) rxs).length = rxs.length) (hf : FitsAll (transcript (progOf i x) rxs) rxs)
    (hp : progAfter (progOf i x) rxs = .ret res) :
    exec i s = .next (ended (okResponse res) es (transcript (progOf i x) rxs) s) := by
  rw [exec_request h1 h2, request_ready hr, he, run_answered _ _ hc hf, hp, run_ret, finish_afterReceived]
  rfl

/-- An instruction whose pseudocode raises a status after answered transactions. -/
theorem exec_raises {i : Instr} {s : State} {x : Ctx} {rxs : List Bytes} {st : Status} {es : List Event} (hr : Ready s x)
    (h1 : i.isInit = false) (h2 : i ≠ .deinit) (he : s.events = rxs.map answered ++ es)
    (hc : (transcript (progOf i x) rxs).length = rxs.length) (hf : FitsAll (transcript (progOf i x) rxs) rxs)
    (hp : progAfter (progOf i x) rxs = .raise st) :
    exec i s = .next (ended (errorResponse st) es (transcript (progOf i x) rxs) s) := by
  rw [exec_request h1 h2, request_ready hr, he, run_answered _ _ hc hf, hp, run_raise, finish_afterReceived]
  rfl

/-- An instruction that returns without a transaction. -/
theorem exec_returns_at_once {i : Instr} {s : State} {x : Ctx} {res : Results} (hr : Ready s x) (h1 : i.isInit = false)
    (h2 : i ≠ .deinit) (hp : progOf i x = .ret res) : exec i s = .next (ended (okResponse res) s.events [] s) := by
  simpa using exec_returns (i := i) (rxs := []) (res := res) (es := s.events) hr h1 h2 (by simp) (by simp)
    (by simp [FitsAll]) (by simpa using hp)

/-- An instruction that raises a status without a transaction. -/
theorem exec_raises_at_once {i : Instr} {s : State} {x : Ctx} {st : Status} (hr : Ready s x) (h1 : i.isInit = false)
    (h2 : i ≠ .deinit) (hp : progOf i x = .raise st) : exec i s = .next (ended (errorResponse st) s.events [] s) := by
  simpa using exec_raises (i := i) (rxs := []) (st := st) (es := s.events) hr h1 h2 (by simp) (by simp)
    (by simp [FitsAll]) (by simpa using hp)

end Sys2Proof.Machine
end

