-- ==== Sys2Proof/Laws/Mdio.lean ====
section
/-! SUPPORT. The MDIO phase as a run of its pseudocode (spec/43_mdio.md R140). -/

-- One thread elaborates this file: its proofs need no more, and each further thread reserves memory.
set_option Elab.async false

namespace Sys2Proof.Machine

/-- Polls that do not show done leave the remaining ones (R140). -/
theorem mdioPoll_notDone {x : Ctx} {slot : Fin 2} {polls : List Bytes} {n : Nat} (rest : W32 → Prog)
    (hn : polls.length ≤ n) (hp : ∀ rx ∈ polls, NotDone x slot rx) :
    progAfter (mdioPoll x slot rest n) polls = mdioPoll x slot rest (n - polls.length)
      ∧ transcript (mdioPoll x slot rest n) polls = polls.map (exchanged (rframe x.p (portAddr x.p.mdioAcc slot.val)))
      ∧ FitsAll (transcript (mdioPoll x slot rest n) polls) polls := by
  induction polls generalizing n with
  | nil => simp [FitsAll]
  | cons rx polls ih =>
    obtain ⟨n, rfl⟩ : ∃ k, n = k + 1 := ⟨n - 1, by simp at hn; omega⟩
    have h1 := hp rx (List.mem_cons_self ..)
    have ih' := ih (n := n) (by simpa using hn) (fun r hr => hp r (List.mem_cons_of_mem _ hr))
    have hnd : mdioDone x.p.mdioLayout (rdecode x.p rx) = false := h1.2
    simp only [mdioPoll, regrdSeq, progAfter, transcript, hnd]
    refine ⟨by simp [ih'.1], by simp [ih'.2.1, exchanged], ?_⟩
    intro t ht
    simp at ht
    rcases ht with rfl | ht
    · exact h1.1
    · exact ih'.2.2 t ht

/-- The strings of a phase fit its write and its polls. -/
theorem fitsAll_phase {x : Ctx} {slot : Fin 2} {cw : W32} {rxw : Bytes} {polls : List Bytes}
    (hw : Fits rxw (wframe x (portAddr x.p.mdioAcc slot.val) cw))
    (hp : ∀ rx ∈ polls, Fits rx (rframe x.p (portAddr x.p.mdioAcc slot.val))) :
    FitsAll (phaseTransactions x slot cw rxw polls) (rxw :: polls) := by
  intro t ht
  simp only [phaseTransactions, List.zip_cons_cons, List.mem_cons] at ht
  rcases ht with rfl | ht
  · exact hw
  · rw [List.zip_map_left, List.mem_map] at ht
    obtain ⟨⟨a, b⟩, hab, rfl⟩ := ht
    exact hp b (List.of_mem_zip hab).2

/-- A phase that runs to completion, as a run of its pseudocode (R140). -/
theorem phaseRuns_run {x : Ctx} {slot : Fin 2} {cw : W32} {evs : List Event} {ts : List Transaction} {w : W32}
    (h : PhaseRuns x slot cw evs ts w) :
    ∃ rxs, evs = rxs.map answered ∧ ∀ rest,
      transcript (mdioPhase x slot cw rest) rxs = ts ∧ ts.length = rxs.length ∧ FitsAll ts rxs
        ∧ progAfter (mdioPhase x slot cw rest) rxs = rest w := by
  cases h with
  | completes rxw polls last hw hn hp hl =>
  refine ⟨rxw :: (polls ++ [last]), by simp, fun rest => ?_⟩
  obtain ⟨k, hk⟩ : ∃ k, x.p.mdioMaxPolls - polls.length = k + 1 := ⟨x.p.mdioMaxPolls - polls.length - 1, by omega⟩
  obtain ⟨h1, h2, -⟩ := mdioPoll_notDone rest (n := x.p.mdioMaxPolls) (by omega) hp
  obtain ⟨t1, t2⟩ := transcript_append (show (transcript (mdioPoll x slot rest x.p.mdioMaxPolls) polls).length
    = polls.length by rw [h2]; simp) [last]
  have hd : mdioDone x.p.mdioLayout (rdecode x.p last) = true := hl.2
  refine ⟨?_, by simp [phaseTransactions], fitsAll_phase hw ?_, ?_⟩
  · simp only [mdioPhase, regwrSeq, transcript, t1, h1, hk, mdioPoll, regrdSeq, h2, phaseTransactions]
    simp [exchanged]
  · intro rx hrx
    rcases List.mem_append.mp hrx with h | h
    · exact (hp rx h).1
    · rw [List.mem_singleton.mp h]; exact hl.1
  · simp only [mdioPhase, regwrSeq, progAfter, t2, h1, hk, mdioPoll, regrdSeq, hd, if_true, progAfter_nil]
    rfl

/-- A phase that ends its operation, as a run of its pseudocode: it times out, or a transaction is answered with a bus
error (R140). -/
theorem phaseFails_run {x : Ctx} {slot : Fin 2} {cw : W32} {evs : List Event} {ts : List Transaction} {st : Status}
    (h : PhaseFails x slot cw evs ts st) :
    (∃ rxs, evs = rxs.map answered ∧ ∀ rest,
      transcript (mdioPhase x slot cw rest) rxs = ts ∧ ts.length = rxs.length ∧ FitsAll ts rxs
        ∧ progAfter (mdioPhase x slot cw rest) rxs = .raise st)
    ∨ ∃ rxs e tx ts0, st = .busError e ∧ evs = rxs.map answered ++ [.answer (.err e)] ∧ ts = ts0 ++ [⟨tx, .err e⟩]
      ∧ ∀ rest, transcript (mdioPhase x slot cw rest) rxs = ts0 ∧ ts0.length = rxs.length ∧ FitsAll ts0 rxs
        ∧ ∃ r, progAfter (mdioPhase x slot cw rest) rxs = .xfer tx r := by
  cases h with
  | writeError e =>
    exact .inr ⟨[], e, _, [], rfl, rfl, rfl, fun rest => ⟨rfl, rfl, by simp [FitsAll], _, rfl⟩⟩
  | pollError rxw polls e hw hn hp =>
    refine .inr ⟨rxw :: polls, e, _, phaseTransactions x slot cw rxw polls, rfl, by simp, rfl, fun rest => ?_⟩
    obtain ⟨k, hk⟩ : ∃ k, x.p.mdioMaxPolls - polls.length = k + 1 := ⟨x.p.mdioMaxPolls - polls.length - 1, by omega⟩
    obtain ⟨h1, h2, -⟩ := mdioPoll_notDone rest (n := x.p.mdioMaxPolls) (by omega) hp
    refine ⟨?_, by simp [phaseTransactions], fitsAll_phase hw fun rx h => (hp rx h).1, ?_⟩
    · simp only [mdioPhase, regwrSeq, transcript, h2, phaseTransactions]
      rfl
    · simp only [mdioPhase, regwrSeq, progAfter, h1, hk, mdioPoll, regrdSeq]
      exact ⟨_, rfl⟩
  | timesOut rxw polls hw hn hp =>
    refine .inl ⟨rxw :: polls, by simp, fun rest => ?_⟩
    obtain ⟨h1, h2, -⟩ := mdioPoll_notDone rest (n := x.p.mdioMaxPolls) (by omega) hp
    refine ⟨?_, by simp [phaseTransactions], fitsAll_phase hw fun rx h => (hp rx h).1, ?_⟩
    · simp only [mdioPhase, regwrSeq, transcript, h2, phaseTransactions]
      rfl
    · simp only [mdioPhase, regwrSeq, progAfter, h1, hn]
      simp [mdioPoll]

end Sys2Proof.Machine
end

