-- ==== Sys2Proof/Laws/PerInstr.lean ====
section
/-! SUPPORT. The statements made per instruction.

`OpcodeByte`: what identifies an instruction's encoding is what its row of spec/opcode_table.json says. A host request opens
with its operation code (R70), a control word has its start and operation code (R76, R77), a command header its marker and
its direction (R71). -/

-- One thread elaborates this file: its proofs need no more, and each further thread reserves memory.
set_option Elab.async false

namespace Sys2Proof.Laws.OpcodeByte

open Machine

/-- What the table's row fixes of an encoding. -/
inductive Row where
  /-- The operation code (R70). -/
  | opcode (opc : Byte)
  /-- The start and operation code of a control word (R77). -/
  | control (c : MdioCode)
  /-- The direction of a command header (R71). -/
  | header (dir : Dir)

/-- The row of an instruction. -/
def rowOf : Instr → Row
  | .init _ _ _ => .opcode 0x01
  | .deinit => .opcode 0x02
  | .crc8 _ _ => .opcode 0x10
  | .crcchk _ _ _ => .opcode 0x11
  | .regwr _ _ => .opcode 0x20
  | .regrd _ => .opcode 0x21
  | .regupd _ _ _ => .opcode 0x22
  | .wfdec _ => .opcode 0x23
  | .c22rd _ _ => .opcode 0x30
  | .c22wr _ _ _ => .opcode 0x31
  | .c45rd _ _ _ => .opcode 0x32
  | .c45wr _ _ _ _ => .opcode 0x33
  | .fifotx _ _ _ _ _ => .opcode 0x40
  | .fiforx _ _ => .opcode 0x41
  | .mdioC22Read _ _ _ _ _ => .control .c22Read
  | .mdioC22Write _ _ _ _ _ => .control .c22Write
  | .mdioC45Addr _ _ _ _ _ => .control .c45Addr
  | .mdioC45Write _ _ _ _ _ => .control .c45Write
  | .mdioC45Read _ _ _ _ _ => .control .c45Read
  | .busWriteHdr _ _ => .header .write
  | .busReadHdr _ => .header .read

/-- The encoding of `i` opens as its row says, with any parameters. -/
def Statement (i : Instr) : Prop :=
  ∀ p : Params, match rowOf i with
    | .opcode opc => (encode p i).format = .hostRequest ∧ (encode p i).bytes.head? = some opc
    | .control c => ∃ trdone rsvd prtad devad data, (encode p i).format = .controlWord
        ∧ (encode p i).bytes = be32 (controlWordOf p.mdioLayout c trdone rsvd prtad devad data)
    | .header dir => ∃ addr tail, (encode p i).format = .busFrame ∧ (encode p i).bytes = hdrBytes p addr dir ++ tail

theorem init (poly : Byte) (crcEn : Bool) (ports : Byte) : Statement (.init poly crcEn ports) := fun _ => ⟨rfl, rfl⟩
theorem deinit : Statement .deinit := fun _ => ⟨rfl, rfl⟩
theorem crc8 (data : Option Bytes) (init : Option Byte) : Statement (.crc8 data init) := fun _ => ⟨rfl, rfl⟩
theorem crcchk (data : Option Bytes) (expected : Byte) (init : Option Byte) : Statement (.crcchk data expected init) :=
  fun _ => ⟨rfl, rfl⟩
theorem regwr (addr : W16) (value : W32) : Statement (.regwr addr value) := fun _ => ⟨rfl, rfl⟩
theorem regrd (addr : W16) : Statement (.regrd addr) := fun _ => ⟨rfl, rfl⟩
theorem regupd (addr : W16) (mask value : W32) : Statement (.regupd addr mask value) := fun _ => ⟨rfl, rfl⟩
theorem wfdec (frame : Option Bytes) : Statement (.wfdec frame) := fun _ => ⟨rfl, rfl⟩
theorem c22rd (prtad regad : Byte) : Statement (.c22rd prtad regad) := fun _ => ⟨rfl, rfl⟩
theorem c22wr (prtad regad : Byte) (data : W16) : Statement (.c22wr prtad regad data) := fun _ => ⟨rfl, rfl⟩
theorem c45rd (prtad devad : Byte) (regaddr : W16) : Statement (.c45rd prtad devad regaddr) := fun _ => ⟨rfl, rfl⟩
theorem c45wr (prtad devad : Byte) (regaddr data : W16) : Statement (.c45wr prtad devad regaddr data) :=
  fun _ => ⟨rfl, rfl⟩
theorem fifotx (port : Byte) (dest src ethertype payload : Option Bytes) :
    Statement (.fifotx port dest src ethertype payload) := fun _ => ⟨rfl, rfl⟩
theorem fiforx (port : Byte) (cap : Option W32) : Statement (.fiforx port cap) := fun _ => ⟨rfl, rfl⟩
theorem mdioC22Read (trdone rsvd : Bool) (prtad devad : BitVec 5) (data : W16) :
    Statement (.mdioC22Read trdone rsvd prtad devad data) := fun _ => ⟨trdone, rsvd, prtad, devad, data, rfl, rfl⟩
theorem mdioC22Write (trdone rsvd : Bool) (prtad devad : BitVec 5) (data : W16) :
    Statement (.mdioC22Write trdone rsvd prtad devad data) := fun _ => ⟨trdone, rsvd, prtad, devad, data, rfl, rfl⟩
theorem mdioC45Addr (trdone rsvd : Bool) (prtad devad : BitVec 5) (data : W16) :
    Statement (.mdioC45Addr trdone rsvd prtad devad data) := fun _ => ⟨trdone, rsvd, prtad, devad, data, rfl, rfl⟩
theorem mdioC45Write (trdone rsvd : Bool) (prtad devad : BitVec 5) (data : W16) :
    Statement (.mdioC45Write trdone rsvd prtad devad data) := fun _ => ⟨trdone, rsvd, prtad, devad, data, rfl, rfl⟩
theorem mdioC45Read (trdone rsvd : Bool) (prtad devad : BitVec 5) (data : W16) :
    Statement (.mdioC45Read trdone rsvd prtad devad data) := fun _ => ⟨trdone, rsvd, prtad, devad, data, rfl, rfl⟩
theorem busWriteHdr (addr : Nat) (value : W32) : Statement (.busWriteHdr addr value) :=
  fun _ => ⟨addr, be32 value, rfl, rfl⟩
theorem busReadHdr (addr : Nat) : Statement (.busReadHdr addr) := fun _ => ⟨addr, [], rfl, (List.append_nil _).symm⟩

end Sys2Proof.Laws.OpcodeByte
end

