-- ==== Sys2Proof/Machine/Assembly.lean ====
section
/-! DEFINITION. The textual form of a request (spec/30_encoding.md R86; the pseudo-operations are beside `Instr`). Numbers
are written in hexadecimal, of the width of their operand, and byte strings in brackets;
the spec's other two spellings, decimal and quoted text, stand for the same values. Nothing here is used by the machine. -/

namespace Sys2Proof.Machine

/-! ## Arguments -/

/-- A hexadecimal digit. -/
def hexDigit (n : Nat) : Char := "0123456789ABCDEF".toList.getD n '?'

/-- The lowest `k` hexadecimal digits of a number, the highest first. -/
def hexDigits : Nat → Nat → List Char
  | 0, _ => []
  | k + 1, n => hexDigits k (n / 16) ++ [hexDigit (n % 16)]

/-- A number of `w` bits, in as many hexadecimal digits as its width takes. -/
def writeNumber {w : Nat} (v : BitVec w) : String := "0x" ++ String.ofList (hexDigits ((w + 3) / 4) v.toNat)

/-- A byte string in brackets. -/
def writeBytes (s : Bytes) : String := "[" ++ String.intercalate ", " (s.map fun b => writeNumber b) ++ "]"

/-- A required argument, `-` where it is absent. -/
def writeNeeded {α : Type} (write : α → String) (a : Option α) : String := (a.map write).getD "-"

/-- A last optional argument, omitted where it is absent. -/
def writeOptional (a : Option Byte) : List String := (a.map fun b => writeNumber b).toList

/-- A mnemonic and its arguments, separated by commas. -/
def writeLine (mnemonic : String) (args : List String) : String :=
  if args.isEmpty then mnemonic else mnemonic ++ " " ++ String.intercalate ", " args

/-- The textual form of a host operation; the bus words have none. -/
def writeInstr : Instr → Option String
  | .init poly crcEn ports =>
    some (writeLine "INIT" [writeNumber poly, if crcEn then "1" else "0", writeNumber ports])
  | .deinit => some (writeLine "DEINIT" [])
  | .crc8 data init => some (writeLine "CRC8" (writeNeeded writeBytes data :: writeOptional init))
  | .crcchk data expected init =>
    some (writeLine "CRCCHK" (writeNeeded writeBytes data :: writeNumber expected :: writeOptional init))
  | .regwr addr value => some (writeLine "REGWR" [writeNumber addr, writeNumber value])
  | .regrd addr => some (writeLine "REGRD" [writeNumber addr])
  | .regupd addr mask value => some (writeLine "REGUPD" [writeNumber addr, writeNumber mask, writeNumber value])
  | .wfdec frame => some (writeLine "WFDEC" [writeNeeded writeBytes frame])
  | .c22rd prtad regad => some (writeLine "C22RD" [writeNumber prtad, writeNumber regad])
  | .c22wr prtad regad data => some (writeLine "C22WR" [writeNumber prtad, writeNumber regad, writeNumber data])
  | .c45rd prtad devad regaddr =>
    some (writeLine "C45RD" [writeNumber prtad, writeNumber devad, writeNumber regaddr])
  | .c45wr prtad devad regaddr data =>
    some (writeLine "C45WR" [writeNumber prtad, writeNumber devad, writeNumber regaddr, writeNumber data])
  | .fifotx port dest src ethertype payload =>
    some (writeLine "FIFOTX" [writeNumber port, writeNeeded writeBytes dest, writeNeeded writeBytes src,
      writeNeeded writeBytes ethertype, writeNeeded writeBytes payload])
  | .fiforx port cap => some (writeLine "FIFORX" [writeNumber port, writeNeeded (fun v => writeNumber v) cap])
  | .mdioC22Read _ _ _ _ _ => none
  | .mdioC22Write _ _ _ _ _ => none
  | .mdioC45Addr _ _ _ _ _ => none
  | .mdioC45Write _ _ _ _ _ => none
  | .mdioC45Read _ _ _ _ _ => none
  | .busWriteHdr _ _ => none
  | .busReadHdr _ => none

end Sys2Proof.Machine
end

