-- ==== Sys2Proof/Tests/Slice0.lean ====
section
/-! SUPPORT. Tests. Expected values are the vectors of spec/95_test_vectors.md (named `V-...`), which are for test profile T,
or words written out from the encodings of spec/30_encoding.md. A theorem `witness_<Name>` shows that the hypotheses of the
statement `Obligations.<Name>` can all hold together, at the ends of their ranges. -/

-- One thread elaborates this file: its proofs need no more, and each further thread reserves memory.
set_option Elab.async false

namespace Sys2Proof.Tests

open Machine

/-! ## Small states -/

/-- The configuration after `INIT 0x07, crc, ports`. -/
def cfgOf (crc : Bool) (ports : BitVec 2) : Cfg := ⟨0x07, crc, ports⟩

/-- A block in profile T after `INIT 0x07, crc, ports`, with the events `es` to come. -/
def ready (crc : Bool) (ports : BitVec 2) (es : List Event) : State :=
  { State.reset with life := .idle, cfg := some (cfgOf crc ports), crcTable := some (crc8Table 0x07), events := es }

/-- What the rules read of that block. -/
def ctx (crc : Bool) (ports : BitVec 2) : Ctx := ⟨.profileT, cfgOf crc ports, crc8Table 0x07⟩

theorem ready_ready (crc : Bool) (ports : BitVec 2) (es : List Event) : Ready (ready crc ports es) (ctx crc ports) :=
  ⟨rfl, rfl⟩

/-- The answer to a register read that brings the value `v`; the bytes before it are arbitrary (R73). -/
def reads (v : W32) : Event := answered ([0xFF, 0xFF, 0xFF] ++ be32 v)

/-- The next state, where there is one. -/
def nextState (o : Host.Outcome State Fault Refusal) : Option State :=
  match o with
  | .next t => some t
  | _ => none

/-- What a test looks at: the sequencer's state, the responses, and the bytes sent. -/
def seen (o : Host.Outcome State Fault Refusal) : Option (Life × List Response × List Bytes) :=
  match o with
  | .next t => some (t.life, t.responses, t.history.map Transaction.tx)
  | _ => none

/-- An operation that ended with a response after sending these strings. -/
def done (r : Response) (sent : List Bytes) : Option (Life × List Response × List Bytes) := some (.idle, [r], sent)

/-- `"123456789"` in ASCII. -/
def digits : Bytes := [0x31, 0x32, 0x33, 0x34, 0x35, 0x36, 0x37, 0x38, 0x39]

/-! ## Well-formedness: the address check of the two command headers -/

theorem test_write_header_address_refused : wellFormed .profileT (.busWriteHdr 0x2000 0) = false := by decide
theorem test_read_header_address_refused : wellFormed .profileT (.busReadHdr 0x2000) = false := by decide
theorem test_header_address_accepted : wellFormed .profileT (.busReadHdr 0x1FFF) = true := by decide
theorem test_profile_is_wellFormed : Params.wf .profileT := by decide
theorem test_layout_overlap_refused : ¬ MdioLayout.wf { MdioLayout.r76 with rsvd := 31 } := by decide
theorem test_short_buffer_refused : ¬ Params.wf { Params.profileT with bufLen := 65 } ∧ State.create { Params.profileT with bufLen := 65 } = none := by
  decide
theorem test_header_bit_in_address_refused : ¬ Params.wf { Params.profileT with rwBit := 12 } := by decide

/-! ## Decoding: a word of every instruction, written out from R70, R83, R71, R76 and R77 -/

/-- The decoder on the bytes of a host request. -/
def host (bs : Bytes) : Except DecodeError Instr := decodeRequest .profileT ⟨.hostRequest, bs⟩

theorem test_decode_init : host [0x01, 0x07, 0x01, 0x02] = .ok (.init 0x07 true 2) := by decide +kernel
theorem test_decode_deinit : host [0x02] = .ok .deinit := by decide +kernel
theorem test_decode_crc8 : host [0x10, 1, 1, 0x41, 1, 0x42, 0, 0] = .ok (.crc8 (some [0x41, 0x42]) none) := by decide +kernel
theorem test_decode_crcchk : host [0x11, 0, 0x44, 1, 0xFF] = .ok (.crcchk none 0x44 (some 0xFF)) := by decide +kernel
theorem test_decode_regwr : host [0x20, 0x00, 0x04, 0x12, 0x34, 0x56, 0x78] = .ok (.regwr 0x0004 0x12345678) := by
  decide +kernel
theorem test_decode_regrd : host [0x21, 0x12, 0x34] = .ok (.regrd 0x1234) := by decide +kernel
theorem test_decode_regupd : host [0x22, 0, 0x10, 0, 0, 0, 0xFF, 0, 0, 0, 5] = .ok (.regupd 0x0010 0x000000FF 0x00000005) := by
  decide +kernel
theorem test_decode_wfdec : host [0x23, 1, 1, 0xA0, 0] = .ok (.wfdec (some [0xA0])) := by decide +kernel
theorem test_decode_c22rd : host [0x30, 0x01, 0x02] = .ok (.c22rd 1 2) := by decide +kernel
theorem test_decode_c22wr : host [0x31, 0x01, 0x00, 0x12, 0x34] = .ok (.c22wr 1 0 0x1234) := by decide +kernel
theorem test_decode_c45rd : host [0x32, 0x00, 0x1E, 0x00, 0x10] = .ok (.c45rd 0 0x1E 0x0010) := by decide +kernel
theorem test_decode_c45wr : host [0x33, 0x00, 0x1E, 0x00, 0x10, 0x56, 0x78] = .ok (.c45wr 0 0x1E 0x0010 0x5678) := by
  decide +kernel
theorem test_decode_fifotx :
    host [0x40, 1, 1, 1, 0xAA, 0, 0, 1, 0, 1, 1, 0x41, 1, 0x42, 0]
      = .ok (.fifotx 1 (some [0xAA]) none (some []) (some [0x41, 0x42])) := by decide +kernel
theorem test_decode_fiforx : host [0x41, 0x01, 1, 0, 0, 0x05, 0xDC] = .ok (.fiforx 1 (some 1500)) := by decide +kernel
/-- V-CW-2. -/
theorem test_decode_mdio_c22_read : decodeTableWord 32 0x18220000 = some (.mdioC22Read false false 1 2 0) := by
  decide +kernel
/-- V-CW-1. -/
theorem test_decode_mdio_c22_write : decodeTableWord 32 0x14201234 = some (.mdioC22Write false false 1 0 0x1234) := by
  decide +kernel
/-- V-CW-3, with TRDONE and the reserved bit set. -/
theorem test_decode_mdio_c45_addr : decodeTableWord 32 0xC01E0010 = some (.mdioC45Addr true true 0 0x1E 0x0010) := by
  decide +kernel
/-- V-CW-5. -/
theorem test_decode_mdio_c45_write : decodeTableWord 32 0x041E5678 = some (.mdioC45Write false false 0 0x1E 0x5678) := by
  decide +kernel
/-- V-CW-4. -/
theorem test_decode_mdio_c45_read : decodeTableWord 32 0x0C1E0000 = some (.mdioC45Read false false 0 0x1E 0) := by
  decide +kernel
theorem test_decode_bus_write_hdr :
    decodeRequest .profileT ⟨.busFrame, [0xBF, 0xFF, 0x12, 0x34, 0x56, 0x78]⟩ = .ok (.busWriteHdr 0x1FFF 0x12345678) := by
  decide +kernel
theorem test_decode_bus_read_hdr : decodeTableWord 16 0x8030 = some (.busReadHdr 0x30) := by decide +kernel

/-! ### Refusals by name (R70, R71, R77, R83, R84) -/

/-- The ends of R70's reserved ranges. -/
theorem test_reserved_opcodes :
    [0x00, 0x03, 0x0F, 0x12, 0x1F, 0x24, 0x2F, 0x34, 0x3F, 0x42, 0xFF].all
      (fun o => decide (host [o] = .error (.reservedOpcode o))) = true := by decide +kernel
/-- R70 counts 242 reserved codes. -/
theorem test_reserved_count :
    ((List.range 256).filter fun o => decide (BitVec.ofNat 8 o ∉ hostOpcodes)).length = 242 := by decide +kernel
theorem test_truncated : host [0x20, 0x00] = .error .truncated := by decide +kernel
theorem test_trailing : host [0x02, 0x00] = .error .trailing := by decide +kernel
theorem test_bad_bit : host [0x01, 0x07, 0x02, 0x01] = .error (.badBit 2) := by decide +kernel
theorem test_marker_needed : decodeRequest .profileT ⟨.busFrame, [0x20, 0x04]⟩ = .error .notCommandFrame := by decide +kernel
theorem test_header_reserved_bit : decodeRequest .profileT ⟨.busFrame, [0xC0, 0x04]⟩ = .error .reservedHeaderBits := by
  decide +kernel
/-- Clause-45 `OP = 0b10`, and `ST = 0b10` and `0b11` (R77). -/
theorem test_unused_mdio_codes :
    decodeTableWord 32 0x08000000 = none ∧ decodeTableWord 32 0x20000000 = none ∧ decodeTableWord 32 0x34000000 = none := by
  decide +kernel

/-- A word placed for the next step is run by it as the first instruction after reset (V-CTL-5, and INIT with `ports = 0`). -/
theorem test_step_runs_the_placed_word :
    nextState (step (State.reset.withFetchWord 8 0x21)) = nextState (exec (.regrd 0) State.reset)
      ∧ nextState (step (State.reset.withFetchWord 8 0x01)) = nextState (exec (.init 0 false 0) State.reset)
      ∧ nextState (step (State.reset.withFetchWord 16 0x8030)) = nextState (exec (.busReadHdr 0x30) State.reset) := by
  decide +kernel

/-! ## Instructions -/

/-- V-CTL-1, with three entries of V-CRC-1. -/
theorem test_init : (match exec (.init 0x07 true 2) State.reset with
    | .next t => decide (t.life = .idle ∧ t.cfg = some (cfgOf true 2) ∧ t.responses = [okResponse .empty])
      && (t.crcTable.map fun T => [crcLookup T 0x01, crcLookup T 0x80, crcLookup T 0xFF]) == some [0x07, 0x89, 0xF3]
    | _ => false) = true := by decide +kernel
/-- V-CTL-2, V-CTL-3, V-CTL-4. -/
theorem test_init_refused :
    seen (exec (.init 0x07 false 0) State.reset) = some (.uninit, [errorResponse (.invalidArg .variant)], [])
      ∧ seen (exec (.init 0x07 false 3) State.reset) = some (.uninit, [errorResponse (.invalidArg .variant)], [])
      ∧ seen (exec (.init 0x31 false 1) (ready true 2 [])) = some (.fault .fReinit, [], []) := by
  refine ⟨?_, ?_, ?_⟩ <;> decide +kernel
/-- V-CTL-7. -/
theorem test_deinit : nextState (exec .deinit (ready true 2 []))
    = some { State.reset with responses := [okResponse .empty] } := by decide +kernel
/-- V-CRC-2: two rows of another polynomial's table. -/
theorem test_crc_table : [0x01, 0x02, 0x80, 0xFF].map (crcLookup (crc8Table 0x31)) = [0x31, 0x62, 0x7A, 0xAC] := by
  decide +kernel
/-- V-CRC-3, V-CRC-4. -/
theorem test_crc8 :
    seen (exec (.crc8 (some digits) none) (ready true 2 [])) = done (okResponse (.crc 0xF4)) []
      ∧ seen (exec (.crc8 (some digits) (some 0xFF)) (ready true 2 [])) = done (okResponse (.crc 0xFB)) [] := by
  decide +kernel
/-- V-CRC-16, V-CTL-6. -/
theorem test_crc8_refused :
    seen (exec (.crc8 none none) (ready true 2 [])) = done (errorResponse (.invalidArg .null)) []
      ∧ seen (exec (.crc8 (some [0x41]) none) State.reset) = some (.fault .fUninit, [], []) := by decide +kernel
/-- V-CRC-13, V-CRC-14. -/
theorem test_crcchk :
    seen (exec (.crcchk (some [0xA0, 0x04, 0x12, 0x34, 0x56, 0x78]) 0x44 none) (ready true 2 []))
        = done (okResponse (.crcCheck true 0x44)) []
      ∧ seen (exec (.crcchk (some [0xA0, 0x04, 0x12, 0x34, 0x56, 0x78]) 0x45 none) (ready true 2 []))
        = done (okResponse (.crcCheck false 0x44)) [] := by decide +kernel
/-- V-RW-1, CRC on. -/
theorem test_regwr : seen (exec (.regwr 0x0004 0x12345678) (ready true 2 [answered (zeros 7)]))
    = done (okResponse .empty) [[0xA0, 0x04, 0x12, 0x34, 0x56, 0x78, 0x44]] := by decide +kernel
/-- V-RW-2, CRC off: the address is masked. -/
theorem test_regwr_masks : seen (exec (.regwr 0xFFFF 0xFFFFFFFF) (ready false 2 [answered (zeros 6)]))
    = done (okResponse .empty) [[0xBF, 0xFF, 0xFF, 0xFF, 0xFF, 0xFF]] := by decide +kernel
/-- V-RR-3. -/
theorem test_regrd : seen (exec (.regrd 0x0008) (ready true 2 [answered [0xFF, 0xFF, 0xFF, 0x12, 0x34, 0x56, 0x78]]))
    = done (okResponse (.value 0x12345678)) [[0x80, 0x08, 0, 0, 0, 0, 0]] := by decide +kernel
/-- V-RR-6. -/
theorem test_regrd_error : seen (exec (.regrd 0x0030) (ready false 2 [.answer (.err 5)]))
    = done ⟨3, some 5, none⟩ [[0x80, 0x30, 0, 0, 0, 0, 0]] := by decide +kernel
/-- V-RU-1, CRC on. -/
theorem test_regupd : seen (exec (.regupd 0x0010 0xFF 0x05) (ready true 2 [reads 0x0000AB12, answered (zeros 7)]))
    = done (okResponse .empty) [[0x80, 0x10, 0, 0, 0, 0, 0], [0xA0, 0x10, 0x00, 0x00, 0xAB, 0x05, 0x71]] := by
  decide +kernel
/-- V-RU-5. -/
theorem test_regupd_error : seen (exec (.regupd 0x0010 0xFF 0x05) (ready false 2 [.answer (.err 9)]))
    = done ⟨3, some 9, none⟩ [[0x80, 0x10, 0, 0, 0, 0, 0]] := by decide +kernel
/-- V-WF-1, V-WF-6. -/
theorem test_wfdec :
    seen (exec (.wfdec (some [0xA0, 0x04, 0x12, 0x34, 0x56, 0x78, 0x44])) (ready true 2 []))
        = done (okResponse (.writeFrame 0x0004 0x12345678 true true 0 true true)) []
      ∧ seen (exec (.wfdec (some [0xE0, 0x04, 0x12, 0x34, 0x56, 0x78, 0x32])) (ready true 2 []))
        = done (okResponse (.writeFrame 0x0004 0x12345678 true true 0x4000 true true)) [] := by decide +kernel
/-- V-WF-3, V-WF-5, V-WF-8. -/
theorem test_wfdec_reports :
    seen (exec (.wfdec (some [0xA1, 0x04, 0x12, 0x34, 0x56, 0x78, 0x44])) (ready true 2 []))
        = done (okResponse (.writeFrame 0x0104 0x12345678 true true 0 true false)) []
      ∧ seen (exec (.wfdec (some [0x80, 0x04, 0x12, 0x34, 0x56, 0x78])) (ready false 2 []))
        = done (okResponse (.writeFrame 0x0004 0x12345678 true false 0 false true)) []
      ∧ seen (exec (.wfdec (some [0xA0, 0x04, 0x12, 0x34, 0x56, 0x78, 0x44])) (ready false 2 []))
        = done (errorResponse (.invalidArg .len)) [] := by
  refine ⟨?_, ?_, ?_⟩ <;> decide +kernel
/-- V-MD-1, V-MD-10: one poll that is not done, then one that is; the operands are masked. -/
theorem test_c22rd :
    seen (exec (.c22rd 0x21 0x22) (ready false 2 [answered (zeros 6), reads 0x18220000, reads 0x98220283]))
      = done (okResponse (.data 0x0283))
        [[0xA0, 0x20, 0x18, 0x22, 0, 0], [0x80, 0x20, 0, 0, 0, 0, 0], [0x80, 0x20, 0, 0, 0, 0, 0]] := by decide +kernel
/-- V-MD-3. -/
theorem test_c22rd_times_out :
    (seen (exec (.c22rd 1 2) (ready false 2 (answered (zeros 6) :: List.replicate 4 (reads 0x18220000))))).map
        (fun r => (r.2.1, r.2.2.length)) = some ([⟨4, some 0, none⟩], 5) := by decide +kernel
/-- V-MD-2, CRC on (the CRC byte of section 2.4). -/
theorem test_c22wr : seen (exec (.c22wr 1 0 0x1234) (ready true 2 [answered (zeros 7), reads 0x94201234]))
    = done (okResponse .empty) [[0xA0, 0x20, 0x14, 0x20, 0x12, 0x34, 0x3E], [0x80, 0x20, 0, 0, 0, 0, 0]] := by
  decide +kernel
/-- V-MD-5. -/
theorem test_c45rd :
    seen (exec (.c45rd 0 0x1E 0x0010) (ready false 2
        [answered (zeros 6), reads 0x801E0010, answered (zeros 6), reads 0x8C1E00A5]))
      = done (okResponse (.data 0x00A5)) [[0xA0, 0x20, 0x00, 0x1E, 0x00, 0x10], [0x80, 0x20, 0, 0, 0, 0, 0],
        [0xA0, 0x21, 0x0C, 0x1E, 0x00, 0x00], [0x80, 0x21, 0, 0, 0, 0, 0]] := by decide +kernel
/-- V-MD-8. -/
theorem test_c45rd_times_out :
    (seen (exec (.c45rd 0 0x1E 0x0010) (ready false 2 ([answered (zeros 6), reads 0x801E0010, answered (zeros 6)]
        ++ List.replicate 4 (reads 0x0C1E0000))))).map (fun r => (r.2.1, r.2.2.length))
      = some ([⟨4, some 1, none⟩], 7) := by decide +kernel
/-- V-MD-6. -/
theorem test_c45wr :
    seen (exec (.c45wr 0 0x1E 0x0010 0x5678) (ready false 2
        [answered (zeros 6), reads 0x801E0010, answered (zeros 6), reads 0x841E5678]))
      = done (okResponse .empty) [[0xA0, 0x20, 0x00, 0x1E, 0x00, 0x10], [0x80, 0x20, 0, 0, 0, 0, 0],
        [0xA0, 0x21, 0x04, 0x1E, 0x56, 0x78], [0x80, 0x21, 0, 0, 0, 0, 0]] := by decide +kernel

/-- The frame of V-TX-1 to V-TX-3, as a FIFOTX on a port. -/
def txRequest (port : Byte) : Instr :=
  .fifotx port (some [0xFF, 0xFF, 0xFF, 0xFF, 0xFF, 0xFF]) (some [0x02, 0x00, 0x00, 0x00, 0x00, 0x01]) (some [0x08, 0x00])
    (some [0x41, 0x42])

/-- The Ethernet header and the payload of that frame. -/
def txBody : Bytes :=
  [0xFF, 0xFF, 0xFF, 0xFF, 0xFF, 0xFF, 0x02, 0x00, 0x00, 0x00, 0x00, 0x01, 0x08, 0x00, 0x41, 0x42]

/-- V-TX-1. -/
theorem test_fifotx :
    seen (exec (txRequest 0) (ready false 2 [reads 33, answered (zeros 6), answered (zeros 66), reads 0]))
      = done (okResponse .empty) [[0x80, 0x32, 0, 0, 0, 0, 0], [0xA0, 0x30, 0, 0, 0, 0x3E],
        [0xA0, 0x31, 0, 0] ++ txBody ++ zeros 46, [0x80, 0x08, 0, 0, 0, 0, 0]] := by decide +kernel
/-- V-TX-3 with CRC on, as V-TX-5: port 1, FIFO error, flush. -/
theorem test_fifotx_flushes :
    seen (exec (txRequest 1) (ready true 2
        [reads 34, answered (zeros 7), answered (zeros 66), reads 2, answered (zeros 7), answered (zeros 7)]))
      = done ⟨1, some 2, none⟩ [[0x80, 0x32, 0, 0, 0, 0, 0], [0xA0, 0x30, 0, 0, 0, 0x3F, 0x3C],
        [0xA0, 0x31, 0, 1, 0x72] ++ txBody ++ zeros 45, [0x80, 0x08, 0, 0, 0, 0, 0],
        [0xA0, 0x36, 0, 0, 0, 2, 0xC4], [0xA0, 0x36, 0, 0, 0, 0, 0xCA]] := by decide +kernel
/-- V-RX-4, and V-RX-6's length arithmetic on a frame of 17 bytes: the tail after the reported size is dropped. -/
theorem test_fiforx :
    seen (exec (.fiforx 1 (some 1500)) (ready false 2 [reads 17,
        answered ([1, 2, 3] ++ [0, 1] ++ [2, 0, 0, 0, 0, 1] ++ [2, 0, 0, 0, 0, 2] ++ [0x88, 0xB5] ++ [0x77] ++ [9, 9, 9])]))
      = done (okResponse (.frame [2, 0, 0, 0, 0, 1] [2, 0, 0, 0, 0, 2] [0x88, 0xB5] [0x77] 1))
        [[0x80, 0xC0, 0, 0, 0, 0, 0], [0x80, 0xC1, 0] ++ zeros 20] := by decide +kernel
/-- V-RX-2, V-RX-3, V-RX-11, V-RX-14. -/
theorem test_fiforx_stops :
    seen (exec (.fiforx 0 (some 1500)) (ready false 2 [reads 5])) = done (okResponse .noFrame) [[0x80, 0x90, 0, 0, 0, 0, 0]]
      ∧ seen (exec (.fiforx 0 (some 1500)) (ready false 2 [reads 15]))
        = some (.fault (.fRxShort 15), [], [[0x80, 0x90, 0, 0, 0, 0, 0]])
      ∧ seen (exec (.fiforx 0 (some 47)) (ready false 2 [reads 64])) = done ⟨2, some 5, none⟩ [[0x80, 0x90, 0, 0, 0, 0, 0]]
      ∧ seen (exec (.fiforx 0 (some 2000)) (ready false 2 [reads 1533]))
        = done ⟨2, some 4, none⟩ [[0x80, 0x90, 0, 0, 0, 0, 0]] := by
  refine ⟨?_, ?_, ?_, ?_⟩ <;> decide +kernel
/-- V-LEN-1, V-LEN-5, V-LEN-6, V-LEN-10, V-LEN-12 (frame lengths) and V-SP-3, V-SP-4, V-SP-6. -/
theorem test_lengths :
    [(false, 0), (false, 47), (false, 50), (true, 47), (true, 1515)].map (fun c => frameLength (ctx c.1 2) c.2)
        = [62, 63, 66, 64, 1532]
      ∧ noSpace 63 33 = true ∧ noSpace 63 34 = false ∧ noSpace 62 0 = true := by decide
/-- V-CW-2 on the bus, as the instruction of that word: one phase of slot 0. -/
theorem test_mdio_c22_read :
    seen (exec (.mdioC22Read true true 1 2 0) (ready false 2 [answered (zeros 6), reads 0x98220283]))
      = done (okResponse (.data 0x0283)) [[0xA0, 0x20, 0x18, 0x22, 0, 0], [0x80, 0x20, 0, 0, 0, 0, 0]] := by decide +kernel
/-- V-CW-1 on the bus. -/
theorem test_mdio_c22_write :
    seen (exec (.mdioC22Write false false 1 0 0x1234) (ready false 2 [answered (zeros 6), reads 0x94201234]))
      = done (okResponse .empty) [[0xA0, 0x20, 0x14, 0x20, 0x12, 0x34], [0x80, 0x20, 0, 0, 0, 0, 0]] := by decide +kernel
/-- V-CW-3 on the bus: the address phase of V-MD-5. -/
theorem test_mdio_c45_addr :
    seen (exec (.mdioC45Addr false false 0 0x1E 0x0010) (ready false 2 [answered (zeros 6), reads 0x801E0010]))
      = done (okResponse .empty) [[0xA0, 0x20, 0x00, 0x1E, 0x00, 0x10], [0x80, 0x20, 0, 0, 0, 0, 0]] := by decide +kernel
/-- V-CW-5 on the bus: the write phase of V-MD-6, on slot 1. -/
theorem test_mdio_c45_write :
    seen (exec (.mdioC45Write false false 0 0x1E 0x5678) (ready false 2 [answered (zeros 6), reads 0x841E5678]))
      = done (okResponse .empty) [[0xA0, 0x21, 0x04, 0x1E, 0x56, 0x78], [0x80, 0x21, 0, 0, 0, 0, 0]] := by decide +kernel
/-- V-CW-4 on the bus: the read phase of V-MD-5, on slot 1. -/
theorem test_mdio_c45_read :
    seen (exec (.mdioC45Read false false 0 0x1E 0) (ready false 2 [answered (zeros 6), reads 0x8C1E00A5]))
      = done (okResponse (.data 0x00A5)) [[0xA0, 0x21, 0x0C, 0x1E, 0x00, 0x00], [0x80, 0x21, 0, 0, 0, 0, 0]] := by
  decide +kernel
/-- V-RW-4's frame, CRC on. -/
theorem test_bus_write_hdr : seen (exec (.busWriteHdr 0x30 62) (ready true 2 [answered (zeros 7)]))
    = done (okResponse .empty) [[0xA0, 0x30, 0, 0, 0, 0x3E, 0x3B]] := by decide +kernel
/-- V-RR-1. -/
theorem test_bus_read_hdr : seen (exec (.busReadHdr 0x30) (ready false 2 [reads 0x3E]))
    = done (okResponse (.value 0x3E)) [[0x80, 0x30, 0, 0, 0, 0, 0]] := by decide +kernel

/-! ## The hypotheses of the statements hold together -/

/-- `C22RD 1, 2` on a ready block that has issued its write and waits for its first poll. -/
def polling (es : List Event) : State :=
  { ready false 2 es with
    life := .busy (.c22rd 1 2) 1 ⟨[zeros 6]⟩
    txbuf := [0xA0, 0x20, 0x18, 0x22, 0, 0]
    rxbuf := zeros 6
    history := [exchanged [0xA0, 0x20, 0x18, 0x22, 0, 0] (zeros 6)] }

/-- A string of seven bytes fits a write frame with CRC on (R85). -/
theorem write_fits (a : Nat) (v : W32) : Fits (zeros 7) (wframe (ctx true 2) a v) := by
  simp [Fits, wframe, wframeBase, ctx, cfgOf, Params.profileT]

theorem polling_sequencerInv (es : List Event) : SequencerInv (polling es) := by
  intro op phase locals h
  cases h
  have ht : transcript (progOf (.c22rd 1 2) (ctx false 2)) [zeros 6]
      = [exchanged [0xA0, 0x20, 0x18, 0x22, 0, 0] (zeros 6)] := by decide +kernel
  exact ⟨ctx false 2, [], rfl, ht.symm, rfl, rfl, _, _, rfl⟩

/-- In profile T a step takes up the next event. -/
theorem step_T {s : State} (h : s.params = .profileT) : step s = takeEvent s :=
  if_pos (h ▸ (by decide : Params.wf .profileT))

/-- In profile T a step whose event has a next state answers it. -/
theorem steps_T {s t : State} (h : s.params = .profileT) (ht : takeEvent s = .next t) : ∃ t, step s = .next t :=
  ⟨t, (step_T h).trans ht⟩

theorem witness_ResetLeavesEveryRegisterWithoutValue :
    (State.reset = State.reset ∨ ∃ p, State.reset = State.resetWith p)
      ∧ (State.resetWith { Params.profileT with taTx := 0xFF } = State.reset
        ∨ ∃ p, State.resetWith { Params.profileT with taTx := 0xFF } = State.resetWith p) :=
  ⟨.inl rfl, .inr ⟨_, rfl⟩⟩

/-- One step before INIT, one on a configured block, one of an operation in progress. -/
theorem witness_StepKeepsConfigurationInvariant :
    (ConfigInv State.reset ∧ ∃ t, step State.reset = .next t)
      ∧ (ConfigInv (ready true 2 []) ∧ ∃ t, step (ready true 2 []) = .next t)
      ∧ (ConfigInv (polling []) ∧ ∃ t, step (polling []) = .next t) :=
  ⟨⟨⟨rfl, rfl, rfl, rfl⟩, steps_T rfl rfl⟩, ⟨⟨_, rfl, rfl, .inr rfl⟩, steps_T rfl rfl⟩,
    ⟨⟨⟨_, rfl, rfl, .inr rfl⟩, rfl, by simp⟩, steps_T rfl rfl⟩⟩

theorem witness_StepKeepsBufferBound :
    BufferInv (polling []) ∧ ∃ t, step (polling []) = .next t := by
  refine ⟨⟨by decide, by decide, ?_⟩, steps_T rfl rfl⟩
  intro t ht
  rw [List.mem_singleton.mp ht]
  exact ⟨by decide, by intro rx h; cases h; rfl⟩

theorem witness_StepKeepsSequencerPosition :
    SequencerInv (polling []) ∧ ∃ t, step (polling []) = .next t := ⟨polling_sequencerInv [], steps_T rfl rfl⟩

theorem witness_StepKeepsResponsesLegal :
    ResponseInv { polling [] with responses := [okResponse .empty, errorResponse (.invalidOp 0)] }
      ∧ ∃ t, step { polling [] with responses := [okResponse .empty, errorResponse (.invalidOp 0)] } = .next t := by
  refine ⟨?_, steps_T rfl rfl⟩
  intro r hr
  simp only [List.mem_cons, List.not_mem_nil, or_false] at hr
  rcases hr with rfl | rfl <;> exact ⟨by decide, by decide⟩

theorem witness_StepOnlyAppendsToHistory : ∃ t, step (polling []) = .next t := steps_T rfl rfl

theorem witness_OnlyInitAndDeinitWriteConfiguration :
    ((Instr.regrd 0).isInit = false ∧ Instr.regrd 0 ≠ .deinit ∧ ∃ t, exec (.regrd 0) (ready true 1 []) = .next t)
      ∧ ((polling []).life = .busy (.c22rd 1 2) 1 ⟨[zeros 6]⟩ ∧ ∃ t, step (polling []) = .next t) :=
  ⟨⟨rfl, by simp, _, rfl⟩, rfl, steps_T rfl rfl⟩

theorem witness_StepRunsTheDecodedInstruction :
    (ready true 2 [.request ⟨.hostRequest, [0x21, 0, 4]⟩]).events = .request ⟨.hostRequest, [0x21, 0, 4]⟩ :: []
      ∧ (ready true 2 []).params.wf
      ∧ decodeRequest (ready true 2 []).params ⟨.hostRequest, [0x21, 0, 4]⟩ = .ok (.regrd 4) :=
  ⟨rfl, by decide, by decide +kernel⟩

/-- The five clauses; the fourth at both ends of its range, with CRC on (`header_len = 3`: 7 and 16, V-RX-8). -/
theorem witness_FaultsAreEnteredAndSticky :
    (State.reset.life = .uninit ∧ Instr.deinit.isInit = false)
      ∧ (ready true 2 []).life = .idle
      ∧ (polling []).life = .busy (.c22rd 1 2) 1 ⟨[zeros 6]⟩
      ∧ (∀ fs ∈ [(7 : W32), 16], Ready (ready true 2 [reads fs]) (ctx true 2) ∧ (1 : Byte).toNat < (cfgOf true 2).ports.toNat
        ∧ Fits ([0xFF, 0xFF, 0xFF] ++ be32 fs) (rframe .profileT 0xC0)
        ∧ headerLen (ctx true 2) + 4 ≤ (rdecode .profileT ([0xFF, 0xFF, 0xFF] ++ be32 fs)).toNat
        ∧ (rdecode .profileT ([0xFF, 0xFF, 0xFF] ++ be32 fs)).toNat < headerLen (ctx true 2) + 14)
      ∧ (({ State.reset with life := .fault .fReinit } : State).life = .fault .fReinit ∧ State.reset.params.wf) := by
  refine ⟨⟨rfl, rfl⟩, rfl, rfl, ?_, rfl, by decide⟩
  intro fs h
  simp only [List.mem_cons, List.not_mem_nil, or_false] at h
  rcases h with rfl | rfl <;> exact ⟨ready_ready .., by decide, rfl, by decide +kernel, by decide +kernel⟩

theorem witness_ReentrantRequestFaults :
    ((polling [.request ⟨.hostRequest, [0xFF]⟩]).life = .busy (.c22rd 1 2) 1 ⟨[zeros 6]⟩
        ∧ (polling [.request ⟨.hostRequest, [0xFF]⟩]).events = [.request ⟨.hostRequest, [0xFF]⟩]
        ∧ (polling []).params.wf)
      ∧ (Ready (ready false 1 [.request ⟨.hostRequest, [0x02]⟩]) (ctx false 1) ∧ (Instr.regrd 0).isInit = false
        ∧ Instr.regrd 0 ≠ .deinit ∧ Awaiting (progOf (.regrd 0) (ctx false 1))) :=
  ⟨⟨rfl, rfl, by decide⟩, ready_ready .., rfl, by simp, _, _, rfl⟩

/-- The ends of the reserved ranges, on an idle block and before INIT (V-CTL-9, V-CTL-10). -/
theorem witness_ReservedOpcodeIsAnsweredInvalidOp :
    ((0x00 : Byte) ∉ hostOpcodes ∧ (0x42 : Byte) ∉ hostOpcodes ∧ (0xFF : Byte) ∉ hostOpcodes)
      ∧ (ready true 2 [.request ⟨.hostRequest, [0x42, 1]⟩]).life = .idle
      ∧ ({ State.reset with events := [.request ⟨.hostRequest, [0xFF]⟩] } : State).life = .uninit
      ∧ (ready true 2 []).params.wf ∧ State.reset.params.wf :=
  ⟨by decide, rfl, rfl, by decide, by decide⟩

theorem witness_AcceptedOperationIsInProgress :
    Ready (ready true 2 []) (ctx true 2) ∧ (Instr.c22rd 0 0).isInit = false ∧ Instr.c22rd 0 0 ≠ .deinit
      ∧ Awaiting (progOf (.c22rd 0 0) (ctx true 2)) ∧ (ready true 2 []).events = [] :=
  ⟨ready_ready .., rfl, by simp, ⟨_, _, rfl⟩, rfl⟩

/-- An instruction that ends, one that stays in progress, and one that faults; then a step in which the operation in progress
ends, one after which it is still in progress, and one in which it faults. -/
theorem witness_OneResponsePerFinishedOperation :
    (∃ t, exec (.crc8 none none) (ready true 2 []) = .next t ∧ t.life = .idle)
      ∧ (∃ t, exec .deinit (ready true 2 []) = .next t ∧ t.life = .uninit)
      ∧ (∃ t, exec (.regrd 0) (ready true 2 []) = .next t ∧ ∃ op n l, t.life = .busy op n l)
      ∧ (∃ t, exec (.regrd 0) State.reset = .next t ∧ ∃ n, t.life = .fault n)
      ∧ (∃ t, step (polling [reads 0x98220283]) = .next t ∧ t.life = .idle)
      ∧ (∃ t, step (polling [reads 0x18220000]) = .next t ∧ ∃ op n l, t.life = .busy op n l)
      ∧ (∃ t, step (polling [.request ⟨.hostRequest, []⟩]) = .next t ∧ ∃ n, t.life = .fault n) :=
  ⟨⟨_, rfl, rfl⟩, ⟨_, rfl, rfl⟩, ⟨_, rfl, _, _, _, rfl⟩, ⟨_, rfl, _, rfl⟩, ⟨_, step_T rfl, rfl⟩,
    ⟨_, step_T rfl, _, _, _, rfl⟩, ⟨_, step_T rfl, _, rfl⟩⟩

/-- A poll that does not show done leaves the operation in progress. -/
theorem witness_PhaseCountsTransactions :
    (nextState (step (polling [reads 0x18220000]))).map (fun t => (t.life, t.history.length))
      = some (.busy (.c22rd 1 2) 2 ⟨[zeros 6, [0xFF, 0xFF, 0xFF, 0x18, 0x22, 0, 0]]⟩, 2) := by decide +kernel

/-- The first of two answers leaves the operation in progress, and the first of two answers ends it. -/
theorem witness_AnswersTogetherOrOneByOne :
    (polling []).params.wf ∧ (SequencerInv (polling [reads 0x18220000, reads 0x98220283])
        ∧ ∃ u n l, nextState (takeEvent (polling [reads 0x18220000])) = some u ∧ u.life = .busy (.c22rd 1 2) n l)
      ∧ (SequencerInv (polling [reads 0x98220283, reads 0])
        ∧ ∃ u, nextState (takeEvent (polling [reads 0x98220283])) = some u ∧ u.life = .idle) :=
  ⟨by decide, ⟨polling_sequencerInv _, _, _, _, rfl, rfl⟩, polling_sequencerInv _, _, rfl, rfl⟩

/-- After one answered transaction of REGUPD (V-RU-6). -/
theorem witness_BusErrorEndsTheOperation :
    Ready (ready false 2 [reads 0xAB12, .answer (.err 9)]) (ctx false 2)
      ∧ (∀ t ∈ List.zip (transcript (progOf (.regupd 0x10 0xFF 5) (ctx false 2)) [[0, 0, 0] ++ be32 0xAB12])
          [[0, 0, 0] ++ be32 0xAB12], Fits t.2 t.1.tx)
      ∧ (transcript (progOf (.regupd 0x10 0xFF 5) (ctx false 2)) [[0, 0, 0] ++ be32 0xAB12]).length = 1
      ∧ ∃ tx rest, progAfter (progOf (.regupd 0x10 0xFF 5) (ctx false 2)) [[0, 0, 0] ++ be32 0xAB12] = .xfer tx rest := by
  refine ⟨ready_ready .., ?_, rfl, _, _, rfl⟩
  intro t ht
  rw [List.mem_singleton.mp ht]
  rfl

/-- An instruction that ran to its end from an idle block: REGRD with its one transaction. -/
theorem witness_TransactionsAreBounded :
    ∃ t, exec (.regrd 0) (ready true 2 [.answer (.err 0)]) = .next t ∧ (ready true 2 []).life = .idle ∧ t.life = .idle :=
  ⟨_, rfl, rfl, rfl⟩

theorem witness_OperationInProgressEnds :
    (polling []).params.wf ∧ (polling []).life = .busy (.c22rd 1 2) 1 ⟨[zeros 6]⟩ ∧ (polling []).events = [] :=
  ⟨by decide, rfl, rfl⟩

/-- Both legal variants, the illegal ones beside them and at the end of the byte, and a configured block. -/
theorem witness_InitConfiguresTheBlock :
    (State.reset.life = .uninit ∧ ((1 : Byte) = 1 ∨ (1 : Byte) = 2) ∧ ((2 : Byte) = 1 ∨ (2 : Byte) = 2))
      ∧ (∀ ports ∈ [(0 : Byte), 3, 0xFF], ports ≠ 1 ∧ ports ≠ 2) ∧ (ready true 2 []).life = .idle :=
  ⟨⟨rfl, by decide, by decide⟩, by decide, rfl⟩

/-- A state for each clause, and the three next states of the last one. -/
theorem witness_DeinitReleasesTheBlock : State.reset.life = .uninit ∧
    (ready false 1 []).life = .idle ∧ ∃ t u v, exec .deinit (ready false 1 []) = .next t
      ∧ exec (.init 0x31 true 2) t = .next u
      ∧ exec (.init 0x31 true 2) (State.resetWith (ready false 1 []).params) = .next v :=
  ⟨rfl, rfl, _, _, _, rfl, rfl, rfl⟩

theorem witness_Crc8ReturnsTheCrc : Ready (ready true 2 []) (ctx true 2) := ready_ready ..

/-- The CRC of R114's example is a value that the second clause's hypothesis takes. -/
theorem witness_CrcchkComparesTheCrc : Ready (ready true 2 []) (ctx true 2)
    ∧ (0x44 : Byte) = crc8 (ctx true 2).table [0xA0, 0x04, 0x12, 0x34, 0x56, 0x78] (Option.getD none (ctx true 2).p.crcInit) :=
  ⟨ready_ready .., by decide +kernel⟩

/-- The first bit of the first byte and the last bit of the last one. -/
theorem witness_CrcDetectsEverySingleBitError :
    (0x07 : Byte) ≠ 0 ∧ (0 < [(0x41 : Byte), 0x42].length ∧ 0 < 8) ∧ (1 < [(0x41 : Byte), 0x42].length ∧ 7 < 8) := by decide

theorem witness_RegwrIsOneWriteTransaction :
    Ready (ready true 2 [answered (zeros 7)]) (ctx true 2) ∧ Fits (zeros 7) (wframe (ctx true 2) (0xFFFF : W16).toNat 1)
      ∧ Ready (ready true 2 [.answer (.err 5)]) (ctx true 2) := ⟨ready_ready .., write_fits .., ready_ready ..⟩

theorem witness_RegrdReturnsTheValueBytes :
    Ready (ready true 2 [reads 7]) (ctx true 2) ∧ [(0xFF : Byte), 0xFF, 0xFF].length = (ctx true 2).p.cmdHdrBytes + 1
      ∧ (be32 7).length = (ctx true 2).p.regBytes
      ∧ Ready (ready true 2 [.answer (.err 5)]) (ctx true 2) := ⟨ready_ready .., rfl, rfl, ready_ready ..⟩

theorem witness_RegupdReadsMergesAndWrites :
    Ready (ready true 2 [reads 7, answered (zeros 7)]) (ctx true 2)
      ∧ Fits ([0xFF, 0xFF, 0xFF] ++ be32 7) (rframe .profileT 0x10)
      ∧ Fits (zeros 7) (wframe (ctx true 2) 0x10 ((7 &&& ~~~0) ||| (0xFFFFFFFF &&& 0)))
      ∧ Ready (ready true 2 [reads 7, .answer (.err 9)]) (ctx true 2)
      ∧ Ready (ready true 2 [.answer (.err 9)]) (ctx true 2) :=
  ⟨ready_ready .., rfl, write_fits .., ready_ready .., ready_ready ..⟩

/-- A frame with a CRC byte, one without, and two frames of a wrong length. The header `0xE004` of V-WF-6 has the reserved
bits `0x4000`. -/
theorem witness_WfdecReportsEveryField :
    (Ready (ready true 2 []) (ctx true 2) ∧ [(0xA0 : Byte), 4].length = (ctx true 2).p.cmdHdrBytes
        ∧ [(1 : Byte), 2, 3, 4].length = (ctx true 2).p.regBytes ∧ [(0x44 : Byte)].length = (ctx true 2).cfg.crcEn.toNat)
      ∧ (Ready (ready false 2 []) (ctx false 2) ∧ ([] : Bytes).length = (ctx false 2).cfg.crcEn.toNat)
      ∧ ((zeros 6).length ≠ (ctx true 2).p.cmdHdrBytes + (ctx true 2).p.regBytes + (ctx true 2).cfg.crcEn.toNat
        ∧ (zeros 7).length ≠ (ctx false 2).p.cmdHdrBytes + (ctx false 2).p.regBytes + (ctx false 2).cfg.crcEn.toNat)
      ∧ ∀ i, Nat.testBit 0x4000 i = (Nat.testBit 0xE004 i && decide (13 ≤ i ∧ i ≠ 15 ∧ i ≠ 13)) := by
  refine ⟨⟨ready_ready .., rfl, rfl, rfl⟩, ⟨ready_ready .., rfl⟩, ⟨by decide, by decide⟩, fun i => ?_⟩
  rcases Nat.lt_or_ge i 16 with h | h
  · have key : ∀ j : Fin 16, Nat.testBit 0x4000 j.val
        = (Nat.testBit 0xE004 j.val && decide (13 ≤ j.val ∧ j.val ≠ 15 ∧ j.val ≠ 13)) := by decide
    exact key ⟨i, h⟩
  · have hi : 2 ^ 16 ≤ 2 ^ i := Nat.pow_le_pow_right (by decide) h
    rw [Nat.testBit_lt_two_pow (show 0x4000 < 2 ^ i by omega), Nat.testBit_lt_two_pow (show 0xE004 < 2 ^ i by omega)]
    rfl

/-- V-WF-2's frame: CRC on, and the last byte not the CRC. -/
theorem witness_WfdecInvertsTheWriteFrame :
    (ctx true 2).p.wf ∧ 4 ≤ (ctx true 2).p.regBytes ∧ Ready (ready true 2 []) (ctx true 2) ∧ (ctx true 2).cfg.crcEn = true
      ∧ (0x45 : Byte) ≠ crc8 (ctx true 2).table (wframeBase (ctx true 2).p 0x0004 0x12345678) (ctx true 2).p.crcInit :=
  ⟨by decide, by decide, ready_ready .., rfl, by decide +kernel⟩

/-- A poll's string that shows `TRDONE` and one that does not, on either slot. -/
theorem poll_strings (crc : Bool) (slot : Fin 2) :
    Done (ctx crc 2) slot [0, 0, 0, 0x80, 0, 0, 0] ∧ NotDone (ctx crc 2) slot [0, 0, 0, 0x7F, 0xFF, 0xFF, 0xFF] := by
  revert crc slot
  simp only [Done, NotDone, Fits]
  decide +kernel

/-- A phase that runs to completion at its first poll and at its last allowed one, and one that fails in each way, with
either control word length. -/
theorem phases (slot : Fin 2) (cw : W32) :
    (∃ evs ts w, PhaseRuns (ctx false 2) slot cw evs ts w ∧ ts.length = 2)
      ∧ (∃ evs ts w, PhaseRuns (ctx false 2) slot cw evs ts w ∧ ts.length = 5)
      ∧ (∃ evs ts e, PhaseFails (ctx false 2) slot cw evs ts (.busError e) ∧ ts.length = 1)
      ∧ (∃ evs ts e, PhaseFails (ctx false 2) slot cw evs ts (.busError e) ∧ ts.length = 5)
      ∧ (∃ evs ts, PhaseFails (ctx false 2) slot cw evs ts (.timeout slot) ∧ ts.length = 5) := by
  have hw : Fits (zeros 6) (wframe (ctx false 2) (portAddr (ctx false 2).p.mdioAcc slot.val) cw) := by
    simp [Fits, wframe, wframeBase, ctx, cfgOf, Params.profileT]
  have hd := (poll_strings false slot).1
  have hn : ∀ n, ∀ rx ∈ List.replicate n [0, 0, 0, 0x7F, 0xFF, 0xFF, 0xFF], NotDone (ctx false 2) slot rx :=
    fun n rx h => (List.eq_of_mem_replicate h) ▸ (poll_strings false slot).2
  exact ⟨⟨_, _, _, .completes _ [] _ hw (by decide) (hn 0) hd, rfl⟩,
    ⟨_, _, _, .completes _ (List.replicate 3 _) _ hw (by decide) (hn 3) hd, rfl⟩,
    ⟨_, _, _, .writeError 3, rfl⟩, ⟨_, _, _, .pollError _ (List.replicate 3 _) 3 hw (by decide) (hn 3), rfl⟩,
    ⟨_, _, .timesOut _ (List.replicate 4 _) hw rfl (hn 4), rfl⟩⟩

/-- The hypotheses of a one-phase statement: a ready block whose events begin with a phase's. -/
def OnePhase (slot : Fin 2) (cw : W32) : Prop :=
  (∃ evs ts w, PhaseRuns (ctx false 2) slot cw evs ts w ∧ Ready (ready false 2 (evs ++ [])) (ctx false 2))
    ∧ ∃ evs ts st, PhaseFails (ctx false 2) slot cw evs ts st ∧ Ready (ready false 2 (evs ++ [])) (ctx false 2)

theorem onePhase (slot : Fin 2) (cw : W32) : OnePhase slot cw := by
  obtain ⟨⟨evs, ts, w, h, -⟩, -, ⟨evs', ts', e, h', -⟩, -⟩ := phases slot cw
  exact ⟨⟨evs, ts, w, h, ready_ready ..⟩, evs', ts', _, h', ready_ready ..⟩

/-- The hypotheses of a two-phase statement, in each of its three clauses. -/
def TwoPhases (cw1 cw2 : W32) : Prop :=
  ∃ evs1 ts1 w1, PhaseRuns (ctx false 2) 0 cw1 evs1 ts1 w1
    ∧ (∃ evs2 ts2 w, PhaseRuns (ctx false 2) 1 cw2 evs2 ts2 w
      ∧ Ready (ready false 2 (evs1 ++ (evs2 ++ []))) (ctx false 2))
    ∧ (∃ evs2 ts2 st, PhaseFails (ctx false 2) 1 cw2 evs2 ts2 st
      ∧ Ready (ready false 2 (evs1 ++ (evs2 ++ []))) (ctx false 2))
    ∧ ∃ evs ts st, PhaseFails (ctx false 2) 0 cw1 evs ts st ∧ Ready (ready false 2 (evs ++ [])) (ctx false 2)

theorem twoPhases (cw1 cw2 : W32) : TwoPhases cw1 cw2 := by
  obtain ⟨⟨evs1, ts1, w1, h1, -⟩, -, ⟨e1, t1, x1, f1, -⟩, -⟩ := phases 0 cw1
  obtain ⟨⟨evs2, ts2, w2, h2, -⟩, -, -, -, ⟨e2, t2, f2, -⟩⟩ := phases 1 cw2
  exact ⟨evs1, ts1, w1, h1, ⟨evs2, ts2, w2, h2, ready_ready ..⟩, ⟨e2, t2, _, f2, ready_ready ..⟩,
    e1, t1, _, f1, ready_ready ..⟩

theorem witness_C22rdRunsOnePhase : OnePhase 0 (mdioCw (ctx false 2).p.mdioLayout .c22Read 1 2 0) := onePhase ..
theorem witness_C22wrRunsOnePhase : OnePhase 0 (mdioCw (ctx false 2).p.mdioLayout .c22Write 1 0 0x1234) := onePhase ..
theorem witness_C45rdRunsTwoPhases :
    TwoPhases (mdioCw (ctx false 2).p.mdioLayout .c45Addr 0 0x1E 0x10) (mdioCw (ctx false 2).p.mdioLayout .c45Read 0 0x1E 0) :=
  twoPhases ..
theorem witness_C45wrRunsTwoPhases :
    TwoPhases (mdioCw (ctx false 2).p.mdioLayout .c45Addr 0 0x1E 0x10)
      (mdioCw (ctx false 2).p.mdioLayout .c45Write 0 0x1E 0x5678) := twoPhases ..
theorem witness_ControlWordsRunOnePhase :
    OnePhase 0 (mdioCw (ctx false 2).p.mdioLayout .c45Addr 0x1F 0x1F 0xFFFF)
      ∧ OnePhase 1 (mdioCw (ctx false 2).p.mdioLayout .c45Read 0 0 0) := ⟨onePhase .., onePhase ..⟩

/-- C45RD and C45WR that return OK on a ready block (V-MD-5, V-MD-6). -/
theorem witness_Clause45OkMeansTwoWritesInOrder :
    (nextState (exec (.c45rd 0 0x1E 0x0010) (ready false 2
        [answered (zeros 6), reads 0x801E0010, answered (zeros 6), reads 0x8C1E00A5]))).map State.responses
        = some [okResponse (.data 0x00A5)]
      ∧ (nextState (exec (.c45wr 0 0x1E 0x0010 0x5678) (ready false 2
        [answered (zeros 6), reads 0x801E0010, answered (zeros 6), reads 0x841E5678]))).map State.responses
        = some [okResponse .empty] := by decide +kernel

/-- One set of arguments for each outcome: a port at the bound, one absent string, a short and a long one, and the shortest
payload that is too long (V-TX-8, V-TX-9, V-TX-10, V-TX-12). -/
theorem witness_FifotxChecksItsArgumentsInOrder :
    Ready (ready false 2 []) (ctx false 2)
      ∧ (ctx false 2).cfg.ports.toNat ≤ (2 : Byte).toNat
      ∧ (1 : Byte).toNat < (ctx false 2).cfg.ports.toNat
      ∧ ¬ ((zeros 5).length = 6 ∧ (zeros 6).length = 6 ∧ (zeros 2).length = 2)
      ∧ ¬ ((zeros 6).length = 6 ∧ (zeros 6).length = 6 ∧ (zeros 3).length = 2)
      ∧ (ctx false 2).p.bufLen < (ctx false 2).p.cmdHdrBytes + alignUp (frameLength (ctx false 2) (zeros 1517).length) 4 := by
  refine ⟨ready_ready .., by decide, by decide, by decide, by decide, ?_⟩
  simp only [zeros_length]
  decide

/-- The longest payload that fits (V-TX-13), with the least space that admits it and the one below; both states of the
status bit. -/
theorem witness_FifotxTransmitsTheFrame :
    Ready (ready false 2 []) (ctx false 2) ∧ (1 : Byte).toNat < (ctx false 2).cfg.ports.toNat
      ∧ (zeros 6).length = 6 ∧ (zeros 2).length = 2
      ∧ frameLength (ctx false 2) (zeros 1516).length = 1532 ∧ (ctx false 2).p.cmdHdrBytes + alignUp 1532 4 ≤ (ctx false 2).p.bufLen
      ∧ (∀ v : W32, Fits ([0, 0, 0] ++ be32 v) (rframe .profileT 0x32))
      ∧ ((1532 : Int) > 2 * (((rdecode .profileT ([0, 0, 0] ++ be32 767)).toNat : Int) - 2))
      ∧ ((1532 : Int) ≤ 2 * (((rdecode .profileT ([0, 0, 0] ++ be32 768)).toNat : Int) - 2))
      ∧ (rdecode .profileT ([0, 0, 0] ++ be32 0xFFFFFFFD)).getLsbD 1 = false
      ∧ (rdecode .profileT ([0, 0, 0] ++ be32 2)).getLsbD 1 = true
      ∧ Fits (zeros 6) (wframe (ctx false 2) 0x30 1532)
      ∧ Fits (zeros 1534) (txframe (ctx false 2) 1 (zeros 6) (zeros 6) (zeros 2) (zeros 1516))
      ∧ Fits (zeros 6) (wframe (ctx false 2) 0x36 2) := by
  refine ⟨ready_ready .., by decide, rfl, rfl, ?_, by decide, fun v => ?_, by decide +kernel, by decide +kernel,
    by decide +kernel, by decide +kernel, rfl, ?_, rfl⟩
  · rw [zeros_length]; decide
  · simp [Fits, rframe, Params.profileT]
  · simp [Fits, txframe, txOpening, crcSuffix, ctx, cfgOf, frameLength, headerLen, txPad, alignUp, Params.profileT]

/-- The three outcomes at the ends of their ranges (V-RX-2, V-RX-14, V-RX-11), CRC off. -/
theorem witness_FiforxStopsBeforeTheFrame :
    Ready (ready false 2 []) (ctx false 2) ∧ (ctx false 2).cfg.ports.toNat ≤ (2 : Byte).toNat
      ∧ (1 : Byte).toNat < (ctx false 2).cfg.ports.toNat
      ∧ (∀ v : W32, Fits ([0, 0, 0] ++ be32 v) (rframe .profileT 0x90))
      ∧ (5 < headerLen (ctx false 2) + 4 ∧ ¬ 6 < headerLen (ctx false 2) + 4)
      ∧ (headerLen (ctx false 2) + 14 ≤ 1533
        ∧ (ctx false 2).p.bufLen < (ctx false 2).p.cmdHdrBytes + 1 + alignUp 1533 4)
      ∧ (headerLen (ctx false 2) + 14 ≤ 64 ∧ (ctx false 2).p.cmdHdrBytes + 1 + alignUp 64 4 ≤ (ctx false 2).p.bufLen
        ∧ (47 : W32).toNat < 64 - headerLen (ctx false 2) - 14) := by
  refine ⟨ready_ready .., by decide, by decide, fun v => ?_, by decide, by decide, by decide⟩
  simp [Fits, rframe, Params.profileT]

/-- The shortest frame with an empty payload (V-RX-4) and the longest one (V-RX-13), each with just enough capacity. -/
theorem witness_FiforxDeliversTheFrame :
    ∀ fs ∈ [(16 : W32), 1532], (ctx false 2).p.wf ∧ Ready (ready false 2 []) (ctx false 2) ∧ (0 : Byte).toNat < (ctx false 2).cfg.ports.toNat
      ∧ Fits ([0, 0, 0] ++ be32 fs) (rframe .profileT 0x90)
      ∧ fs.toNat = (rdecode .profileT ([0, 0, 0] ++ be32 fs)).toNat
      ∧ headerLen (ctx false 2) + 14 ≤ fs.toNat
      ∧ (ctx false 2).p.cmdHdrBytes + 1 + alignUp fs.toNat 4 ≤ (ctx false 2).p.bufLen
      ∧ fs.toNat - headerLen (ctx false 2) - 14 ≤ (fs - 16).toNat
      ∧ (zeros 3).length = (ctx false 2).p.cmdHdrBytes + 1 ∧ (zeros 2).length = headerLen (ctx false 2)
      ∧ (zeros (fs - 16).toNat).length = fs.toNat - headerLen (ctx false 2) - 14
      ∧ (zeros 0).length = alignUp fs.toNat 4 - fs.toNat := by
  intro fs h
  simp only [List.mem_cons, List.not_mem_nil, or_false] at h
  rcases h with rfl | rfl <;>
    exact ⟨by decide, ready_ready .., by decide, rfl, by decide +kernel, by decide, by decide, by decide, rfl, rfl,
      by simp; decide, by decide⟩

theorem witness_LargestFramesThatFitTheBuffer :
    (ctx true 2).p.wf ∧ (ctx true 2).p.sourceValues ∧ 46 + headerLen (ctx true 2) + 14 ≤ 4 * (((ctx true 2).p.bufLen - (ctx true 2).p.cmdHdrBytes) / 4) := by
  decide

/-- The shortest size, with strings that differ in the header and in the tail. -/
theorem witness_ReceiveIgnoresHeaderAndTail :
    (ctx true 2).p.wf ∧ headerLen (ctx true 2) + 14 ≤ 17 ∧ 17 ≤ (zeros 20).length ∧ ([7, 7, 7] ++ zeros 14 ++ [7, 7, 7]).length = (zeros 20).length
      ∧ ∀ i, headerLen (ctx true 2) ≤ i → i < 17 → (zeros 20)[i]? = ([7, 7, 7] ++ zeros 14 ++ [7, 7, 7])[i]? := by
  refine ⟨by decide, by decide, by decide, by decide, fun i h1 h2 => ?_⟩
  have key : ∀ j : Fin 17, 3 ≤ j.val → (zeros 20)[j.val]? = ([7, 7, 7] ++ zeros 14 ++ [7, 7, 7] : Bytes)[j.val]? := by decide
  exact key ⟨i, h2⟩ h1

theorem witness_CommandHeadersRunOneTransaction :
    Ready (ready true 2 [answered (zeros 7)]) (ctx true 2) ∧ Fits (zeros 7) (wframe (ctx true 2) 0x1FFF 0)
      ∧ Fits (zeros 7) (rframe .profileT 0x1FFF) ∧ Ready (ready true 2 [.answer (.err 1)]) (ctx true 2) :=
  ⟨ready_ready .., write_fits .., rfl, ready_ready ..⟩

theorem witness_CommandHeaderBits : Params.wf .profileT ∧ Params.profileT.cmdHdrBytes = 2 := by decide
theorem witness_RegisterFrameBytes : (ctx true 2).p.cmdHdrBytes = 2 ∧ (ctx true 2).p.regBytes = 4 := ⟨rfl, rfl⟩
theorem witness_TransmitLengthsMeetTheMinimum : (ctx true 2).p.sourceValues := by decide
theorem witness_BusTransactionLengths : (ctx true 2).p.sourceValues ∧ (zeros 6).length = 6 ∧ (zeros 2).length = 2 := by decide
theorem witness_ControlWordFields : MdioLayout.wf .r76 := by decide
/-- Either port, with profile T's addresses. -/
theorem witness_FifoTransferBytes : (ctx true 2).p.cmdHdrBytes = 2 ∧ (ctx true 2).p.sourceValues
    ∧ (ctx true 2).p.txDataAddr.at1 = 0x31 ∧ (ctx true 2).p.rxDataAddr.at1 = 0xC1
    ∧ (zeros 6).length = 6 ∧ (zeros 2).length = 2 := by decide
/-- Parameters that R7 allows, and parameters with the marker in the address field. -/
theorem witness_ParametersAreChecked : Params.wf .profileT ∧ ¬ Params.wf { Params.profileT with cdBit := 12 }
    ∧ (State.resetWith { Params.profileT with cdBit := 12 }).params = { Params.profileT with cdBit := 12 } := by decide

theorem witness_DecodeInvertsEncode :
    Params.wf .profileT ∧ wellFormed .profileT (.busReadHdr 0x1FFF) = true
      ∧ wellFormed .profileT (.fifotx 0xFF none (some []) (some [1]) none) = true := by decide

theorem witness_EncodeInvertsDecode :
    Params.wf .profileT ∧ decodeRequest .profileT ⟨.hostRequest, [0x02]⟩ = .ok .deinit
      ∧ decodeRequest .profileT ⟨.busFrame, [0x9F, 0xFF]⟩ = .ok (.busReadHdr 0x1FFF) := by
  refine ⟨by decide, ?_, ?_⟩ <;> decide +kernel

/-! ## Textual forms (R86: its own example, and a pseudo-operation of each shape) -/

theorem test_assembly_regset :
    writeInstr (.regset 4 0x20) = some "REGUPD 0x0004, 0x00000020, 0x00000020" := by decide +kernel

theorem test_assembly_crc8z :
    writeInstr (.crc8z (some [0x41, 0x42])) = some "CRC8 [0x41, 0x42], 0x00" := by decide +kernel

end Sys2Proof.Tests
end

