-- ==== Sys2Proof/Proofs/Encoding.lean ====
section
/-! SUPPORT. The encodings of spec/30_encoding.md: the command header bit by bit (R71), the register frames (R72, R73) and the
FIFO transfers (R81, R82) byte by byte, and the lengths of all four (R85). -/

namespace Sys2Proof.Laws.Encoding

open Machine

/-! ## The command header (R71) -/

/-- A one-bit field placed at bit `k` has that bit and no other. -/
theorem testBit_toNat_shiftLeft (b : Bool) (k i : Nat) : (b.toNat <<< k).testBit i = (decide (i = k) && b) := by
  have hplace : (decide (k ≤ i) && decide (i - k = 0)) = decide (i = k) := by
    rw [← Bool.decide_and]
    exact decide_eq_decide.2 (by omega)
  rw [Nat.testBit_shiftLeft, Nat.testBit_bool_toNat, ← Bool.and_assoc, hplace]

/-- The three fields of the header, whether or not they overlap. -/
theorem testBit_hdr (p : Params) (a i : Nat) (dir : Dir) :
    (hdr p a dir).testBit i = ((a.testBit i && decide (i < p.addrWidth)) || (decide (i = p.cdBit) && p.cdVal)
      || (decide (i = p.rwBit) && dirBit p dir)) := by
  simp only [hdr, addrMask, Nat.testBit_or, Nat.testBit_and, Nat.testBit_two_pow_sub_one, testBit_toNat_shiftLeft]

/-- R7 keeps the marker and the direction out of the address field and apart from each other, so each bit is of one field. -/
theorem testBit_hdr_of_wf {p : Params} (hp : p.wf) (a i : Nat) (dir : Dir) :
    (hdr p a dir).testBit i
      = if i < p.addrWidth then a.testBit i else if i = p.cdBit then p.cdVal
        else if i = p.rwBit then dirBit p dir else false := by
  obtain ⟨-, hne, ⟨hcd, -⟩, ⟨hrw, -⟩, -⟩ := hp
  rw [testBit_hdr]
  split_ifs with haddr hmark hdir
  · have hnc : i ≠ p.cdBit := by omega
    have hnr : i ≠ p.rwBit := by omega
    simp [haddr, hnc, hnr]
  · subst hmark
    simp [haddr, hne]
  · subst hdir
    simp [haddr, hmark]
  · simp [haddr, hmark, hdir]

/-- With R7's parameters the header fits the bytes it is sent in. -/
theorem hdr_lt {p : Params} (hp : p.wf) (a : Nat) (dir : Dir) : hdr p a dir < 2 ^ (8 * p.cmdHdrBytes) := by
  apply Nat.lt_pow_two_of_testBit
  intro i hi
  rw [testBit_hdr_of_wf hp]
  obtain ⟨-, -, ⟨hcd, hcdTop⟩, ⟨hrw, hrwTop⟩, -⟩ := hp
  rw [if_neg (by omega), if_neg (by omega), if_neg (by omega)]

/-- A two-byte header is sent high byte first. -/
theorem hdrBytes_two {p : Params} (h : p.cmdHdrBytes = 2) (a : Nat) (dir : Dir) :
    hdrBytes p a dir = [BitVec.ofNat 8 (hdr p a dir / 256), BitVec.ofNat 8 (hdr p a dir)] := by
  rw [hdrBytes, h, ← Nat.shiftRight_eq_div_pow _ 8]
  rfl

/-- Settles O49, from the bits and the bound of the header. -/
theorem commandHeaderBits : Obligations.CommandHeaderBits := by
  intro p a i dir hp
  refine ⟨?_, fun h2 => ⟨hdrBytes_two h2 a dir, ?_⟩⟩
  · rw [testBit_hdr_of_wf hp]
    cases dir <;> rfl
  · simpa only [h2] using hdr_lt hp a dir

/-! ## The register frames (R72, R73) -/

/-- The bytes of `be32`, as slices of the value (R9). -/
theorem be32_eq (v : W32) :
    be32 v = [v.extractLsb' 24 8, v.extractLsb' 16 8, v.extractLsb' 8 8, v.extractLsb' 0 8] := rfl

/-- The value read is the one whose four bytes follow the two header bytes and the turnaround byte (R73). -/
theorem rdecode_be32 {p : Params} (hh : p.cmdHdrBytes = 2) (hr : p.regBytes = 4) (r0 r1 r2 : Byte) (v : W32) :
    rdecode p (r0 :: r1 :: r2 :: be32 v) = v := by
  have hs : slice (r0 :: r1 :: r2 :: be32 v) 3 7 = be32 v := rfl
  rw [rdecode, hh, hr, hs, fromBe_be32, BitVec.ofNat_toNat, BitVec.setWidth_eq]

/-- Settles O50, each frame from its header's two bytes. -/
theorem registerFrameBytes : Obligations.RegisterFrameBytes := by
  intro x a v hh hr
  refine ⟨⟨_, _, hdrBytes_two hh a .write, ?_⟩, ⟨_, _, hdrBytes_two hh a .read, ?_⟩,
    fun r0 r1 r2 => rdecode_be32 hh hr r0 r1 r2 v⟩
  · rw [wframe, crcSuffix, wframeBase, hdrBytes_two hh, valueBytes_eq hr, be32_eq]
    rfl
  · rw [rframe, hdrBytes_two hh, hr]
    rfl

/-! ## The lengths of the transfers (R85) -/

theorem wframe_length (x : Ctx) (a : Nat) (v : W32) :
    (wframe x a v).length = x.p.cmdHdrBytes + x.p.regBytes + x.cfg.crcEn.toNat := by
  simp [wframe, wframeBase, Nat.add_assoc]

theorem rframe_length (p : Params) (a : Nat) : (rframe p a).length = p.cmdHdrBytes + 1 + p.regBytes := by
  simp only [rframe, List.length_append, hdrBytes_length, List.length_singleton, List.length_replicate]

theorem rxcmd_length (p : Params) (port fs : Nat) :
    (rxcmd p port fs).length = p.cmdHdrBytes + 1 + alignUp fs p.fifoAlign := by
  simp only [rxcmd, List.length_append, hdrBytes_length, List.length_singleton, List.length_replicate]

/-- What follows the command header of a transmit transfer is the frame, padded, up to the alignment: the two addresses and
the ethertype are the Ethernet header. -/
theorem txframe_length {x : Ctx} {d m t l : Bytes} (port : Nat) (halign : 1 ≤ x.p.fifoAlign)
    (heth : d.length + m.length + t.length = x.p.ethHdrLen) :
    (txframe x port d m t l).length = x.p.cmdHdrBytes + alignUp (frameLength x l.length) x.p.fifoAlign := by
  obtain ⟨-, hge, -⟩ := alignUp_spec (frameLength x l.length) halign
  have hfl : frameLength x l.length
      = x.p.fifoHdrLen + x.cfg.crcEn.toNat + x.p.ethHdrLen + l.length + txPad x.p l.length := rfl
  simp only [txframe, txOpening, List.length_append, hdrBytes_length, beBytes_length, crcSuffix_length, zeros_length]
  omega

/-- Settles O51: the four lengths at the source's sizes. -/
theorem busTransactionLengths : Obligations.BusTransactionLengths := by
  rintro x a port fs v d m t l ⟨hreg, -, heth, -, -, halign, -⟩
  refine ⟨?_, ?_, fun hd hm ht => ?_, ?_⟩
  · rw [wframe_length, hreg]
  · rw [rframe_length, hreg]
  · rw [txframe_length port (by omega) (by omega), halign]
  · rw [rxcmd_length, halign]

/-! ## The FIFO transfers (R81, R82) -/

/-- `align_up` adds fewer than `a` to reach a multiple of `a` (R9). -/
theorem exists_alignUp_eq_add (n : Nat) {a : Nat} (ha : 1 ≤ a) : ∃ k, k < a ∧ a ∣ n + k ∧ alignUp n a = n + k := by
  obtain ⟨hdvd, hle, hlt⟩ := alignUp_spec n ha
  have heq : alignUp n a = n + (alignUp n a - n) := by omega
  exact ⟨alignUp n a - n, by omega, heq ▸ hdvd, heq⟩

/-- The port selector of port 0 or 1 with the source's size (R81). -/
theorem beBytes_two_port {port : Nat} (h : port < 2) : beBytes 2 port = [0, BitVec.ofNat 8 port] := by
  have hhigh : port / 256 = 0 := by omega
  simp [beBytes, Nat.shiftRight_eq_div_pow, hhigh]

theorem fifoAlign_of_sourceValues {p : Params} (h : p.sourceValues) : p.fifoAlign = 4 := by
  obtain ⟨-, -, -, -, -, halign, -⟩ := h
  exact halign

/-- With the source's sizes the padding fills the payload up to 46 bytes (R161). -/
theorem txPad_of_sourceValues {p : Params} (h : p.sourceValues) (l : Nat) : txPad p l = 46 - l := by
  obtain ⟨-, -, heth, hfcs, hmin, -, -⟩ := h
  rw [txPad, heth, hfcs, hmin]
  omega

/-- With the source's sizes: the selector, the CRC byte, the Ethernet header, the payload and its padding (R161). -/
theorem frameLength_of_sourceValues {x : Ctx} (h : x.p.sourceValues) (l : Nat) :
    frameLength x l = 2 + x.cfg.crcEn.toNat + 14 + l + (46 - l) := by
  rw [frameLength, txPad_of_sourceValues h]
  obtain ⟨-, hsel, heth, -⟩ := h
  rw [headerLen, hsel, heth]

/-- The transmit transfer of port 0 or 1 byte by byte (R81). -/
theorem exists_txframe_eq {x : Ctx} (hh : x.p.cmdHdrBytes = 2) (hs : x.p.sourceValues) {port : Nat} (hport : port < 2)
    (d m t l : Bytes) :
    ∃ b0 b1 opening crc k, hdrBytes x.p (portAddr x.p.txDataAddr port) .write = [b0, b1]
      ∧ opening = [b0, b1, 0, BitVec.ofNat 8 port]
      ∧ crc = (if x.cfg.crcEn then [crc8 x.table opening x.p.crcInit] else [])
      ∧ k < 4 ∧ 4 ∣ (2 + crc.length + 14 + l.length + (46 - l.length)) + k
      ∧ txframe x port d m t l
        = opening ++ crc ++ d ++ m ++ t ++ l ++ List.replicate (46 - l.length) 0 ++ List.replicate k 0 := by
  obtain ⟨k, hk, hdvd, heq⟩ := exists_alignUp_eq_add (frameLength x l.length) (a := 4) (by omega)
  have hopen : txOpening x.p port = hdrBytes x.p (portAddr x.p.txDataAddr port) .write ++ [0, BitVec.ofNat 8 port] := by
    obtain ⟨-, hsel, -⟩ := hs
    rw [txOpening, hsel, beBytes_two_port hport]
  rw [hdrBytes_two hh] at hopen
  refine ⟨_, _, txOpening x.p port, crcSuffix x (txOpening x.p port), k, hdrBytes_two hh _ _, hopen, rfl, hk, ?_, ?_⟩
  · rwa [crcSuffix_length, ← frameLength_of_sourceValues hs]
  · rw [txframe, txPad_of_sourceValues hs, fifoAlign_of_sourceValues hs, heq, Nat.add_sub_cancel_left]
    rfl

/-- The receive transfer and the data region of its answer byte by byte (R82). -/
theorem exists_rxcmd_eq {p : Params} (hh : p.cmdHdrBytes = 2) (hs : p.sourceValues) (port fs : Nat) :
    ∃ b0 b1 k, hdrBytes p (portAddr p.rxDataAddr port) .read = [b0, b1]
      ∧ k < 4 ∧ 4 ∣ fs + k
      ∧ rxcmd p port fs = [b0, b1, p.taTx] ++ List.replicate (fs + k) p.taTx
      ∧ ∀ rx : Bytes, rxData p fs rx = (rx.drop 3).take (fs + k) := by
  obtain ⟨k, hk, hdvd, heq⟩ := exists_alignUp_eq_add fs (a := 4) (by omega)
  refine ⟨_, _, k, hdrBytes_two hh _ _, hk, hdvd, ?_, fun rx => ?_⟩
  · rw [rxcmd, hdrBytes_two hh, fifoAlign_of_sourceValues hs, heq]
    rfl
  · rw [rxData, slice, hh, fifoAlign_of_sourceValues hs, heq, Nat.add_sub_cancel_left]

/-- Settles O56, by the port: `portAddr` picks the addresses the statement names. -/
theorem fifoTransferBytes : Obligations.FifoTransferBytes := by
  intro x port ta ra d m t l hh hs hport _ _ _
  have hlt : port < 2 := by omega
  have hta : ta = portAddr x.p.txDataAddr port := by
    obtain ⟨rfl, rfl, -⟩ | ⟨rfl, rfl, -⟩ := hport <;> rfl
  have hra : ra = portAddr x.p.rxDataAddr port := by
    obtain ⟨rfl, -, rfl⟩ | ⟨rfl, -, rfl⟩ := hport <;> rfl
  rw [hta, hra]
  exact ⟨exists_txframe_eq hh hs hlt d m t l, exists_rxcmd_eq hh hs port⟩

end Sys2Proof.Laws.Encoding
end

