-- ==== Sys2Proof/Proofs/Control.lean ====
section
/-! SUPPORT. The control operations of spec/40_control.md: what INIT does to a block in each state (R100), what DEINIT does,
and that DEINIT followed by INIT is a fresh INIT (R101). -/

namespace Sys2Proof.Laws.Control

open Machine

/-! ## What the sequencer does with the two requests (R27, R210) -/

theorem exec_init (poly ports : Byte) (crcEn : Bool) (s : State) :
    exec (.init poly crcEn ports) s = onAccept true s (initBody poly crcEn ports) := rfl

theorem exec_deinit (s : State) :
    exec .deinit s = onAccept false s fun s => deliver (okResponse .empty) (release s) := rfl

theorem onAccept_init_idle {s : State} (h : s.life = .idle) (m : State → State) :
    onAccept true s m = .next (enterFault .fReinit s) := by
  simp [onAccept, acceptance, h]

theorem onAccept_uninit {s : State} (h : s.life = .uninit) (m : State → State) :
    onAccept false s m = .next (enterFault .fUninit s) := by
  simp [onAccept, acceptance, h]

/-! ## The body of INIT (R100) -/

theorem initBody_of_legal {ports : Byte} (h : ports = 1 ∨ ports = 2) (poly : Byte) (crcEn : Bool) (s : State) :
    initBody poly crcEn ports s = finish (okResponse .empty) (configure poly crcEn ports s) :=
  if_pos (decide_eq_true h)

theorem initBody_of_illegal {ports : Byte} (h : ¬(ports = 1 ∨ ports = 2)) (poly : Byte) (crcEn : Bool) (s : State) :
    initBody poly crcEn ports s = deliver (errorResponse (.invalidArg .variant)) s :=
  if_neg (by simpa only [portsOk, decide_eq_true_eq] using h)

/-- Settles O20, by the sequencer state and the check of `ports`. -/
theorem initConfiguresTheBlock : Obligations.InitConfiguresTheBlock := by
  intro poly ports crcEn s
  refine ⟨fun hlife hports => ?_, fun hlife h1 h2 => ?_, fun hlife => ?_⟩
  · rw [exec_init, onAccept_init_uninit hlife, initBody_of_legal hports]
    rfl
  · rw [exec_init, onAccept_init_uninit hlife, initBody_of_illegal (not_or.mpr ⟨h1, h2⟩)]
    rfl
  · rw [exec_init, onAccept_init_idle hlife]
    rfl

/-! ## DEINIT, and the INIT after it (R101) -/

/-- A block with the history, the delivered responses and the pending events of another one: all that DEINIT keeps beside
the parameters. -/
def withRecordsOf (old s : State) : State :=
  { s with history := old.history, responses := old.responses, events := old.events }

/-- DEINIT leaves the reset state but for what it keeps (R32, R101). -/
theorem release_eq_withRecordsOf_resetWith (s : State) :
    release s = withRecordsOf s (State.resetWith s.params) := rfl

theorem deliver_withRecordsOf (r : Response) (old s : State) :
    deliver r (withRecordsOf old s) = withRecordsOf (deliver r old) s := rfl

/-- The body of INIT reads none of what DEINIT keeps: only its response goes onto the kept list. -/
theorem initBody_withRecordsOf (poly ports : Byte) (crcEn : Bool) (old s : State) :
    initBody poly crcEn ports (withRecordsOf old s)
      = { initBody poly crcEn ports s with
          history := old.history
          responses := (initBody poly crcEn ports (withRecordsOf old s)).responses
          events := old.events } := by
  by_cases hports : ports = 1 ∨ ports = 2
  · simp only [initBody_of_legal hports]
    rfl
  · simp only [initBody_of_illegal hports]
    rfl

/-- Settles O21. DEINIT leaves the reset state with what is kept, from which INIT runs as it does from reset. -/
theorem deinitReleasesTheBlock : Obligations.DeinitReleasesTheBlock := by
  intro s
  refine ⟨fun hlife => ?_, fun hlife => ?_, fun t u v poly ports crcEn hlife ht hu hv => ?_⟩
  · rw [exec_deinit, onAccept_idle hlife]
    rfl
  · rw [exec_deinit, onAccept_uninit hlife]
    rfl
  · rw [exec_deinit, onAccept_idle hlife, release_eq_withRecordsOf_resetWith, deliver_withRecordsOf] at ht
    cases ht
    rw [exec_init, onAccept_init_uninit rfl] at hu hv
    cases hu
    cases hv
    exact initBody_withRecordsOf poly ports crcEn _ _

end Sys2Proof.Laws.Control
end

/-! SUPPORT. The CRC-8 unit of spec/41_crc8.md: what the pseudocode of CRC8 (R113) and of CRCCHK (R114) comes to, with
and without data, and the next states that follow. Neither reaches a bus transaction. -/

namespace Sys2Proof.Laws.Crc8

open Machine

/-! ## CRC8 (R113) -/

theorem progOf_crc8_some (data : Bytes) (init : Option Byte) (x : Ctx) :
    progOf (.crc8 (some data) init) x = .ret (.crc (crc8 x.table data (init.getD x.p.crcInit))) := rfl

theorem progOf_crc8_none (init : Option Byte) (x : Ctx) :
    progOf (.crc8 none init) x = .raise (.invalidArg .null) := rfl

/-- Settles O22, by the presence of the data: with data the pseudocode returns at once, without it it raises at once. -/
theorem crc8ReturnsTheCrc : Obligations.Crc8ReturnsTheCrc := by
  intro s x init hready
  refine ⟨fun data => ?present, ?absent⟩
  case present => exact exec_returns_at_once hready rfl nofun (progOf_crc8_some data init x)
  case absent => exact exec_raises_at_once hready rfl nofun (progOf_crc8_none init x)

/-! ## CRCCHK (R114) -/

/-- A mismatch returns too: only the result's `ok` tells it from a match. -/
theorem progOf_crcchk_some (data : Bytes) (expected : Byte) (init : Option Byte) (x : Ctx) :
    progOf (.crcchk (some data) expected init) x
      = .ret (.crcCheck (crc8 x.table data (init.getD x.p.crcInit) == expected)
          (crc8 x.table data (init.getD x.p.crcInit))) := rfl

theorem progOf_crcchk_none (expected : Byte) (init : Option Byte) (x : Ctx) :
    progOf (.crcchk none expected init) x = .raise (.invalidArg .null) := rfl

/-- Settles O23, by the presence of the data, as for CRC8. -/
theorem crcchkComparesTheCrc : Obligations.CrcchkComparesTheCrc := by
  intro s x expected init hready
  refine ⟨fun data c hc => ?present, ?absent⟩
  case present =>
    subst hc
    exact exec_returns_at_once hready rfl nofun (progOf_crcchk_some data expected init x)
  case absent => exact exec_raises_at_once hready rfl nofun (progOf_crcchk_none expected init x)

end Sys2Proof.Laws.Crc8

/-! SUPPORT. The register codec of spec/42_regbus.md: REGWR, REGRD and REGUPD as the one or two transactions of their
pseudocode (R120 to R122), and what WFDEC makes of a frame, byte string by byte string (R123). -/

namespace Sys2Proof.Laws.RegBus

open Machine

/-! ## Answers and bus errors (R5, R204) -/

theorem fitsAll_nil : FitsAll [] [] := nofun

theorem fitsAll_cons {t : Transaction} {ts : List Transaction} {rx : Bytes} {rxs : List Bytes} (h : Fits rx t.tx)
    (hs : FitsAll ts rxs) : FitsAll (t :: ts) (rx :: rxs) :=
  List.forall_mem_cons.mpr ⟨h, hs⟩

/-- An instruction whose next transaction, after answered ones, is answered with a bus error ends there. -/
theorem exec_busError {i : Instr} {s : State} {x : Ctx} {rxs : List Bytes} {tx : Bytes} {rest : Bytes → Prog} {e : Nat}
    {es : List Event} (hr : Ready s x) (h1 : i.isInit = false) (h2 : i ≠ .deinit)
    (he : s.events = rxs.map answered ++ .answer (.err e) :: es)
    (hc : (transcript (progOf i x) rxs).length = rxs.length) (hf : FitsAll (transcript (progOf i x) rxs) rxs)
    (hp : progAfter (progOf i x) rxs = .xfer tx rest) :
    exec i s = .next (ended (errorResponse (.busError e)) es (transcript (progOf i x) rxs ++ [⟨tx, .err e⟩]) s) := by
  rw [exec_request h1 h2, request_ready hr, he, run_answered _ _ hc hf, hp, run_xfer_error, finish_busError]
  rfl

/-- An instruction whose first transaction is answered with a bus error. -/
theorem exec_busError_at_once {i : Instr} {s : State} {x : Ctx} {tx : Bytes} {rest : Bytes → Prog} {e : Nat}
    {es : List Event} (hr : Ready s x) (h1 : i.isInit = false) (h2 : i ≠ .deinit) (he : s.events = .answer (.err e) :: es)
    (hp : progOf i x = .xfer tx rest) :
    exec i s = .next (ended (errorResponse (.busError e)) es [⟨tx, .err e⟩] s) := by
  simpa using exec_busError (rxs := []) hr h1 h2 he (by simp) (by simp [FitsAll]) (by simpa using hp)

/-! ## Byte strings (R9) -/

/-- A big-endian string reads as a number of eight bits per byte. -/
theorem fromBe_lt (s : Bytes) : fromBe s < 2 ^ (8 * s.length) := by
  induction s using List.reverseRecOn with
  | nil => decide
  | append_singleton s b ih =>
    have hb : fromBe [b] < 256 := by simpa [fromBe] using b.isLt
    have hpow : 2 ^ (8 * (s ++ [b]).length) = 2 ^ (8 * s.length) * 256 := by
      rw [List.length_append, List.length_singleton, Nat.mul_add, Nat.pow_add]
    rw [fromBe_append, hpow, List.length_singleton, Nat.pow_one]
    omega

/-- The slice between what comes before a string and what comes after it is the string. -/
theorem slice_middle (before s after : Bytes) :
    slice (before ++ s ++ after) before.length (before.length + s.length) = s := by
  rw [slice, List.append_assoc, List.drop_left, Nat.add_sub_cancel_left, List.take_left]

/-- A read answer's value is the number its value bytes spell, whatever comes before them (R73). -/
theorem rdecode_append {p : Params} {head vb : Bytes} (hhead : head.length = p.cmdHdrBytes + 1)
    (hvb : vb.length = p.regBytes) : rdecode p (head ++ vb) = BitVec.ofNat 32 (fromBe vb) := by
  have hslice := slice_middle head vb []
  rw [List.append_nil, hhead, hvb] at hslice
  rw [rdecode, hslice]

/-! ## REGWR (R120) -/

theorem progOf_regwr (addr : W16) (value : W32) (x : Ctx) :
    progOf (.regwr addr value) x = .xfer (wframe x addr.toNat value) fun _ => .ret .empty := rfl

/-- A header holds no address bit above its address field (R71). -/
theorem hdr_mod (p : Params) (a : Nat) (dir : Dir) : hdr p (a % 2 ^ p.addrWidth) dir = hdr p a dir := by
  simp only [hdr, addrMask, Nat.and_two_pow_sub_one_eq_mod, Nat.mod_mod]

theorem wframe_mod (x : Ctx) (a : Nat) (v : W32) : wframe x (a % 2 ^ x.p.addrWidth) v = wframe x a v := by
  simp only [wframe, wframeBase, hdrBytes, hdr_mod]

/-- Settles O29, by the answer to the one transaction; the frame of the masked address is `wframe_mod`. -/
theorem regwrIsOneWriteTransaction : Obligations.RegwrIsOneWriteTransaction := by
  intro s x addr value es hready
  refine ⟨fun rx hfit hev => ?answered, fun e hev => ?busError, (wframe_mod x addr.toNat value).symm⟩
  case answered =>
    exact exec_returns (rxs := [rx]) hready rfl nofun hev rfl (fitsAll_cons hfit fitsAll_nil) rfl
  case busError => exact exec_busError_at_once hready rfl nofun hev (progOf_regwr addr value x)

/-! ## REGRD (R121) -/

theorem progOf_regrd (addr : W16) (x : Ctx) :
    progOf (.regrd addr) x = .xfer (rframe x.p addr.toNat) fun rx => .ret (.value (rdecode x.p rx)) := rfl

/-- Settles O30, by the answer to the one transaction, whose value bytes `rdecode_append` reads. -/
theorem regrdReturnsTheValueBytes : Obligations.RegrdReturnsTheValueBytes := by
  intro s x addr es hready
  refine ⟨fun head vb value hhead hvb hvalue hev => ?answered, fun e hev => ?busError⟩
  case answered =>
    have hfit : Fits (head ++ vb) (rframe x.p addr.toNat) := by
      rw [Fits, Encoding.rframe_length, List.length_append, hhead, hvb]
    rw [hvalue, ← rdecode_append hhead hvb]
    exact exec_returns (rxs := [head ++ vb]) hready rfl nofun hev rfl (fitsAll_cons hfit fitsAll_nil) rfl
  case busError => exact exec_busError_at_once hready rfl nofun hev (progOf_regrd addr x)

/-! ## REGUPD (R122) -/

theorem progOf_regupd (addr : W16) (mask value : W32) (x : Ctx) :
    progOf (.regupd addr mask value) x = .xfer (rframe x.p addr.toNat) fun rx =>
      .xfer (wframe x addr.toNat ((rdecode x.p rx &&& ~~~mask) ||| (value &&& mask))) fun _ => .ret .empty := rfl

/-- Settles O31, by the read's answer and then the write's: only a bus error of the read keeps the write from being issued. -/
theorem regupdReadsMergesAndWrites : Obligations.RegupdReadsMergesAndWrites := by
  intro s x addr mask value es hready
  refine ⟨fun rx frame hread hframe => ?readAnswered, fun e hev => ?readError⟩
  case readAnswered =>
    subst hframe
    refine ⟨fun rx' hwrite hev => ?writeAnswered, fun e hev => ?writeError⟩
    case writeAnswered =>
      exact exec_returns (rxs := [rx, rx']) hready rfl nofun hev rfl
        (fitsAll_cons hread (fitsAll_cons hwrite fitsAll_nil)) rfl
    case writeError =>
      exact exec_busError (rxs := [rx]) hready rfl nofun hev rfl (fitsAll_cons hread fitsAll_nil) rfl
  case readError =>
    exact exec_busError_at_once hready rfl nofun hev (progOf_regupd addr mask value x)

/-! ## WFDEC (R123) -/

/-- The reserved bits of a header, each in its place: those that are not of the address, the marker or the direction. -/
theorem testBit_hdrReserved {p : Params} {h : Nat} (hlt : h < 2 ^ (8 * p.cmdHdrBytes)) (i : Nat) :
    (hdrReserved p h).testBit i
      = (h.testBit i && decide (p.addrWidth ≤ i ∧ i ≠ p.cdBit ∧ i ≠ p.rwBit)) := by
  have hmask : (hdrReserved p h).testBit i = (h.testBit i
      && (decide (i < 8 * p.cmdHdrBytes) ^^ decide (i < p.addrWidth ∨ i = p.cdBit ∨ i = p.rwBit))) := by
    simp only [hdrReserved, addrMask, Nat.testBit_and, Nat.testBit_xor, Nat.testBit_or, Nat.testBit_two_pow_sub_one,
      Nat.one_shiftLeft, Nat.testBit_two_pow, Bool.decide_or, Bool.or_assoc, eq_comm]
  rw [hmask]
  cases hbit : h.testBit i
  case false => rfl
  case true =>
    have hi : i < 8 * p.cmdHdrBytes :=
      (Nat.pow_lt_pow_iff_right Nat.one_lt_two).mp ((Nat.ge_two_pow_of_testBit hbit).trans_lt hlt)
    have hfield : decide (p.addrWidth ≤ i ∧ i ≠ p.cdBit ∧ i ≠ p.rwBit)
        = !decide (i < p.addrWidth ∨ i = p.cdBit ∨ i = p.rwBit) := by
      rw [← decide_not]
      exact decide_eq_decide.mpr (by rw [not_or, not_or, not_lt])
    rw [hfield, decide_eq_true hi, Bool.true_xor]

/-- The CRC check of a frame of the right length: with CRC off there is no CRC byte, with CRC on there is one to
compare (R74). -/
theorem decide_eq_crcSuffix {x : Ctx} {crc : Bytes} (h : crc.length = x.cfg.crcEn.toNat) (before : Bytes) :
    decide (crc = crcSuffix x before) = (!x.cfg.crcEn || crc == [crc8 x.table before x.p.crcInit]) := by
  cases hen : x.cfg.crcEn
  case false =>
    rw [hen] at h
    simp [crcSuffix, hen, List.eq_nil_of_length_eq_zero h]
  case true => simp [crcSuffix, hen, Bool.beq_eq_decide_eq]

/-- The fields of a frame, from the three strings it is made of. -/
theorem decodeWriteFrame_append {x : Ctx} {hd vb crc : Bytes} (hhd : hd.length = x.p.cmdHdrBytes)
    (hvb : vb.length = x.p.regBytes) :
    decodeWriteFrame x (hd ++ vb ++ crc) = .writeFrame (hdrAddr x.p (fromBe hd)) (BitVec.ofNat 32 (fromBe vb))
      ((fromBe hd).testBit x.p.cdBit) ((fromBe hd).testBit x.p.rwBit) (hdrReserved x.p (fromBe hd))
      ((fromBe hd).testBit x.p.cdBit == x.p.cdVal && (fromBe hd).testBit x.p.rwBit == x.p.rwWrite)
      (decide (crc = crcSuffix x (hd ++ vb))) := by
  have hbase : (hd ++ vb).length = x.p.cmdHdrBytes + x.p.regBytes := by rw [List.length_append, hhd, hvb]
  have hhead : (hd ++ vb ++ crc).take x.p.cmdHdrBytes = hd := by rw [List.append_assoc, List.take_left' hhd]
  have hvalue : slice (hd ++ vb ++ crc) x.p.cmdHdrBytes (x.p.cmdHdrBytes + x.p.regBytes) = vb := by
    rw [← hhd, ← hvb, slice_middle]
  rw [decodeWriteFrame, hhead, hvalue, List.take_left' hbase, List.drop_left' hbase]

theorem progOf_wfdec_some_of_length {x : Ctx} {frame : Bytes} (h : frame.length = wframeLen x) :
    progOf (.wfdec (some frame)) x = .ret (decodeWriteFrame x frame) :=
  require_holds (beq_iff_eq.mpr h) _ _

theorem progOf_wfdec_some_of_length_ne {x : Ctx} {frame : Bytes} (h : frame.length ≠ wframeLen x) :
    progOf (.wfdec (some frame)) x = .raise (.invalidArg .len) :=
  require_fails (beq_false_of_ne h) _ _

theorem progOf_wfdec_none (x : Ctx) : progOf (.wfdec none) x = .raise (.invalidArg .null) := rfl

/-- Settles O32, by the frame: of the right length its fields are those of `decodeWriteFrame_append`; another length and
absence raise at once. -/
theorem wfdecReportsEveryField : Obligations.WfdecReportsEveryField := by
  intro s x hready
  refine ⟨fun hd vb crc h rsvd hhd hvb hcrc hh hrsvd => ?decoded, fun frame hlen => ?wrongLength, ?absent⟩
  case decoded =>
    subst hh
    have hlen : (hd ++ vb ++ crc).length = wframeLen x := by
      rw [List.length_append, List.length_append, hhd, hvb, hcrc, wframeLen]
    have haddr : hdrAddr x.p (fromBe hd) = fromBe hd % 2 ^ x.p.addrWidth := Nat.and_two_pow_sub_one_eq_mod _ _
    have hres : hdrReserved x.p (fromBe hd) = rsvd :=
      Nat.eq_of_testBit_eq fun i => (testBit_hdrReserved (hhd ▸ fromBe_lt hd) i).trans (hrsvd i).symm
    rw [exec_returns_at_once (i := .wfdec _) hready rfl nofun (progOf_wfdec_some_of_length hlen),
      decodeWriteFrame_append hhd hvb, haddr, hres, decide_eq_crcSuffix hcrc, Bool.decide_and, Bool.beq_eq_decide_eq,
      Bool.beq_eq_decide_eq]
  case wrongLength => exact exec_raises_at_once hready rfl nofun (progOf_wfdec_some_of_length_ne hlen)
  case absent => exact exec_raises_at_once hready rfl nofun (progOf_wfdec_none x)

end Sys2Proof.Laws.RegBus

/-! SUPPORT. The MDIO engine of spec/43_mdio.md: an operation that has come to a phase of R140 goes on with that phase, so
C22RD and C22WR are one phase (R141, R142), C45RD and C45WR two in order (R143, R144). -/

namespace Sys2Proof.Laws.MdioEngine

open Machine

/-! ## Coming to a point of a pseudocode over answered transactions -/

/-- When its transactions receive `rxs`, each a string the oracle may return, `pr` makes `ts` and comes to `pr'`. -/
structure Reaches (pr : Prog) (rxs : List Bytes) (ts : List Transaction) (pr' : Prog) : Prop where
  transcript_eq : transcript pr rxs = ts
  length_eq : ts.length = rxs.length
  fits : FitsAll ts rxs
  progAfter_eq : progAfter pr rxs = pr'

theorem Reaches.refl (pr : Prog) : Reaches pr [] [] pr :=
  ⟨transcript_nil pr, rfl, RegBus.fitsAll_nil, progAfter_nil pr⟩

theorem fitsAll_append {ts ts' : List Transaction} {rxs rxs' : List Bytes} (hlen : ts.length = rxs.length)
    (h : FitsAll ts rxs) (h' : FitsAll ts' rxs') : FitsAll (ts ++ ts') (rxs ++ rxs') := by
  rw [FitsAll, List.zip_append hlen]
  exact List.forall_mem_append.mpr ⟨h, h'⟩

theorem Reaches.trans {pr pr' pr'' : Prog} {rxs rxs' : List Bytes} {ts ts' : List Transaction}
    (h : Reaches pr rxs ts pr') (h' : Reaches pr' rxs' ts' pr'') : Reaches pr (rxs ++ rxs') (ts ++ ts') pr'' := by
  obtain ⟨rfl, hlen, hfit, rfl⟩ := h
  obtain ⟨rfl, hlen', hfit', rfl⟩ := h'
  obtain ⟨htranscript, hafter⟩ := transcript_append hlen rxs'
  exact ⟨htranscript, by simp only [List.length_append, hlen, hlen'], fitsAll_append hlen hfit hfit', hafter⟩

/-- A phase that runs to completion goes on with the word of its last poll (R140). -/
theorem exists_reaches_of_phaseRuns {x : Ctx} {slot : Fin 2} {cw w : W32} {evs : List Event} {ts : List Transaction}
    (h : PhaseRuns x slot cw evs ts w) :
    ∃ rxs, evs = rxs.map answered ∧ ∀ rest, Reaches (mdioPhase x slot cw rest) rxs ts (rest w) := by
  obtain ⟨rxs, hevs, hrun⟩ := phaseRuns_run h
  refine ⟨rxs, hevs, fun rest => ?_⟩
  obtain ⟨htranscript, hlen, hfit, hafter⟩ := hrun rest
  exact ⟨htranscript, hlen, hfit, hafter⟩

/-! ## An operation that has come to a phase -/

section
variable {i : Instr} {s : State} {x : Ctx} {pr : Prog} {rxs : List Bytes} {ts ts' : List Transaction}
  {evs es : List Event} {slot : Fin 2} {cw w : W32} {rest : W32 → Prog} {res : Results} {st : Status}

theorem exec_returns_of_reaches (hready : Ready s x) (h1 : i.isInit = false) (h2 : i ≠ .deinit)
    (hreach : Reaches (progOf i x) rxs ts (.ret res)) (hev : s.events = rxs.map answered ++ es) :
    exec i s = .next (ended (okResponse res) es ts s) := by
  obtain ⟨rfl, hlen, hfit, hafter⟩ := hreach
  exact exec_returns hready h1 h2 hev hlen hfit hafter

theorem exec_raises_of_reaches (hready : Ready s x) (h1 : i.isInit = false) (h2 : i ≠ .deinit)
    (hreach : Reaches (progOf i x) rxs ts (.raise st)) (hev : s.events = rxs.map answered ++ es) :
    exec i s = .next (ended (errorResponse st) es ts s) := by
  obtain ⟨rfl, hlen, hfit, hafter⟩ := hreach
  exact exec_raises hready h1 h2 hev hlen hfit hafter

theorem exec_busError_of_reaches {tx : Bytes} {rest' : Bytes → Prog} {e : Nat} (hready : Ready s x)
    (h1 : i.isInit = false) (h2 : i ≠ .deinit) (hreach : Reaches (progOf i x) rxs ts (.xfer tx rest'))
    (hev : s.events = rxs.map answered ++ .answer (.err e) :: es) :
    exec i s = .next (ended (errorResponse (.busError e)) es (ts ++ [⟨tx, .err e⟩]) s) := by
  obtain ⟨rfl, hlen, hfit, hafter⟩ := hreach
  exact RegBus.exec_busError hready h1 h2 hev hlen hfit hafter

/-- An operation that returns after the phase it has come to. -/
theorem exec_of_phaseRuns (hready : Ready s x) (h1 : i.isInit = false) (h2 : i ≠ .deinit)
    (hreach : Reaches (progOf i x) rxs ts (mdioPhase x slot cw rest)) (hphase : PhaseRuns x slot cw evs ts' w)
    (hrest : rest w = .ret res) (hev : s.events = rxs.map answered ++ (evs ++ es)) :
    exec i s = .next (ended (okResponse res) es (ts ++ ts') s) := by
  obtain ⟨rxs', rfl, hrun⟩ := exists_reaches_of_phaseRuns hphase
  have hret : Reaches (progOf i x) (rxs ++ rxs') (ts ++ ts') (.ret res) := hrest ▸ hreach.trans (hrun rest)
  exact exec_returns_of_reaches hready h1 h2 hret (by rw [hev, List.map_append, List.append_assoc])

/-- An operation ends with the phase it has come to where that fails, whatever would follow (R140). -/
theorem exec_of_phaseFails (hready : Ready s x) (h1 : i.isInit = false) (h2 : i ≠ .deinit)
    (hreach : Reaches (progOf i x) rxs ts (mdioPhase x slot cw rest)) (hphase : PhaseFails x slot cw evs ts' st)
    (hev : s.events = rxs.map answered ++ (evs ++ es)) :
    exec i s = .next (ended (errorResponse st) es (ts ++ ts') s) := by
  rcases phaseFails_run hphase with ⟨rxs', rfl, hrun⟩ | ⟨rxs', e, tx, ts0, rfl, rfl, rfl, hrun⟩
  case inl =>
    obtain ⟨htranscript, hlen, hfit, hafter⟩ := hrun rest
    have hraise := hreach.trans ⟨htranscript, hlen, hfit, hafter⟩
    exact exec_raises_of_reaches hready h1 h2 hraise (by rw [hev, List.map_append, List.append_assoc])
  case inr =>
    obtain ⟨htranscript, hlen, hfit, rest', hafter⟩ := hrun rest
    have hxfer := hreach.trans ⟨htranscript, hlen, hfit, hafter⟩
    rw [← List.append_assoc]
    exact exec_busError_of_reaches hready h1 h2 hxfer (by simp [hev])

end

/-! ## Operations of one phase and of two -/

/-- An operation that is one phase: its results are a function of the word of the last poll. -/
theorem exec_onePhase {i : Instr} {s : State} {x : Ctx} {slot : Fin 2} {cw : W32} {results : W32 → Results}
    {evs es : List Event} {ts : List Transaction} (hready : Ready s x) (h1 : i.isInit = false) (h2 : i ≠ .deinit)
    (hprog : progOf i x = mdioPhase x slot cw fun w => .ret (results w)) (hev : s.events = evs ++ es) :
    (∀ w, PhaseRuns x slot cw evs ts w → exec i s = .next (ended (okResponse (results w)) es ts s))
    ∧ (∀ st, PhaseFails x slot cw evs ts st → exec i s = .next (ended (errorResponse st) es ts s)) := by
  have hstart : Reaches (progOf i x) [] [] (mdioPhase x slot cw fun w => .ret (results w)) := hprog ▸ .refl _
  exact ⟨fun w hphase => exec_of_phaseRuns hready h1 h2 hstart hphase rfl hev,
    fun st hphase => exec_of_phaseFails hready h1 h2 hstart hphase hev⟩

/-- An operation that is a phase on slot 0 and then one on slot 1: its results are a function of the word of the second
phase's last poll. -/
theorem exec_twoPhases {i : Instr} {s : State} {x : Ctx} {cw1 cw2 : W32} {results : W32 → Results} {evs1 : List Event}
    {ts1 : List Transaction} (hready : Ready s x) (h1 : i.isInit = false) (h2 : i ≠ .deinit)
    (hprog : progOf i x = mdioPhase x 0 cw1 fun _ => mdioPhase x 1 cw2 fun w => .ret (results w)) :
    (∀ w1, PhaseRuns x 0 cw1 evs1 ts1 w1 → ∀ (evs2 es : List Event) (ts2 : List Transaction),
      s.events = evs1 ++ (evs2 ++ es) →
      (∀ w, PhaseRuns x 1 cw2 evs2 ts2 w → exec i s = .next (ended (okResponse (results w)) es (ts1 ++ ts2) s))
      ∧ (∀ st, PhaseFails x 1 cw2 evs2 ts2 st → exec i s = .next (ended (errorResponse st) es (ts1 ++ ts2) s)))
    ∧ (∀ st es, PhaseFails x 0 cw1 evs1 ts1 st → s.events = evs1 ++ es →
      exec i s = .next (ended (errorResponse st) es ts1 s)) := by
  have hstart : Reaches (progOf i x) [] [] (mdioPhase x 0 cw1 fun _ => mdioPhase x 1 cw2 fun w => .ret (results w)) :=
    hprog ▸ .refl _
  refine ⟨fun w1 hfirst evs2 es ts2 hev => ?firstRuns, fun st es hfirst hev => ?firstFails⟩
  case firstRuns =>
    obtain ⟨rxs1, rfl, hrun⟩ := exists_reaches_of_phaseRuns hfirst
    have hsecond := hstart.trans (hrun _)
    exact ⟨fun w hphase => exec_of_phaseRuns hready h1 h2 hsecond hphase rfl hev,
      fun st hphase => exec_of_phaseFails hready h1 h2 hsecond hphase hev⟩
  case firstFails => exact exec_of_phaseFails hready h1 h2 hstart hfirst hev

/-! ## C22RD and C22WR (R141, R142) -/

theorem progOf_c22rd (prtad regad : Byte) (x : Ctx) :
    progOf (.c22rd prtad regad) x
      = mdioPhase x 0 (mdioCw x.p.mdioLayout .c22Read (prtad.setWidth 5) (regad.setWidth 5) 0) fun w =>
        .ret (.data (mdioData x.p.mdioLayout w)) := rfl

theorem progOf_c22wr (prtad regad : Byte) (data : W16) (x : Ctx) :
    progOf (.c22wr prtad regad data) x
      = mdioPhase x 0 (mdioCw x.p.mdioLayout .c22Write (prtad.setWidth 5) (regad.setWidth 5) data) fun _ =>
        .ret .empty := rfl

/-- Settles O34: C22RD is one phase, whose last poll's word gives the data. -/
theorem c22rdRunsOnePhase : Obligations.C22rdRunsOnePhase := by
  intro s x prtad regad cw evs es ts hready hcw hev
  subst hcw
  exact exec_onePhase hready rfl nofun (progOf_c22rd prtad regad x) hev

/-- Settles O35: C22WR is one phase without results. -/
theorem c22wrRunsOnePhase : Obligations.C22wrRunsOnePhase := by
  intro s x prtad regad data cw evs es ts hready hcw hev
  subst hcw
  exact exec_onePhase hready rfl nofun (progOf_c22wr prtad regad data x) hev

/-! ## C45RD and C45WR (R143, R144) -/

theorem progOf_c45rd (prtad devad : Byte) (regaddr : W16) (x : Ctx) :
    progOf (.c45rd prtad devad regaddr) x
      = mdioPhase x 0 (mdioCw x.p.mdioLayout .c45Addr (prtad.setWidth 5) (devad.setWidth 5) regaddr) fun _ =>
        mdioPhase x 1 (mdioCw x.p.mdioLayout .c45Read (prtad.setWidth 5) (devad.setWidth 5) 0) fun w =>
        .ret (.data (mdioData x.p.mdioLayout w)) := rfl

theorem progOf_c45wr (prtad devad : Byte) (regaddr data : W16) (x : Ctx) :
    progOf (.c45wr prtad devad regaddr data) x
      = mdioPhase x 0 (mdioCw x.p.mdioLayout .c45Addr (prtad.setWidth 5) (devad.setWidth 5) regaddr) fun _ =>
        mdioPhase x 1 (mdioCw x.p.mdioLayout .c45Write (prtad.setWidth 5) (devad.setWidth 5) data) fun _ =>
        .ret .empty := rfl

/-- Settles O36: C45RD is two phases, the last poll's word of the second giving the data. -/
theorem c45rdRunsTwoPhases : Obligations.C45rdRunsTwoPhases := by
  intro s x prtad devad regaddr cw1 cw2 evs1 ts1 hready hcw1 hcw2
  subst hcw1 hcw2
  exact exec_twoPhases hready rfl nofun (progOf_c45rd prtad devad regaddr x)

/-- Settles O37: C45WR is two phases without results. -/
theorem c45wrRunsTwoPhases : Obligations.C45wrRunsTwoPhases := by
  intro s x prtad devad regaddr data cw1 cw2 evs1 ts1 hready hcw1 hcw2
  subst hcw1 hcw2
  exact exec_twoPhases hready rfl nofun (progOf_c45wr prtad devad regaddr data x)

end Sys2Proof.Laws.MdioEngine

/-! SUPPORT. The faults of spec/60_exceptions.md section 4: what the sequencer does with any instruction in the states that
refuse it (R210), what running and then faulting leaves, and FIFORX's frame size between the two bounds of R164. -/

namespace Sys2Proof.Laws.Faults

open Machine MdioEngine

/-! ## Instructions that are not accepted (R27, R204 item 1, R210) -/

/-- Every instruction passes the sequencer's test before its meaning, and of the instruction the test sees only whether it
is INIT. -/
theorem exists_exec_eq_onAccept (i : Instr) : ∃ meaning, ∀ s, exec i s = onAccept i.isInit s meaning := by
  by_cases hinit : i.isInit = true
  case pos =>
    cases i <;> cases hinit
    exact ⟨_, Control.exec_init _ _ _⟩
  case neg =>
    have hnot : i.isInit = false := Bool.eq_false_iff.mpr hinit
    by_cases hdeinit : i = .deinit
    case pos => exact hdeinit ▸ ⟨_, Control.exec_deinit⟩
    case neg => exact ⟨startOp i (progOf i), fun s => by rw [exec_request hnot hdeinit, hnot, request]⟩

theorem exec_of_uninit {i : Instr} {s : State} (hlife : s.life = .uninit) (hi : i.isInit = false) :
    exec i s = .next (enterFault .fUninit s) := by
  obtain ⟨meaning, hexec⟩ := exists_exec_eq_onAccept i
  rw [hexec, hi, Control.onAccept_uninit hlife]

theorem exec_of_busy {s : State} {op : Instr} {n : Nat} {l : Locals} (hlife : s.life = .busy op n l) (i : Instr) :
    exec i s = .next (enterFault .fReentrant s) := by
  obtain ⟨meaning, hexec⟩ := exists_exec_eq_onAccept i
  rw [hexec, onAccept_busy hlife]

/-! ## The fault state is sticky (R210) -/

theorem exec_of_fault {s : State} {n : FaultName} (hlife : s.life = .fault n) (i : Instr) :
    exec i s = .fault (.sticky n) := by
  obtain ⟨meaning, hexec⟩ := exists_exec_eq_onAccept i
  rw [hexec, onAccept_fault hlife]

theorem takeRequest_of_fault {s : State} {n : FaultName} (hlife : s.life = .fault n) (r : Request) :
    takeRequest r s = .fault (.sticky n) := by
  rw [takeRequest, hlife]

theorem takeNoRequest_of_fault {s : State} {n : FaultName} (hlife : s.life = .fault n) :
    takeNoRequest s = .fault (.sticky n) := by
  rw [takeNoRequest, hlife]

/-- A request and any other event alike find no step. -/
theorem takeEvent_of_fault {s : State} {n : FaultName} (hlife : s.life = .fault n) :
    takeEvent s = .fault (.sticky n) := by
  unfold takeEvent
  split
  next r es _ => exact takeRequest_of_fault (s := { s with events := es }) hlife r
  next => exact takeNoRequest_of_fault hlife

theorem step_of_fault {s : State} {n : FaultName} (hwf : s.params.wf) (hlife : s.life = .fault n) :
    step s = .fault (.sticky n) := by
  rw [step_takes hwf, takeEvent_of_fault hlife]

/-! ## An operation that faults after answered transactions -/

/-- A transaction that is answered comes to what follows it. -/
theorem reaches_of_fits {tx rx : Bytes} (hfit : Fits rx tx) (rest : Bytes → Prog) :
    Reaches (.xfer tx rest) [rx] [exchanged tx rx] (rest rx) where
  transcript_eq := by rw [transcript, transcript_nil, exchanged]
  length_eq := rfl
  fits := RegBus.fitsAll_cons hfit RegBus.fitsAll_nil
  progAfter_eq := by rw [progAfter, progAfter_nil]

theorem enterFault_afterReceived (pr : Prog) (rxs : List Bytes) (s : State) (n : FaultName) (es : List Event) :
    enterFault n { afterReceived pr rxs s with events := es } = faulted n es (transcript pr rxs) s := by
  simp [enterFault, faulted, afterReceived_txbuf, afterReceived_rxbuf]

/-- An instruction whose pseudocode faults after answered transactions delivers no response (R210). -/
theorem exec_faults_of_reaches {i : Instr} {s : State} {x : Ctx} {rxs : List Bytes} {ts : List Transaction}
    {n : FaultName} {es : List Event} (hready : Ready s x) (h1 : i.isInit = false) (h2 : i ≠ .deinit)
    (hreach : Reaches (progOf i x) rxs ts (.fault n)) (hev : s.events = rxs.map answered ++ es) :
    exec i s = .next (faulted n es ts s) := by
  obtain ⟨rfl, hlen, hfit, hafter⟩ := hreach
  rw [exec_request h1 h2, request_ready hready, hev, run_answered _ _ hlen hfit, hafter, run_fault,
    enterFault_afterReceived]
  rfl

/-! ## FIFORX of a frame too short for its Ethernet header (R164) -/

theorem progOf_fiforx_some {x : Ctx} {port : Byte} (hport : port.toNat < x.cfg.ports.toNat) (cap : W32) :
    progOf (.fiforx port (some cap)) x
      = .xfer (rframe x.p (portAddr x.p.rxFsizeAddr port.toNat)) fun rx =>
        fiforxTake port.toNat cap (rdecode x.p rx) x :=
  require_holds (decide_eq_true hport) _ _

theorem fiforxTake_of_short {x : Ctx} {fs : W32} (hge : headerLen x + x.p.fcsLen ≤ fs.toNat)
    (hlt : fs.toNat < headerLen x + x.p.ethHdrLen) (port : Nat) (cap : W32) :
    fiforxTake port cap fs x = .fault (.fRxShort fs) := by
  rw [fiforxTake, if_neg (Nat.not_lt.mpr hge), if_pos hlt]

/-- FIFORX reads the frame size and faults on it. -/
theorem exec_fiforx_of_short {s : State} {x : Ctx} {port : Byte} {rx : Bytes} {es : List Event} (hready : Ready s x)
    (hport : port.toNat < x.cfg.ports.toNat) (hfit : Fits rx (rframe x.p (portAddr x.p.rxFsizeAddr port.toNat)))
    (hev : s.events = answered rx :: es) (hge : headerLen x + x.p.fcsLen ≤ (rdecode x.p rx).toNat)
    (hlt : (rdecode x.p rx).toNat < headerLen x + x.p.ethHdrLen) (cap : W32) :
    exec (.fiforx port (some cap)) s = .next (faulted (.fRxShort (rdecode x.p rx)) es
      [exchanged (rframe x.p (portAddr x.p.rxFsizeAddr port.toNat)) rx] s) := by
  have hreach := reaches_of_fits hfit fun rx => fiforxTake port.toNat cap (rdecode x.p rx) x
  rw [← progOf_fiforx_some hport, fiforxTake_of_short hge hlt] at hreach
  exact exec_faults_of_reaches hready rfl nofun hreach hev

/-! ## Each fault by its cause -/

/-- Settles O10: the three faults of acceptance, the one inside FIFORX, and the state that none of them leaves. -/
theorem faultsAreEnteredAndSticky : Obligations.FaultsAreEnteredAndSticky := by
  refine ⟨fun i s hlife hi => ?uninit, fun poly ports crcEn s hlife => ?reinit, fun i s op n l hlife => ?reentrant,
    fun s x port cap rx es hready hport hfit hev hge hlt => ?rxShort, fun i s n hlife => ?sticky⟩
  case uninit => exact exec_of_uninit hlife hi
  case reinit => exact (Control.exec_init ..).trans (Control.onAccept_init_idle hlife _)
  case reentrant => exact exec_of_busy hlife i
  case rxShort => exact exec_fiforx_of_short hready hport hfit hev hge hlt cap
  case sticky => exact ⟨exec_of_fault hlife i, fun hwf => step_of_fault hwf hlife⟩

end Sys2Proof.Laws.Faults

/-! SUPPORT. The boot requirement R231 of spec/70_reset_and_hazards.md: a request that meets an operation in progress, as the
event of a step or as the event an instruction finds at its first wait. -/

namespace Sys2Proof.Laws.Reentrancy

open Machine

/-! ## A request between two steps -/

/-- The request is not decoded (R201). -/
theorem takeRequest_of_busy {s : State} {op : Instr} {n : Nat} {l : Locals} (hlife : s.life = .busy op n l) (r : Request) :
    takeRequest r s = .next (enterFault .fReentrant s) := by
  rw [takeRequest, hlife]

theorem step_of_busy_request {s : State} {op : Instr} {n : Nat} {l : Locals} {r : Request} {es : List Event}
    (hwf : s.params.wf) (hlife : s.life = .busy op n l) (hev : s.events = .request r :: es) :
    step s = .next (enterFault .fReentrant { s with events := es }) := by
  rw [step_takes hwf, takeEvent, hev]
  exact takeRequest_of_busy (s := { s with events := es }) hlife r

/-! ## A request at an instruction's first wait -/

/-- The instruction was accepted, so the block is BUSY when it meets the request (R27). -/
theorem exec_of_awaiting_request {i : Instr} {s : State} {x : Ctx} {r : Request} {es : List Event} (hready : Ready s x)
    (h1 : i.isInit = false) (h2 : i ≠ .deinit) (hwait : Awaiting (progOf i x)) (hev : s.events = .request r :: es) :
    exec i s = .next (enterFault .fReentrant { s with events := es }) := by
  obtain ⟨tx, rest, hxfer⟩ := hwait
  rw [exec_request h1 h2, request_ready hready, hev, hxfer, run_xfer_request]
  rfl

/-- Settles O11, by where the request lands: before a step, or at an instruction's first wait. -/
theorem reentrantRequestFaults : Obligations.ReentrantRequestFaults := by
  refine ⟨fun s op n l r es hwf hlife hev => ?betweenSteps, fun s x i r es hready h1 h2 hwait hev => ?atFirstWait⟩
  case betweenSteps => exact step_of_busy_request hwf hlife hev
  case atFirstWait => exact exec_of_awaiting_request hready h1 h2 hwait hev

end Sys2Proof.Laws.Reentrancy

/-! SUPPORT. What an operation's pseudocode can do, whatever its transactions receive: how many it issues (R239), which
strings it sends (R24, R72, R73, R81, R82) and which statuses it raises (R200). One case analysis over the operations,
`behaves_progOf`, serves the buffer, response and bound statements. -/

namespace Sys2Proof.Laws.Pseudocode

open Machine

/-! ## The predicate -/

/-- From here on the pseudocode issues at most `n` transactions, sends only strings of which `P` holds, and raises only
statuses that the block raises and that are not OK (R200, R202). -/
inductive Behaves (P : Bytes → Prop) : Nat → Prog → Prop where
  | ret (n : Nat) (res : Results) : Behaves P n (.ret res)
  | raise (n : Nat) {st : Status} (h : 1 ≤ (statusCode st).toNat ∧ (statusCode st).toNat ≤ 5) : Behaves P n (.raise st)
  | fault (n : Nat) (f : FaultName) : Behaves P n (.fault f)
  | xfer {n : Nat} {tx : Bytes} {rest : Bytes → Prog} (htx : P tx) (hrest : ∀ rx, Behaves P n (rest rx)) :
      Behaves P (n + 1) (.xfer tx rest)

variable {P : Bytes → Prop} {m n : Nat} {pr : Prog} {x : Ctx}

theorem Behaves.mono (h : Behaves P m pr) (hle : m ≤ n) : Behaves P n pr := by
  induction h generalizing n with
  | ret _ res => exact .ret n res
  | raise _ hst => exact .raise n hst
  | fault _ f => exact .fault n f
  | @xfer m tx rest htx _ ih =>
    obtain ⟨k, rfl⟩ := Nat.exists_eq_add_of_lt (show m < n by omega)
    exact .xfer htx fun rx => ih rx (by omega)

/-- The transactions that are behind use up the bound, and each sent a string of `P`. -/
theorem Behaves.progAfter (h : Behaves P n pr) (rxs : List Bytes) :
    (∀ t ∈ transcript pr rxs, P t.tx) ∧ (transcript pr rxs).length ≤ n
      ∧ Behaves P (n - (transcript pr rxs).length) (progAfter pr rxs) := by
  induction rxs generalizing pr n with
  | nil => simpa using h
  | cons rx rxs ih =>
    cases h with
    | ret n res => exact ⟨by simp [transcript], by simp [transcript], .ret _ res⟩
    | raise n hst => exact ⟨by simp [transcript], by simp [transcript], .raise _ hst⟩
    | fault n f => exact ⟨by simp [transcript], by simp [transcript], .fault _ f⟩
    | xfer htx hrest =>
      obtain ⟨hsent, hlen, hafter⟩ := ih (hrest rx)
      refine ⟨?_, by simpa [transcript] using hlen, by simpa [transcript, Machine.progAfter] using hafter⟩
      simpa [transcript] using ⟨htx, hsent⟩

/-- A pseudocode before a transaction has one left in its bound, for a string of `P`. -/
theorem Behaves.of_xfer {tx : Bytes} {rest : Bytes → Prog} (h : Behaves P n (.xfer tx rest)) :
    P tx ∧ 1 ≤ n ∧ ∀ rx, Behaves P (n - 1) (rest rx) := by
  cases h with
  | xfer htx hrest => exact ⟨htx, by omega, hrest⟩

theorem Behaves.of_raise {st : Status} (h : Behaves P n (.raise st)) :
    1 ≤ (statusCode st).toNat ∧ (statusCode st).toNat ≤ 5 := by
  cases h with
  | raise _ hst => exact hst

/-! ## The strings the block sends -/

/-- `P` holds of every string that an operation sends. -/
structure Sendable (P : Bytes → Prop) (x : Ctx) : Prop where
  wframe : ∀ a v, P (wframe x a v)
  rframe : ∀ a, P (rframe x.p a)
  txframe : ∀ port d m t l, macLengthsOk x.p d m t = true → txFits x l.length = true → P (txframe x port d m t l)
  rxcmd : ∀ port fs, rxFits x fs = true → P (rxcmd x.p port fs)

theorem sendable_true (x : Ctx) : Sendable (fun _ => True) x where
  wframe _ _ := trivial
  rframe _ := trivial
  txframe _ _ _ _ _ _ _ := trivial
  rxcmd _ _ _ := trivial

/-- The three fields of an Ethernet header of the right lengths (R7, R163). -/
theorem length_of_macLengthsOk {p : Params} (hp : p.wf) {d m t : Bytes} (h : macLengthsOk p d m t = true) :
    d.length + m.length + t.length = p.ethHdrLen := by
  obtain ⟨-, -, -, -, -, -, -, -, -, hmac⟩ := hp
  simp only [macLengthsOk, Bool.and_eq_true, beq_iff_eq, Params.ethertypeLen] at h
  omega

/-- R24: with R7's parameters and the rules' own checks no string is longer than a scratch buffer. -/
theorem sendable_bufLen (hp : x.p.wf) : Sendable (fun tx => tx.length ≤ x.p.bufLen) x := by
  have heth := @length_of_macLengthsOk _ hp
  obtain ⟨-, -, -, -, -, hreg, -, -, halign, -⟩ := hp
  refine ⟨fun a v => ?_, fun a => ?_, fun port d m t l hlens hfits => ?_, fun port fs hfits => ?_⟩
  · have hcrc := x.cfg.crcEn.toNat_le
    rw [Encoding.wframe_length]
    omega
  · rw [Encoding.rframe_length]
    omega
  · rw [Encoding.txframe_length port halign (heth hlens)]
    exact of_decide_eq_true hfits
  · rw [Encoding.rxcmd_length]
    exact of_decide_eq_true hfits

/-! ## The parts of a pseudocode -/

theorem Behaves.require {b : Bool} {r : ArgReason} (h : b = true → Behaves P n pr) : Behaves P n (require b r pr) := by
  cases b with
  | true => exact h rfl
  | false => exact .raise n (by simp [statusCode])

theorem Behaves.needArg {α : Type} {a : Option α} {rest : α → Prog} (h : ∀ v, Behaves P n (rest v)) :
    Behaves P n (needArg a rest) := by
  cases a with
  | some v => exact h v
  | none => exact .raise n (by simp [statusCode])

theorem Behaves.regwrSeq (hs : Sendable P x) (a : Nat) (v : W32) (h : Behaves P n pr) :
    Behaves P (n + 1) (regwrSeq x a v pr) :=
  .xfer (hs.wframe a v) fun _ => h

theorem Behaves.regrdSeq (hs : Sendable P x) (a : Nat) {rest : W32 → Prog} (h : ∀ v, Behaves P n (rest v)) :
    Behaves P (n + 1) (regrdSeq x a rest) :=
  .xfer (hs.rframe a) fun _ => h _

theorem Behaves.mdioPoll (hs : Sendable P x) (slot : Fin 2) {rest : W32 → Prog} (h : ∀ w, Behaves P n (rest w)) (k : Nat) :
    Behaves P (k + n) (mdioPoll x slot rest k) := by
  induction k with
  | zero => exact .raise _ (by simp [statusCode])
  | succ k ih =>
    rw [Nat.succ_add]
    refine .regrdSeq hs _ fun w => ?_
    split
    · exact (h w).mono (by omega)
    · exact ih

theorem Behaves.mdioPhase (hs : Sendable P x) (slot : Fin 2) (cw : W32) {rest : W32 → Prog}
    (h : ∀ w, Behaves P n (rest w)) : Behaves P (1 + x.p.mdioMaxPolls + n) (mdioPhase x slot cw rest) := by
  have hphase : Behaves P (x.p.mdioMaxPolls + n + 1) (Machine.mdioPhase x slot cw rest) :=
    .regwrSeq hs _ cw (.mdioPoll hs slot h _)
  exact hphase.mono (by omega)

/-! ## The operations -/

theorem behaves_fifotxSend (hs : Sendable P x) {d m t l : Bytes} (hlens : macLengthsOk x.p d m t = true)
    (hfits : txFits x l.length = true) (port : Nat) : Behaves P 6 (fifotxSend port d m t l x) := by
  simp only [fifotxSend]
  refine .regrdSeq (n := 5) hs _ fun space => ?_
  split
  case isTrue => exact .raise _ (by decide)
  case isFalse =>
    refine .regwrSeq (n := 4) hs _ _ (.xfer (hs.txframe port d m t l hlens hfits) fun _ => .regrdSeq hs _ fun st => ?_)
    split
    case isTrue => exact .regwrSeq hs _ _ (.regwrSeq hs _ _ (.raise 0 (by decide)))
    case isFalse => exact .ret _ _

theorem behaves_fiforxTake (hs : Sendable P x) (port : Nat) (cap fs : W32) : Behaves P 1 (fiforxTake port cap fs x) := by
  simp only [fiforxTake]
  split
  case isTrue => exact .ret _ _
  case isFalse =>
    split
    case isTrue => exact .fault _ _
    case isFalse => exact .require fun hfits => .require fun _ => .xfer (hs.rxcmd port _ hfits) fun _ => .ret 0 _

/-- R239 and R200 for every operation: its pseudocode stays within its row's most transactions. -/
theorem behaves_progOf (hs : Sendable P x) (op : Instr) : Behaves P (transactionRange x.p op).2 (progOf op x) := by
  have hdone : ∀ res : W32 → Results, ∀ w, Behaves P 0 (.ret (res w)) := fun res w => .ret 0 (res w)
  cases op with
  | init _ _ _ | deinit => exact .ret _ _
  | crc8 _ _ | crcchk _ _ _ => exact .needArg fun _ => .ret _ _
  | wfdec _ => exact .needArg fun _ => .require fun _ => .ret _ _
  | regwr _ _ | busWriteHdr _ _ => exact .regwrSeq hs _ _ (.ret 0 _)
  | regrd _ | busReadHdr _ => exact .regrdSeq hs _ fun _ => .ret 0 _
  | regupd addr mask value =>
    change Behaves P 2 (regupdProg addr mask value x)
    exact .regrdSeq hs _ fun _ => .regwrSeq hs _ _ (.ret 0 _)
  | c22rd _ _ | c22wr _ _ _ | mdioC22Read _ _ _ _ _ | mdioC22Write _ _ _ _ _ | mdioC45Addr _ _ _ _ _
  | mdioC45Write _ _ _ _ _ | mdioC45Read _ _ _ _ _ => exact .mdioPhase hs _ _ (hdone _)
  | c45rd _ _ _ | c45wr _ _ _ _ =>
    refine (Behaves.mdioPhase hs _ _ fun _ => .mdioPhase hs _ _ (hdone _)).mono ?_
    simp only [transactionRange]
    omega
  | fifotx port _ _ _ _ =>
    exact .require fun _ => .needArg fun _ => .needArg fun _ => .needArg fun _ => .needArg fun _ =>
      .require fun hlens => .require fun hfits => behaves_fifotxSend hs hlens hfits _
  | fiforx port _ =>
    exact .require fun _ => .needArg fun cap => .regrdSeq hs _ fun fs => behaves_fiforxTake hs _ cap fs

end Sys2Proof.Laws.Pseudocode

/-! SUPPORT. What every step keeps (spec/10_state.md R21 to R24, R27, R30, R32; spec/60_exceptions.md R200, R202). A step is
one of seven things, `Stepped`; each invariant is kept by each of them, the two that run a pseudocode by `run_spec`. -/

namespace Sys2Proof.Laws.Invariants

open Machine Pseudocode

/-! ## The seven things a step can be -/

/-- The step from `s` to `t`, down to the shared operation that makes it. -/
inductive Stepped (s t : State) : Prop where
  /-- A fault was entered. -/
  | faults (n : FaultName) (es : List Event) (ht : t = enterFault n { s with events := es })
  /-- An INIT was accepted (R100). -/
  | inits (poly : Byte) (crcEn : Bool) (ports : Byte) (es : List Event) (hlife : s.life = .uninit)
      (ht : t = initBody poly crcEn ports { s with events := es })
  /-- A DEINIT was accepted (R101). -/
  | deinits (es : List Event) (hlife : s.life = .idle) (ht : t = deliver (okResponse .empty) (release { s with events := es }))
  /-- A reserved operation code was answered (R84 (a)). -/
  | answersReserved (opc : Byte) (es : List Event) (hlife : s.life = .idle)
      (ht : t = deliver (errorResponse (.invalidOp opc)) { s with events := es })
  /-- No operation was in progress and no request was next. -/
  | rests (es : List Event) (hlife : s.life = .idle ∨ s.life = .uninit) (ht : t = { s with events := es })
  /-- An operation was accepted and started (R27). -/
  | starts (i : Instr) (es : List Event) (x : Ctx) (hlife : s.life = .idle) (h1 : i.isInit = false) (h2 : i ≠ .deinit)
      (hx : ctxOf s = some x) (ht : t = run (progOf i x) es { s with life := .busy i 0 ⟨[]⟩, events := es })
  /-- The operation in progress went on (R21). -/
  | resumes (op : Instr) (n : Nat) (l : Locals) (es : List Event) (x : Ctx) (hlife : s.life = .busy op n l)
      (hx : ctxOf s = some x) (ht : t = run (remaining op l x) es s)

/-- An instruction that an idle or unconfigured block takes up. -/
theorem stepped_of_exec {i : Instr} {s t : State} {es : List Event} (h : exec i { s with events := es } = .next t) :
    Stepped s t := by
  rcases exec_next h with ⟨n, ht⟩ | ⟨poly, crcEn, ports, -, hlife, ht⟩ | ⟨-, hlife, ht⟩ | ⟨h1, h2, hlife, x, hx, ht⟩
  · exact .faults n es ht
  · exact .inits poly crcEn ports es hlife ht
  · exact .deinits es hlife ht
  · exact .starts i es x hlife h1 h2 hx ht

theorem stepped_of_step {s t : State} (h : step s = .next t) : Stepped s t := by
  rcases step_next h with ⟨n, es, ht⟩ | ⟨i, es, hexec, -⟩ | ⟨opc, es, hlife, ht⟩ | ⟨es, hlife, ht⟩
    | ⟨op, n, l, es, x, hlife, hx, ht⟩
  · exact .faults n es ht
  · exact stepped_of_exec hexec
  · exact .answersReserved opc es hlife ht
  · exact .rests es hlife ht
  · exact .resumes op n l es x hlife hx ht

/-- The two outcomes of INIT's body (R100). -/
theorem initBody_cases (poly : Byte) (crcEn : Bool) (ports : Byte) (s : State) :
    ((ports = 1 ∨ ports = 2) ∧ initBody poly crcEn ports s = finish (okResponse .empty) (configure poly crcEn ports s))
      ∨ initBody poly crcEn ports s = deliver (errorResponse (.invalidArg .variant)) s := by
  by_cases hports : ports = 1 ∨ ports = 2
  · exact .inl ⟨hports, Control.initBody_of_legal hports poly crcEn s⟩
  · exact .inr (Control.initBody_of_illegal hports poly crcEn s)

/-! ## What a run of the operation in progress comes to -/

/-- A response with a status that the block raises, and with results exactly under status OK (R200, R202). -/
def LegalResponse (r : Response) : Prop := r.status.toNat ≤ 5 ∧ (r.results.isSome ↔ r.status = 0)

theorem legalResponse_ok (res : Results) : LegalResponse (okResponse res) := by
  simp [LegalResponse, okResponse, statusCode]

theorem legalResponse_error {st : Status} (h : 1 ≤ (statusCode st).toNat ∧ (statusCode st).toNat ≤ 5) :
    LegalResponse (errorResponse st) := by
  refine ⟨h.2, by simp [errorResponse], fun h0 => ?_⟩
  have hzero : (statusCode st).toNat = 0 := congrArg BitVec.toNat h0
  omega

/-- The state `t` after a run of `pr` from `s`, where `op` was in progress with `n` transactions behind it: it ended with one
response, it faulted with none, or it waits further on. -/
inductive RunOutcome (op : Instr) (n : Nat) (l : Locals) (pr : Prog) (s t : State) : Prop where
  | ended (r : Response) (hlife : t.life = .idle) (hresp : t.responses = s.responses ++ [r]) (hlegal : LegalResponse r)
  | faulted (f : FaultName) (hlife : t.life = .fault f) (hresp : t.responses = s.responses)
  | waits (rxs : List Bytes) (hlife : t.life = .busy op (n + rxs.length) ⟨l.received ++ rxs⟩)
      (hresp : t.responses = s.responses) (hlen : (transcript pr rxs).length = rxs.length)
      (hhist : t.history = s.history ++ transcript pr rxs) (hwait : Awaiting (progAfter pr rxs))

theorem run_outcome {P : Bytes → Prop} {k : Nat} {op : Instr} {n : Nat} {l : Locals} {pr : Prog} {s : State}
    (hb : Behaves P k pr) (hlife : s.life = .busy op n l) (es : List Event) :
    RunOutcome op n l pr s (run pr es s) := by
  obtain ⟨rxs, es', hlen, -, hran⟩ := run_spec pr es s
  cases hran with
  | returned res _ ht => exact .ended _ (by simp [ht]) (by simp [ht]) (legalResponse_ok res)
  | raised st hst ht =>
    have hafter := (hb.progAfter rxs).2.2
    rw [hst] at hafter
    exact .ended _ (by simp [ht]) (by simp [ht]) (legalResponse_error hafter.of_raise)
  | busError tx rest e _ ht =>
    exact .ended _ (by simp [ht]) (by simp [ht]) (legalResponse_error (st := .busError e) (by simp [statusCode]))
  | faulted f _ ht => exact .faulted f (by simp [ht]) (by simp [ht])
  | reentered _ ht => exact .faulted .fReentrant (by simp [ht]) (by simp [ht])
  | waits hwait _ ht =>
    exact .waits rxs (by simp [ht, afterReceived_life pr rxs hlife hlen]) (by simp [ht]) hlen (by simp [ht]) hwait

/-- The pseudocode of an operation, as it starts and as it goes on, behaves within its row's most transactions. -/
theorem behaves_remaining {P : Bytes → Prop} {x : Ctx} (hs : Sendable P x) (op : Instr) (l : Locals) :
    Behaves P (transactionRange x.p op).2 (remaining op l x) :=
  ((behaves_progOf hs op).progAfter l.received).2.2.mono (Nat.sub_le _ _)

theorem start_outcome {s : State} {x : Ctx} (i : Instr) (es es' : List Event) :
    RunOutcome i 0 ⟨[]⟩ (progOf i x) s (run (progOf i x) es { s with life := .busy i 0 ⟨[]⟩, events := es' }) := by
  have hout := run_outcome (s := { s with life := .busy i 0 ⟨[]⟩, events := es' })
    (behaves_progOf (sendable_true x) i) rfl es
  cases hout with
  | ended r hlife hresp hlegal => exact .ended r hlife hresp hlegal
  | faulted f hlife hresp => exact .faulted f hlife hresp
  | waits rxs hlife hresp hlen hhist hwait => exact .waits rxs hlife hresp hlen hhist hwait

theorem resume_outcome {s : State} {op : Instr} {n : Nat} {l : Locals} (x : Ctx) (hlife : s.life = .busy op n l)
    (es : List Event) : RunOutcome op n l (remaining op l x) s (run (remaining op l x) es s) :=
  run_outcome (behaves_remaining (sendable_true x) op l) hlife es

/-! ## The configuration (R22, R23, R32) -/

theorem configured_congr {s t : State} (hcfg : t.cfg = s.cfg) (htable : t.crcTable = s.crcTable) :
    Configured t ↔ Configured s := by
  simp only [Configured, hcfg, htable]

/-- Whatever the sequencer's state, the configuration has a value or nothing has. -/
theorem unconfigured_or_configured {s : State} (h : ConfigInv s) : Unconfigured s ∨ Configured s := by
  unfold ConfigInv at h
  split at h
  · exact .inl h
  · exact .inr h
  · exact .inr h.1
  · exact h

theorem configInv_of_uninit {s : State} (hlife : s.life = .uninit) : ConfigInv s ↔ Unconfigured s := by
  simp only [ConfigInv, hlife]

theorem configInv_of_idle {s : State} (hlife : s.life = .idle) : ConfigInv s ↔ Configured s := by
  simp only [ConfigInv, hlife]

theorem configInv_of_busy {s : State} {op : Instr} {n : Nat} {l : Locals} (hlife : s.life = .busy op n l) :
    ConfigInv s ↔ Configured s ∧ op.isInit = false ∧ op ≠ .deinit := by
  simp only [ConfigInv, hlife]

theorem configInv_of_fault {s : State} {f : FaultName} (hlife : s.life = .fault f) :
    ConfigInv s ↔ Unconfigured s ∨ Configured s := by
  simp only [ConfigInv, hlife]

/-- A run keeps the configuration, and what it leaves in progress is what was. -/
theorem configInv_of_outcome {op : Instr} {n : Nat} {l : Locals} {pr : Prog} {s t : State}
    (hout : RunOutcome op n l pr s t) (hconf : Configured t) (h1 : op.isInit = false) (h2 : op ≠ .deinit) :
    ConfigInv t := by
  cases hout with
  | ended r hlife _ _ => exact (configInv_of_idle hlife).mpr hconf
  | faulted f hlife _ => exact (configInv_of_fault hlife).mpr (.inr hconf)
  | waits rxs hlife _ _ _ _ => exact (configInv_of_busy hlife).mpr ⟨hconf, h1, h2⟩

/-- The configuration INIT writes is legal, its table that of its polynomial (R100). -/
theorem configured_configure {ports : Byte} (h : ports = 1 ∨ ports = 2) (poly : Byte) (crcEn : Bool) (s : State) :
    Configured (configure poly crcEn ports s) := by
  refine ⟨_, rfl, rfl, ?_⟩
  rcases h with rfl | rfl
  · exact .inl rfl
  · exact .inr rfl

/-- Settles O3, by what the step was. -/
theorem stepKeepsConfigurationInvariant : Obligations.StepKeepsConfigurationInvariant := by
  intro s t hinv hstep
  cases stepped_of_step hstep with
  | faults n es ht =>
    have hvalue := unconfigured_or_configured hinv
    subst ht
    exact (configInv_of_fault rfl).mpr hvalue
  | inits poly crcEn ports es hlife ht =>
    rcases initBody_cases poly crcEn ports { s with events := es } with ⟨hports, hbody⟩ | hbody
    · rw [ht, hbody]
      exact (configInv_of_idle rfl).mpr (configured_configure hports poly crcEn { s with events := es })
    · rw [ht, hbody]
      exact (configInv_of_uninit hlife).mpr ((configInv_of_uninit hlife).mp hinv)
  | deinits es _ ht =>
    subst ht
    exact (configInv_of_uninit rfl).mpr ⟨rfl, rfl, rfl, rfl⟩
  | answersReserved opc es hlife ht =>
    subst ht
    exact (configInv_of_idle hlife).mpr ((configInv_of_idle hlife).mp hinv)
  | rests es hlife ht =>
    subst ht
    exact hinv
  | starts i es x hlife h1 h2 hx ht =>
    obtain ⟨-, hcfg, htable⟩ := run_frame (progOf i x) es { s with life := .busy i 0 ⟨[]⟩, events := es }
    subst ht
    exact configInv_of_outcome (start_outcome i es es)
      ((configured_congr hcfg htable).mpr ((configInv_of_idle hlife).mp hinv)) h1 h2
  | resumes op n l es x hlife hx ht =>
    obtain ⟨-, hcfg, htable⟩ := run_frame (remaining op l x) es s
    obtain ⟨hconf, h1, h2⟩ := (configInv_of_busy hlife).mp hinv
    subst ht
    exact configInv_of_outcome (resume_outcome x hlife es) ((configured_congr hcfg htable).mpr hconf) h1 h2

/-! ## An instruction, and a step of an operation in progress -/

/-- A step of an operation in progress faults or goes on with its pseudocode. -/
theorem step_of_busy {s t : State} {op : Instr} {n : Nat} {l : Locals} (hlife : s.life = .busy op n l)
    (h : step s = .next t) :
    (∃ f es, t = enterFault f { s with events := es })
      ∨ ∃ es x, ctxOf s = some x ∧ t = run (remaining op l x) es s := by
  cases stepped_of_step h with
  | faults f es ht => exact .inl ⟨f, es, ht⟩
  | inits _ _ _ _ hlife' _ | deinits _ hlife' _ | answersReserved _ _ hlife' _ | rests _ hlife' _
  | starts _ _ _ hlife' _ _ _ _ => simp [hlife] at hlife'
  | resumes op' n' l' es x hlife' hx ht =>
    rw [hlife] at hlife'
    cases hlife'
    exact .inr ⟨es, x, hx, ht⟩

/-- Settles O8: INIT and DEINIT apart, an instruction and the rest of one in progress are runs, which write neither. -/
theorem onlyInitAndDeinitWriteConfiguration : Obligations.OnlyInitAndDeinitWriteConfiguration := by
  rintro s t (⟨i, h1, h2, hexec⟩ | ⟨⟨op, n, l, hlife⟩, hstep⟩)
  · rcases exec_next hexec with ⟨n, rfl⟩ | ⟨poly, crcEn, ports, rfl, -⟩ | ⟨rfl, -⟩ | ⟨-, -, -, x, -, rfl⟩
    · exact ⟨rfl, rfl⟩
    · cases h1
    · exact absurd rfl h2
    · exact (run_frame _ _ _).2
  · rcases step_of_busy hlife hstep with ⟨f, es, rfl⟩ | ⟨es, x, -, rfl⟩
    · exact ⟨rfl, rfl⟩
    · exact (run_frame _ _ _).2

/-- One response was delivered where the block is idle or not configured, and none where an operation is in progress or it
faulted (R27, R210). -/
def OneResponseIfEnded (s t : State) : Prop :=
  (t.life = .idle ∨ t.life = .uninit → ∃ r, t.responses = s.responses ++ [r])
    ∧ ((∃ op n l, t.life = .busy op n l) ∨ (∃ n, t.life = .fault n) → t.responses = s.responses)

theorem oneResponse_of_ended {s t : State} {r : Response} (hlife : t.life = .idle ∨ t.life = .uninit)
    (hresp : t.responses = s.responses ++ [r]) : OneResponseIfEnded s t := by
  refine ⟨fun _ => ⟨r, hresp⟩, ?_⟩
  rcases hlife with hlife | hlife <;> simp [hlife]

theorem oneResponse_of_fault {s t : State} {f : FaultName} (hlife : t.life = .fault f)
    (hresp : t.responses = s.responses) : OneResponseIfEnded s t :=
  ⟨by simp [hlife], fun _ => hresp⟩

theorem oneResponse_of_outcome {op : Instr} {n : Nat} {l : Locals} {pr : Prog} {s t : State}
    (hout : RunOutcome op n l pr s t) : OneResponseIfEnded s t := by
  cases hout with
  | ended r hlife hresp _ => exact oneResponse_of_ended (.inl hlife) hresp
  | faulted f hlife hresp => exact oneResponse_of_fault hlife hresp
  | waits rxs hlife hresp _ _ _ => exact ⟨by simp [hlife], fun _ => hresp⟩

/-- Settles O14, by what the instruction or the step was. -/
theorem oneResponsePerFinishedOperation : Obligations.OneResponsePerFinishedOperation := by
  rintro s t (⟨i, hexec⟩ | ⟨⟨op, n, l, hlife⟩, hstep⟩)
  · rcases exec_next hexec with ⟨f, rfl⟩ | ⟨poly, crcEn, ports, -, hlife, rfl⟩ | ⟨-, -, rfl⟩ | ⟨-, -, -, x, -, rfl⟩
    · exact oneResponse_of_fault rfl rfl
    · rcases initBody_cases poly crcEn ports s with ⟨-, hbody⟩ | hbody
      · exact oneResponse_of_ended (.inl (by simp [hbody])) (by rw [hbody]; rfl)
      · exact oneResponse_of_ended (.inr (by simp [hbody, hlife])) (by rw [hbody]; rfl)
    · exact oneResponse_of_ended (.inr rfl) rfl
    · exact oneResponse_of_outcome (start_outcome i s.events s.events)
  · rcases step_of_busy hlife hstep with ⟨f, es, rfl⟩ | ⟨es, x, -, rfl⟩
    · exact oneResponse_of_fault rfl rfl
    · exact oneResponse_of_outcome (resume_outcome x hlife es)

/-- Settles O15: an operation that is still in progress waits after the transactions it has counted. -/
theorem phaseCountsTransactions : Obligations.PhaseCountsTransactions := by
  intro s t op op' n n' l l' hlife hstep hlife'
  rcases step_of_busy hlife hstep with ⟨f, es, rfl⟩ | ⟨es, x, -, rfl⟩
  · cases hlife'
  · cases resume_outcome x hlife es with
    | ended r hend _ _ => simp [hend] at hlife'
    | faulted f hend _ => simp [hend] at hlife'
    | waits rxs hend _ hlen hhist _ =>
      rw [hend] at hlife'
      cases hlife'
      rw [hhist, List.length_append, hlen]
      exact ⟨rfl, by omega⟩

/-! ## The responses and the history (R27, R30, R200) -/

theorem responseInv_append {s t : State} {r : Response} (hinv : ResponseInv s) (hlegal : LegalResponse r)
    (hresp : t.responses = s.responses ++ [r]) : ResponseInv t := by
  intro r' hr'
  rw [hresp, List.mem_append, List.mem_singleton] at hr'
  rcases hr' with hr' | rfl
  · exact hinv r' hr'
  · exact hlegal

theorem responseInv_of_outcome {op : Instr} {n : Nat} {l : Locals} {pr : Prog} {s t : State} (hinv : ResponseInv s)
    (hout : RunOutcome op n l pr s t) : ResponseInv t := by
  cases hout with
  | ended r _ hresp hlegal => exact responseInv_append hinv hlegal hresp
  | faulted f _ hresp | waits rxs _ hresp _ _ _ => rwa [ResponseInv, hresp]

/-- Settles O6, by what the step was. -/
theorem stepKeepsResponsesLegal : Obligations.StepKeepsResponsesLegal := by
  intro s t hinv hstep
  cases stepped_of_step hstep with
  | faults n es ht => exact ht ▸ hinv
  | inits poly crcEn ports es _ ht =>
    rcases initBody_cases poly crcEn ports { s with events := es } with ⟨-, hbody⟩ | hbody
    · exact responseInv_append hinv (legalResponse_ok .empty) (by rw [ht, hbody]; rfl)
    · exact responseInv_append hinv (legalResponse_error (st := .invalidArg .variant) (by decide)) (by rw [ht, hbody]; rfl)
  | deinits es _ ht => exact responseInv_append hinv (legalResponse_ok .empty) (by rw [ht]; rfl)
  | answersReserved opc es _ ht =>
    exact responseInv_append hinv (legalResponse_error (st := .invalidOp opc) (by simp [statusCode])) (by rw [ht]; rfl)
  | rests es _ ht => exact ht ▸ hinv
  | starts i es x _ _ _ _ ht => exact ht ▸ responseInv_of_outcome hinv (start_outcome i es es)
  | resumes op n l es x hlife _ ht => exact ht ▸ responseInv_of_outcome hinv (resume_outcome x hlife es)

/-- A step's records: nothing of the history and of the responses is lost, and no parameter is written. -/
def Extends (s t : State) : Prop := s.history <+: t.history ∧ s.responses <+: t.responses ∧ t.params = s.params

theorem extends_run (pr : Prog) (es : List Event) (s : State) : Extends s (run pr es s) := by
  obtain ⟨rxs, es', -, -, hran⟩ := run_spec pr es s
  refine ⟨?_, ?_, (run_frame pr es s).1⟩
  · cases hran with
    | returned _ _ ht | raised _ _ ht | faulted _ _ ht | waits _ _ ht | reentered _ ht | busError _ _ _ _ ht =>
      simp [ht, List.append_assoc]
  · cases hran with
    | returned _ _ ht | raised _ _ ht | faulted _ _ ht | waits _ _ ht | reentered _ ht | busError _ _ _ _ ht => simp [ht]

/-- Settles O7, by what the step was. -/
theorem stepOnlyAppendsToHistory : Obligations.StepOnlyAppendsToHistory := by
  intro s t hstep
  cases stepped_of_step hstep with
  | faults n es ht | rests es _ ht => exact ht ▸ ⟨List.prefix_rfl, List.prefix_rfl, rfl⟩
  | inits poly crcEn ports es _ ht =>
    rcases initBody_cases poly crcEn ports { s with events := es } with ⟨-, hbody⟩ | hbody
    · exact ht ▸ hbody ▸ ⟨List.prefix_rfl, List.prefix_append _ _, rfl⟩
    · exact ht ▸ hbody ▸ ⟨List.prefix_rfl, List.prefix_append _ _, rfl⟩
  | deinits es _ ht | answersReserved opc es _ ht => exact ht ▸ ⟨List.prefix_rfl, List.prefix_append _ _, rfl⟩
  | starts i es x _ _ _ _ ht => exact ht ▸ extends_run _ es { s with life := .busy i 0 ⟨[]⟩, events := es }
  | resumes op n l es x _ _ ht => exact ht ▸ extends_run _ es s

/-! ## The position of an operation in progress (R21) -/

/-- Only a block that is BUSY has a position to keep. -/
theorem sequencerInv_of_not_busy {t : State} (h : ∀ op n l, t.life ≠ .busy op n l) : SequencerInv t :=
  fun op n l hlife => absurd hlife (h op n l)

theorem ctxOf_run (pr : Prog) (es : List Event) (s : State) : ctxOf (run pr es s) = ctxOf s := by
  obtain ⟨hp, hc, ht⟩ := run_frame pr es s
  exact ctxOf_congr hp hc ht

/-- A run from a known position comes to a known position: its transactions go onto the transcript. -/
theorem sequencerInv_of_outcome {op : Instr} {n : Nat} {l : Locals} {x : Ctx} {s t : State} {before : List Transaction}
    (hx : ctxOf t = some x) (hhist : s.history = before ++ transcript (progOf op x) l.received)
    (hphase : (transcript (progOf op x) l.received).length = n) (hlen : l.received.length = n)
    (hout : RunOutcome op n l (remaining op l x) s t) : SequencerInv t := by
  cases hout with
  | ended r hlife _ _ => exact sequencerInv_of_not_busy (by simp [hlife])
  | faulted f hlife _ => exact sequencerInv_of_not_busy (by simp [hlife])
  | waits rxs hlife _ hcount hgrow hwait =>
    intro op' n' l' hlife'
    rw [hlife] at hlife'
    cases hlife'
    obtain ⟨htranscript, hafter⟩ := transcript_append (hphase.trans hlen.symm) rxs
    refine ⟨x, before, hx, ?_, ?_, ?_, ?_⟩
    · rw [hgrow, hhist, htranscript, List.append_assoc, remaining]
    · rw [htranscript, List.length_append, hphase, ← remaining, hcount]
    · rw [List.length_append, hlen]
    · rwa [remaining, hafter]

/-- Settles O5: an operation starts at its first position, and a run goes on from the position the state is at. -/
theorem stepKeepsSequencerPosition : Obligations.StepKeepsSequencerPosition := by
  intro s t hinv hstep
  cases stepped_of_step hstep with
  | faults n es ht => exact sequencerInv_of_not_busy (by simp [ht])
  | inits poly crcEn ports es hlife ht =>
    rcases initBody_cases poly crcEn ports { s with events := es } with ⟨-, hbody⟩ | hbody
    · rw [ht, hbody]
      exact sequencerInv_of_not_busy (by simp)
    · rw [ht, hbody]
      exact sequencerInv_of_not_busy (by simp [hlife])
  | deinits es _ ht => exact sequencerInv_of_not_busy (by simp [ht])
  | answersReserved opc es hlife ht => exact sequencerInv_of_not_busy (by simp [ht, hlife])
  | rests es hlife ht => exact sequencerInv_of_not_busy (by rcases hlife with h | h <;> simp [ht, h])
  | starts i es x hlife _ _ hx ht =>
    have hout := start_outcome (s := s) (x := x) i es es
    rw [← ht] at hout
    refine sequencerInv_of_outcome (op := i) (s := s) (l := ⟨[]⟩) (x := x) (before := s.history) ?_ (by simp) (by simp) rfl ?_
    · rw [ht, ctxOf_run]
      exact hx
    · simpa [remaining] using hout
  | resumes op n l es x hlife hx ht =>
    obtain ⟨x', before, hx', hhist, hphase, hlen, -⟩ := hinv op n l hlife
    rw [hx] at hx'
    cases hx'
    exact sequencerInv_of_outcome (by rw [ht, ctxOf_run, hx]) hhist hphase hlen (ht ▸ resume_outcome x hlife es)

/-! ## The bound of the buffers (R24, R5) -/

theorem bytesLeft_length {k n : Nat} {a : Answer} (ha : ∀ rx, a = .ok rx → rx.length = n) :
    (bytesLeft k n a).length = n := by
  cases a with
  | ok rx => exact ha rx rfl
  | err e => simp [bytesLeft]

/-- A transaction within the bound, answered with a string of its length, keeps the bound. -/
theorem bufferInv_recordTransfer {s : State} {tx : Bytes} {a : Answer} (hinv : BufferInv s)
    (htx : tx.length ≤ s.params.bufLen) (ha : ∀ rx, a = .ok rx → rx.length = tx.length) :
    BufferInv (recordTransfer tx a s) := by
  obtain ⟨htxbuf, hrxbuf, hhist⟩ := hinv
  refine ⟨?_, ?_, ?_⟩
  · simpa using ⟨htx, htxbuf⟩
  · simpa [stageAnswer, bytesLeft_length ha] using ⟨htx, hrxbuf⟩
  · intro t ht
    rw [recordTransfer_history, List.mem_append, List.mem_singleton] at ht
    rcases ht with ht | rfl
    · exact hhist t ht
    · exact ⟨htx, ha⟩

/-- The invariant reads the parameters, the buffers and the history alone. -/
theorem bufferInv_congr {s t : State} (hp : t.params = s.params) (htx : t.txbuf = s.txbuf) (hrx : t.rxbuf = s.rxbuf)
    (hh : t.history = s.history) : BufferInv t ↔ BufferInv s := by
  simp only [BufferInv, hp, htx, hrx, hh]

theorem bufferInv_afterReceived {n : Nat} {pr : Prog} {s : State} (rxs : List Bytes) (hinv : BufferInv s)
    (hb : Behaves (fun tx => tx.length ≤ s.params.bufLen) n pr) (hl : LengthsMatch (transcript pr rxs)) :
    BufferInv (afterReceived pr rxs s) := by
  induction rxs generalizing pr s n with
  | nil => simpa using hinv
  | cons rx rxs ih =>
    cases hb with
    | ret _ _ | raise _ _ | fault _ _ => exact hinv
    | @xfer _ tx rest htx hrest =>
      obtain ⟨hhead, htail⟩ := List.forall_mem_cons.mp hl
      have hrec := bufferInv_recordTransfer hinv htx hhead
      refine ih ?_ (by simpa using hrest rx) htail
      exact (bufferInv_congr (by simp) (by simp) (by simp) (by simp)).mpr hrec

theorem bufferInv_run {n : Nat} {pr : Prog} {s : State} (es : List Event) (hinv : BufferInv s)
    (hb : Behaves (fun tx => tx.length ≤ s.params.bufLen) n pr) : BufferInv (run pr es s) := by
  obtain ⟨rxs, es', -, hl, hran⟩ := run_spec pr es s
  have hafter := bufferInv_afterReceived rxs hinv hb hl
  cases hran with
  | returned _ _ ht | raised _ _ ht | faulted _ _ ht | waits _ _ ht | reentered _ ht => rwa [ht]
  | busError tx rest e hp ht =>
    have hnext := (hb.progAfter rxs).2.2
    rw [hp] at hnext
    have hrec := bufferInv_recordTransfer (a := .err e) hafter (by simpa using hnext.of_xfer.1) nofun
    rwa [ht]

theorem bufferInv_of_empty {t : State} (htx : t.txbuf = []) (hrx : t.rxbuf = [])
    (hh : ∀ r ∈ t.history, r.tx.length ≤ t.params.bufLen ∧ ∀ rx, r.answer = .ok rx → rx.length = r.tx.length) :
    BufferInv t :=
  ⟨by simp [htx], by simp [hrx], hh⟩

/-- Settles O4: only a run stages anything, and R7's parameters and the rules' checks bound what it sends. -/
theorem stepKeepsBufferBound : Obligations.StepKeepsBufferBound := by
  intro s t hinv hstep
  have hwf := wf_of_step hstep
  have ⟨_, _, hhist⟩ := hinv
  cases stepped_of_step hstep with
  | faults n es ht | answersReserved _ es _ ht | rests es _ ht => exact ht ▸ hinv
  | inits poly crcEn ports es _ ht =>
    rcases initBody_cases poly crcEn ports { s with events := es } with ⟨-, hbody⟩ | hbody
    · exact ht ▸ hbody ▸ bufferInv_of_empty rfl rfl hhist
    · exact ht ▸ hbody ▸ hinv
  | deinits es _ ht => exact ht ▸ bufferInv_of_empty rfl rfl hhist
  | starts i es x _ _ _ hx ht =>
    obtain ⟨hp, -⟩ := ctxOf_eq_some.mp hx
    rw [← hp] at hwf
    have hb := behaves_progOf (sendable_bufLen hwf) i
    rw [hp] at hb
    exact ht ▸ bufferInv_run (s := { s with life := .busy i 0 ⟨[]⟩, events := es }) es hinv hb
  | resumes op n l es x _ hx ht =>
    obtain ⟨hp, -⟩ := ctxOf_eq_some.mp hx
    rw [← hp] at hwf
    have hb := behaves_remaining (sendable_bufLen hwf) op l
    rw [hp] at hb
    exact ht ▸ bufferInv_run es hinv hb

end Sys2Proof.Laws.Invariants

/-! SUPPORT. Reset and the check of the parameters (spec/00_scope.md R7; spec/10_state.md R32), and how a request is taken up
(R27; spec/30_encoding.md R84 (a)). -/

namespace Sys2Proof.Laws.Acceptance

open Machine

/-! ## Reset (R230, R32) -/

/-- Settles O1: `State.reset` too is a reset with some parameters. -/
theorem resetLeavesEveryRegisterWithoutValue : Obligations.ResetLeavesEveryRegisterWithoutValue := by
  intro s hs
  obtain ⟨p, rfl⟩ : ∃ p, s = State.resetWith p := hs.elim (fun h => ⟨_, h⟩) id
  exact ⟨rfl, rfl, rfl, rfl, rfl, rfl, rfl⟩

/-- Settles O2: nothing has a value, nothing is in progress and nothing was delivered. -/
theorem resetMeetsTheInvariants : Obligations.ResetMeetsTheInvariants := by
  refine ⟨⟨rfl, rfl, rfl, rfl⟩, Invariants.bufferInv_of_empty rfl rfl ?_, ?_, ?_, by decide⟩
  · exact List.forall_mem_nil _
  · exact Invariants.sequencerInv_of_not_busy nofun
  · exact List.forall_mem_nil _

/-- Settles O57: creation and the step test the same constraints. -/
theorem parametersAreChecked : Obligations.ParametersAreChecked := by
  refine fun p => ⟨fun hp => if_pos hp, fun hp => if_neg hp, fun s hs hp => ?_⟩
  subst hs
  exact if_neg hp

/-! ## A request that is next (R27) -/

/-- A step whose next event is a request takes the request up. -/
theorem step_request {s : State} {r : Request} {es : List Event} (hwf : s.params.wf)
    (hev : s.events = .request r :: es) : step s = takeRequest r { s with events := es } := by
  rw [step_takes hwf, takeEvent, hev]

/-- A request that decodes is the instruction, in the states that refuse every request too. -/
theorem takeRequest_eq_exec {s : State} {r : Request} {i : Instr} (hdec : decodeRequest s.params r = .ok i) :
    takeRequest r s = exec i s := by
  cases hlife : s.life with
  | fault n => rw [Faults.takeRequest_of_fault hlife, Faults.exec_of_fault hlife]
  | busy op n l => rw [Reentrancy.takeRequest_of_busy hlife, Faults.exec_of_busy hlife]
  | uninit | idle => simp only [takeRequest, hlife, hdec]

/-- A block with no operation in progress and no fault answers a reserved operation code. -/
theorem takeRequest_reserved {s : State} {r : Request} {opc : Byte} (hlife : s.life = .uninit ∨ s.life = .idle)
    (hdec : decodeRequest s.params r = .error (.reservedOpcode opc)) : takeRequest r s = reservedRequest opc s := by
  rcases hlife with hlife | hlife <;> simp only [takeRequest, hlife, hdec]

/-- Settles O9. -/
theorem stepRunsTheDecodedInstruction : Obligations.StepRunsTheDecodedInstruction :=
  fun s _ es _ hwf hev hdec => (step_request hwf hev).trans (takeRequest_eq_exec (s := { s with events := es }) hdec)

/-- A code outside R70's map is reported as reserved, whatever follows it (R84 (a)). -/
theorem decodeHost_of_reserved {opc : Byte} (h : opc ∉ hostOpcodes) (rest : Bytes) :
    decodeHost (opc :: rest) = .error (.reservedOpcode opc) := by
  have hne : ∀ c ∈ hostOpcodes, opc.toNat ≠ c.toNat := fun c hc heq => h (BitVec.eq_of_toNat_eq heq ▸ hc)
  simp only [hostOpcodes, List.forall_mem_cons] at hne
  unfold decodeHost
  split <;> simp_all

theorem reservedRequest_of_idle {s : State} (hlife : s.life = .idle) (opc : Byte) :
    reservedRequest opc s = .next (deliver (errorResponse (.invalidOp opc)) s) :=
  onAccept_idle hlife _

theorem reservedRequest_of_uninit {s : State} (hlife : s.life = .uninit) (opc : Byte) :
    reservedRequest opc s = .next (enterFault .fUninit s) :=
  Control.onAccept_uninit hlife _

/-- Settles O12: the code is reported, and acceptance is tested before it is answered. -/
theorem reservedOpcodeIsAnsweredInvalidOp : Obligations.ReservedOpcodeIsAnsweredInvalidOp := by
  intro s opc rest es hwf hopc hev
  have hdec : decodeRequest s.params ⟨.hostRequest, opc :: rest⟩ = .error (.reservedOpcode opc) := by
    simp only [decodeRequest, decode, decodeHost_of_reserved hopc]
  rw [step_request hwf hev]
  refine ⟨fun hlife => ?idle, fun hlife => ?uninit⟩
  case idle =>
    rw [takeRequest_reserved (s := { s with events := es }) (.inr hlife) hdec]
    exact reservedRequest_of_idle (s := { s with events := es }) hlife opc
  case uninit =>
    rw [takeRequest_reserved (s := { s with events := es }) (.inl hlife) hdec]
    exact reservedRequest_of_uninit (s := { s with events := es }) hlife opc

/-- Settles O13: the run of its pseudocode stops before the first transaction. -/
theorem acceptedOperationIsInProgress : Obligations.AcceptedOperationIsInProgress := by
  rintro i s x hready h1 h2 ⟨tx, rest, hxfer⟩ hev
  rw [exec_request h1 h2, request_ready hready, hev, hxfer, run_xfer_waits, ← hev]

end Sys2Proof.Laws.Acceptance

/-! SUPPORT. How far an operation goes: the transactions of one instruction (spec/70_reset_and_hazards.md R239), the steps to
its end, its end at a bus error (spec/60_exceptions.md R203 to R205), and that several answers in one step are several
steps (spec/20_memory.md R57). -/

namespace Sys2Proof.Laws.Progress

open Machine Pseudocode

/-! ## The transactions of an instruction (R239) -/

/-- A pseudocode before a transaction that has come to a point where there is none left made one. -/
theorem one_le_transcript_length {pr : Prog} {rxs : List Bytes} (hwait : Awaiting pr)
    (hdone : ∀ tx rest, progAfter pr rxs ≠ .xfer tx rest) : 1 ≤ (transcript pr rxs).length := by
  obtain ⟨tx, rest, rfl⟩ := hwait
  cases rxs with
  | nil => exact absurd rfl (hdone tx rest)
  | cons rx rxs => simp [transcript]

/-- What a run adds to the history, the failed transaction included, is within the pseudocode's bound; a run that was before
a transaction and ended made one. -/
theorem exists_history_run {P : Bytes → Prop} {k n : Nat} {pr : Prog} {s : State} {op : Instr} {l : Locals}
    (hb : Behaves P k pr) (hlife : s.life = .busy op n l) (es : List Event) :
    ∃ ts, (run pr es s).history = s.history ++ ts ∧ ts.length ≤ k
      ∧ (Awaiting pr → (run pr es s).life = .idle → 1 ≤ ts.length) := by
  obtain ⟨rxs, es', hlen, -, hran⟩ := run_spec pr es s
  obtain ⟨-, hle, hafter⟩ := hb.progAfter rxs
  cases hran with
  | returned _ hp ht | raised _ hp ht =>
    exact ⟨transcript pr rxs, by simp [ht], hle, fun hwait _ => one_le_transcript_length hwait (by simp [hp])⟩
  | faulted _ hp ht => exact ⟨transcript pr rxs, by simp [ht], hle, by simp [ht]⟩
  | reentered _ ht => exact ⟨transcript pr rxs, by simp [ht], hle, by simp [ht]⟩
  | waits _ _ ht =>
    exact ⟨transcript pr rxs, by simp [ht], hle, by simp [ht, afterReceived_life pr rxs hlife hlen]⟩
  | busError tx rest e hp ht =>
    rw [hp] at hafter
    have hleft := hafter.of_xfer.2.1
    refine ⟨transcript pr rxs ++ [⟨tx, .err e⟩], by simp [ht], ?_, fun _ _ => ?_⟩ <;>
      rw [List.length_append, List.length_singleton] <;> omega

/-- An operation whose row asks for a transaction begins with one (R239). -/
theorem lower_eq_zero_or_awaiting (i : Instr) (x : Ctx) :
    (transactionRange x.p i).1 = 0 ∨ ((transactionRange x.p i).1 = 1 ∧ Awaiting (progOf i x)) := by
  cases i with
  | init _ _ _ | deinit | crc8 _ _ | crcchk _ _ _ | wfdec _ | fifotx _ _ _ _ _ | fiforx _ _ => exact .inl rfl
  | regwr _ _ | regrd _ | busWriteHdr _ _ | busReadHdr _ | regupd _ _ _ | c22rd _ _ | c22wr _ _ _ | c45rd _ _ _
  | c45wr _ _ _ _ | mdioC22Read _ _ _ _ _ | mdioC22Write _ _ _ _ _ | mdioC45Addr _ _ _ _ _ | mdioC45Write _ _ _ _ _
  | mdioC45Read _ _ _ _ _ => exact .inr ⟨rfl, _, _, rfl⟩

/-- Settles O18: a fault, INIT and DEINIT make no transaction, a run those of its pseudocode. -/
theorem transactionsAreBounded : Obligations.TransactionsAreBounded := by
  intro i s t hexec
  rcases exec_next hexec with ⟨n, rfl⟩ | ⟨poly, crcEn, ports, rfl, -, rfl⟩ | ⟨rfl, -, rfl⟩ | ⟨-, -, -, x, hx, rfl⟩
  · exact ⟨[], by simp, Nat.zero_le _, fun _ h => nomatch h⟩
  · refine ⟨[], ?_, Nat.zero_le _, fun _ _ => Nat.zero_le _⟩
    rcases Invariants.initBody_cases poly crcEn ports s with ⟨-, hbody⟩ | hbody <;> simp [hbody]
  · exact ⟨[], by simp, Nat.zero_le _, fun _ _ => Nat.zero_le _⟩
  · obtain ⟨hp, -⟩ := ctxOf_eq_some.mp hx
    obtain ⟨ts, hhist, hle, hge⟩ := exists_history_run (s := { s with life := .busy i 0 ⟨[]⟩ })
      (behaves_progOf (sendable_true x) i) rfl s.events
    have hlower := lower_eq_zero_or_awaiting i x
    rw [hp] at hle hlower
    refine ⟨ts, hhist, hle, fun _ hidle => ?_⟩
    rcases hlower with hlow | ⟨hlow, hwait⟩
    · omega
    · rw [hlow]
      exact hge hwait hidle

/-! ## A bus error (R203 to R205) -/

/-- Settles O17: the operation is before the transaction that fails, having received `pre`. -/
theorem busErrorEndsTheOperation : Obligations.BusErrorEndsTheOperation :=
  fun _ _ _ _ _ _ _ _ hready h1 h2 hfit hlen hafter hev => RegBus.exec_busError hready h1 h2 hev hlen hfit hafter

/-! ## One transaction of the operation in progress -/

/-- A position before a transaction was reached over transactions that were all answered (R21). -/
theorem transcript_length_of_awaiting {pr : Prog} {rxs : List Bytes} (h : Awaiting (progAfter pr rxs)) :
    (transcript pr rxs).length = rxs.length := by
  induction rxs generalizing pr with
  | nil => simp
  | cons rx rxs ih =>
    cases pr with
    | xfer tx rest => simpa [transcript] using ih h
    | ret _ | raise _ | fault _ => obtain ⟨_, _, h⟩ := h; cases h

/-- After one more answer the operation goes on with what its pseudocode does with the string. -/
theorem remaining_append {op : Instr} {l : Locals} {x : Ctx} {tx : Bytes} {rest : Bytes → Prog}
    (h : remaining op l x = .xfer tx rest) (rx : Bytes) : remaining op ⟨l.received ++ [rx]⟩ x = rest rx := by
  have hcount := transcript_length_of_awaiting (pr := progOf op x) (rxs := l.received) ⟨tx, rest, h⟩
  have hafter := (transcript_append hcount [rx]).2
  rw [← remaining, ← remaining, h] at hafter
  rw [hafter, progAfter, progAfter_nil]

/-- The state in which the operation in progress has received one more string. -/
def received (tx rx : Bytes) (s : State) : State := advance rx (recordTransfer tx (.ok rx) s)

theorem received_life {s : State} {op : Instr} {n : Nat} {l : Locals} (hlife : s.life = .busy op n l) (tx rx : Bytes) :
    (received tx rx s).life = .busy op (n + 1) ⟨l.received ++ [rx]⟩ :=
  advance_life_busy rx hlife

theorem ctxOf_received (tx rx : Bytes) (s : State) : ctxOf (received tx rx s) = ctxOf s :=
  ctxOf_congr (by simp [received]) (by simp [received]) (by simp [received])

/-- A pseudocode that is before no transaction ends at once, with the events there are. -/
theorem run_of_not_awaiting {pr : Prog} (h : ¬ Awaiting pr) (s : State) :
    ∃ u : State, (∀ op n l, u.life ≠ .busy op n l) ∧ ∀ es, run pr es s = { u with events := es } := by
  cases pr with
  | xfer tx rest => exact absurd ⟨tx, rest, rfl⟩ h
  | ret res => exact ⟨finish (okResponse res) s, by simp, fun es => run_ret res es s⟩
  | raise st => exact ⟨finish (errorResponse st) s, by simp, fun es => run_raise st es s⟩
  | fault f => exact ⟨enterFault f s, by simp, fun es => run_fault f es s⟩

/-- What an answer to the next transaction does, whatever events are after it: the operation ends there, or it is before its
next transaction, having received one more string. -/
theorem run_answer (tx : Bytes) (rest : Bytes → Prog) (a : Answer) (s : State) :
    (∃ u : State, (∀ op n l, u.life ≠ .busy op n l)
        ∧ ∀ es, run (.xfer tx rest) (.answer a :: es) s = { u with events := es })
      ∨ ∃ rx, Awaiting (rest rx) ∧ ∀ es, run (.xfer tx rest) (.answer a :: es) s = run (rest rx) es (received tx rx s) := by
  cases hfull : fullAnswer s.history.length tx.length a with
  | err e =>
    refine .inl ⟨finish (errorResponse (.busError e)) (recordTransfer tx (.err e) s), by simp, fun es => ?_⟩
    simp only [run, hfull]
    rfl
  | ok rx =>
    have hrun : ∀ es, run (.xfer tx rest) (.answer a :: es) s = run (rest rx) es (received tx rx s) :=
      fun es => by simp only [run, hfull, received]
    by_cases hnext : Awaiting (rest rx)
    · exact .inr ⟨rx, hnext, hrun⟩
    · obtain ⟨u, hu, hend⟩ := run_of_not_awaiting hnext (received tx rx s)
      exact .inl ⟨u, hu, fun es => (hrun es).trans (hend es)⟩

theorem run_of_awaiting_nil {pr : Prog} (h : Awaiting pr) (s : State) : run pr [] s = { s with events := [] } := by
  obtain ⟨tx, rest, rfl⟩ := h
  rfl

/-! ## The end of an operation in progress (R239) -/

/-- The block comes, within `k` steps, to a state in which no operation is in progress. -/
def EndsWithin (k : Nat) (s : State) : Prop :=
  ∃ j t, j ≤ k ∧ Host.Core.run Sys2Proof.core j s = .next t ∧ ∀ op n l, t.life ≠ .busy op n l

theorem endsWithin_one {k : Nat} {s t : State} (hk : 1 ≤ k) (hstep : step s = .next t)
    (ht : ∀ op n l, t.life ≠ .busy op n l) : EndsWithin k s := by
  refine ⟨1, t, hk, ?_, ht⟩
  have hcore : Sys2Proof.core.step s = .next t := hstep
  simp only [Host.Core.run, hcore]

theorem endsWithin_succ {k : Nat} {s t : State} (hstep : step s = .next t) (h : EndsWithin k t) : EndsWithin (k + 1) s := by
  obtain ⟨j, u, hj, hrun, hu⟩ := h
  refine ⟨j + 1, u, by omega, ?_, hu⟩
  have hcore : Sys2Proof.core.step s = .next t := hstep
  simp only [Host.Core.run, hcore]
  exact hrun

/-- One draw a step: an operation before a transaction ends within as many steps as transactions it can still make. -/
theorem endsWithin_of_awaiting {P : Bytes → Prop} {k n : Nat} {s : State} {op : Instr} {l : Locals} {x : Ctx}
    (hwf : s.params.wf) (hlife : s.life = .busy op n l) (hev : s.events = []) (hx : ctxOf s = some x)
    (hwait : Awaiting (remaining op l x)) (hb : Behaves P k (remaining op l x)) : EndsWithin k s := by
  induction k generalizing s n l with
  | zero =>
    obtain ⟨tx, rest, hxfer⟩ := hwait
    rw [hxfer] at hb
    exact absurd hb.of_xfer.2.1 (by decide)
  | succ k ih =>
    obtain ⟨tx, rest, hxfer⟩ := hwait
    have hstep := step_drawn hwf hev hlife hx
    rw [hxfer] at hstep hb
    rcases run_answer tx rest (freeAnswer s.history.length) s with ⟨u, hu, hend⟩ | ⟨rx, hnext, hrun⟩
    · rw [hend] at hstep
      exact endsWithin_one (by omega) hstep hu
    · have hrem := remaining_append hxfer rx
      rw [hrun, run_of_awaiting_nil hnext] at hstep
      refine endsWithin_succ hstep (ih ?_ (received_life hlife tx rx) rfl ?_ ?_ ?_)
      · simpa [received] using hwf
      · exact (ctxOf_received tx rx s).trans hx
      · rwa [hrem]
      · rw [hrem]
        exact hb.of_xfer.2.2 rx

/-- Settles O19: an operation that is before no transaction, or has no configuration to read, ends in one step. -/
theorem operationInProgressEnds : Obligations.OperationInProgressEnds := by
  intro s op n l hwf hlife hev
  have hone : 1 ≤ max 1 (transactionRange s.params op).2 := Nat.le_max_left _ _
  cases hx : ctxOf s with
  | none =>
    have hstep : step s = .next (enterFault .fUninit s) := by
      simp [step_takes hwf, takeEvent, hev, takeNoRequest, hlife, resume, hx]
    exact endsWithin_one hone hstep (by simp)
  | some x =>
    by_cases hwait : Awaiting (remaining op l x)
    · obtain ⟨hp, -⟩ := ctxOf_eq_some.mp hx
      have hb := Invariants.behaves_remaining (sendable_true x) op l
      rw [hp] at hb
      exact endsWithin_of_awaiting hwf hlife hev hx hwait (hb.mono (Nat.le_max_right _ _))
    · obtain ⟨u, hu, hend⟩ := run_of_not_awaiting hwait s
      have hstep := step_drawn hwf hev hlife hx
      rw [hend] at hstep
      exact endsWithin_one hone hstep hu

/-! ## Answers together or one at a time (R57) -/

/-- A step of an operation in progress over events that are there. -/
theorem step_of_busy_events {s : State} {op : Instr} {n : Nat} {l : Locals} {x : Ctx} (hwf : s.params.wf)
    (hlife : s.life = .busy op n l) (hx : ctxOf s = some x) (hwait : Awaiting (remaining op l x)) (hev : s.events ≠ []) :
    step s = .next (run (remaining op l x) s.events s) := by
  obtain ⟨tx, rest, hxfer⟩ := hwait
  cases hes : s.events with
  | nil => exact absurd hes hev
  | cons ev es =>
    cases ev with
    | answer a => exact step_answered hwf hes hlife hx
    | request r => rw [Reentrancy.step_of_busy_request hwf hlife hes, hxfer, run_xfer_request]

/-- Settles O16: after the first answer the operation is at the position from which one step over all of them goes on. -/
theorem answersTogetherOrOneByOne : Obligations.AnswersTogetherOrOneByOne := by
  intro s op n l a es hwf hinv hlife hev hes
  obtain ⟨x, before, hx, -, -, -, hwait⟩ := hinv op n l hlife
  obtain ⟨tx, rest, hxfer⟩ := hwait
  have hall := step_answered hwf hev hlife hx
  have hone := step_answered (s := { s with events := [.answer a] }) hwf rfl hlife hx
  rw [hxfer] at hall hone
  rw [run_withEvents] at hone
  rcases run_answer tx rest a s with ⟨u, hu, hend⟩ | ⟨rx, hnext, hrun⟩
  case inl =>
    rw [hend] at hall hone
    exact ⟨_, hone, fun ⟨n', l', hbusy⟩ => absurd hbusy (hu op n' l'), fun _ => hall⟩
  case inr =>
    rw [hrun] at hall hone
    rw [run_of_awaiting_nil hnext] at hone
    have hlife' := received_life hlife tx rx
    have hrem := remaining_append hxfer rx
    have hnextStep : step { received tx rx s with events := es } = .next (run (rest rx) es (received tx rx s)) := by
      have hwf' : (received tx rx s).params.wf := by simpa [received] using hwf
      have hx' : ctxOf (received tx rx s) = some x := (ctxOf_received tx rx s).trans hx
      rw [← hrem, step_of_busy_events (s := { received tx rx s with events := es }) hwf' hlife' hx' (hrem ▸ hnext) hes,
        run_withEvents]
    exact ⟨_, hone, fun _ => hall.trans hnextStep.symm, fun hend => absurd ⟨_, _, hlife'⟩ hend⟩

end Sys2Proof.Laws.Progress

/-! SUPPORT. The write frame read back (spec/42_regbus.md R124), and the two bus words that open a register transaction
(R120, R121; notes/assumptions/3.md). -/

namespace Sys2Proof.Laws.WriteFrame

open Machine

/-! ## The header and the value, read back (R71, R72) -/

/-- The header's bytes spell the header. -/
theorem fromBe_hdrBytes {p : Params} (hp : p.wf) (a : Nat) (dir : Dir) : fromBe (hdrBytes p a dir) = hdr p a dir := by
  have h256 : (256 : Nat) ^ p.cmdHdrBytes = 2 ^ (8 * p.cmdHdrBytes) := (Nat.pow_mul 2 8 _).symm
  rw [hdrBytes, fromBe_beBytes, h256, Nat.mod_eq_of_lt (Encoding.hdr_lt hp a dir)]

theorem testBit_hdr_cdBit {p : Params} (hp : p.wf) (a : Nat) (dir : Dir) : (hdr p a dir).testBit p.cdBit = p.cdVal := by
  have ⟨_, _, ⟨hcd, _⟩, _⟩ := hp
  rw [Encoding.testBit_hdr_of_wf hp, if_neg (Nat.not_lt.mpr hcd), if_pos rfl]

theorem testBit_hdr_rwBit {p : Params} (hp : p.wf) (a : Nat) (dir : Dir) :
    (hdr p a dir).testBit p.rwBit = dirBit p dir := by
  have ⟨_, hne, _, ⟨hrw, _⟩, _⟩ := hp
  rw [Encoding.testBit_hdr_of_wf hp, if_neg (Nat.not_lt.mpr hrw), if_neg hne.symm, if_pos rfl]

/-- The address field is the address reduced to its width. -/
theorem hdrAddr_hdr {p : Params} (hp : p.wf) (a : Nat) (dir : Dir) : hdrAddr p (hdr p a dir) = a % 2 ^ p.addrWidth := by
  apply Nat.eq_of_testBit_eq
  intro i
  rw [hdrAddr, addrMask, Nat.and_two_pow_sub_one_eq_mod, Nat.testBit_mod_two_pow, Nat.testBit_mod_two_pow,
    Encoding.testBit_hdr_of_wf hp]
  by_cases hi : i < p.addrWidth
  · rw [if_pos hi]
  · simp [hi]

/-- A header the block builds has no reserved bit set (R84 (b)). -/
theorem hdrReserved_hdr {p : Params} (hp : p.wf) (a : Nat) (dir : Dir) : hdrReserved p (hdr p a dir) = 0 := by
  apply Nat.eq_of_testBit_eq
  intro i
  rw [RegBus.testBit_hdrReserved (Encoding.hdr_lt hp a dir), Encoding.testBit_hdr_of_wf hp, Nat.zero_testBit]
  by_cases hres : p.addrWidth ≤ i ∧ i ≠ p.cdBit ∧ i ≠ p.rwBit
  · obtain ⟨haddr, hcd, hrw⟩ := hres
    rw [if_neg (Nat.not_lt.mpr haddr), if_neg hcd, if_neg hrw, Bool.false_and]
  · rw [decide_eq_false hres, Bool.and_false]

/-- Four bytes and more hold a 32-bit value. -/
theorem ofNat_fromBe_valueBytes {p : Params} (h : 4 ≤ p.regBytes) (v : W32) :
    BitVec.ofNat 32 (fromBe (valueBytes p v)) = v := by
  have hpow : (256 : Nat) ^ 4 ≤ 256 ^ p.regBytes := Nat.pow_le_pow_right (by decide) h
  have hv := v.isLt
  rw [valueBytes, fromBe_beBytes, Nat.mod_eq_of_lt (by omega), BitVec.ofNat_toNat, BitVec.setWidth_eq]

/-- A write frame's fields, whatever stands in the place of its CRC byte (R124). -/
theorem decodeWriteFrame_wframeBase {x : Ctx} (hp : x.p.wf) (hreg : 4 ≤ x.p.regBytes) (a : Nat) (v : W32) (crc : Bytes) :
    decodeWriteFrame x (wframeBase x.p a v ++ crc) = .writeFrame (a % 2 ^ x.p.addrWidth) v x.p.cdVal x.p.rwWrite 0 true
      (decide (crc = crcSuffix x (wframeBase x.p a v))) := by
  rw [wframeBase, RegBus.decodeWriteFrame_append (hdrBytes_length _ _ _) (valueBytes_length _ _), fromBe_hdrBytes hp,
    ofNat_fromBe_valueBytes hreg, hdrAddr_hdr hp, testBit_hdr_cdBit hp, testBit_hdr_rwBit hp, hdrReserved_hdr hp]
  simp [dirBit]

/-- WFDEC of a write frame with any byte string of the right length in the place of its CRC byte. -/
theorem exec_wfdec_wframeBase {s : State} {x : Ctx} (hp : x.p.wf) (hreg : 4 ≤ x.p.regBytes) (hready : Ready s x) (a : Nat)
    (v : W32) {crc : Bytes} (hcrc : crc.length = x.cfg.crcEn.toNat) :
    exec (.wfdec (some (wframeBase x.p a v ++ crc))) s = .next (ended (okResponse (.writeFrame (a % 2 ^ x.p.addrWidth) v
      x.p.cdVal x.p.rwWrite 0 true (decide (crc = crcSuffix x (wframeBase x.p a v))))) s.events [] s) := by
  have hlen : (wframeBase x.p a v ++ crc).length = wframeLen x := by
    simp only [wframeBase, wframeLen, List.length_append, hdrBytes_length, valueBytes_length, hcrc]
  rw [exec_returns_at_once (i := .wfdec _) hready rfl nofun (RegBus.progOf_wfdec_some_of_length hlen),
    decodeWriteFrame_wframeBase hp hreg]

/-- Settles O33: the frame's own CRC suffix, and another byte in its place. -/
theorem wfdecInvertsTheWriteFrame : Obligations.WfdecInvertsTheWriteFrame := by
  intro s x a v hp hreg hready
  refine ⟨?ownCrc, fun b hen hb => ?wrongCrc⟩
  case ownCrc =>
    rw [wframe, exec_wfdec_wframeBase hp hreg hready _ _ (crcSuffix_length _ _), decide_eq_true rfl]
  case wrongCrc =>
    have hne : [b] ≠ crcSuffix x (wframeBase x.p a.toNat v) := by simpa [crcSuffix, hen] using hb
    rw [exec_wfdec_wframeBase hp hreg hready _ _ (by rw [hen]; rfl), decide_eq_false hne]

/-! ## Command headers as instructions -/

theorem progOf_busWriteHdr (addr : Nat) (value : W32) (x : Ctx) :
    progOf (.busWriteHdr addr value) x = .xfer (wframe x addr value) fun _ => .ret .empty := rfl

theorem progOf_busReadHdr (addr : Nat) (x : Ctx) :
    progOf (.busReadHdr addr) x = .xfer (rframe x.p addr) fun rx => .ret (.value (rdecode x.p rx)) := rfl

/-- Settles O48, by the header and the answer to its one transaction. -/
theorem commandHeadersRunOneTransaction : Obligations.CommandHeadersRunOneTransaction := by
  intro s x addr value rx es hready
  refine ⟨fun hfit hev => ?write, fun hfit hev => ?read, fun e hev => ⟨?writeError, ?readError⟩⟩
  case write =>
    exact exec_returns (rxs := [rx]) hready rfl nofun hev rfl (RegBus.fitsAll_cons hfit RegBus.fitsAll_nil) rfl
  case read =>
    exact exec_returns (rxs := [rx]) hready rfl nofun hev rfl (RegBus.fitsAll_cons hfit RegBus.fitsAll_nil) rfl
  case writeError => exact RegBus.exec_busError_at_once hready rfl nofun hev (progOf_busWriteHdr addr value x)
  case readError => exact RegBus.exec_busError_at_once hready rfl nofun hev (progOf_busReadHdr addr x)

end Sys2Proof.Laws.WriteFrame

/-! SUPPORT. Control words as instructions (notes/assumptions/3.md), and what a clause-45 operation that returned OK sent
(spec/43_mdio.md R145 (b)). -/

namespace Sys2Proof.Laws.MdioTrace

open Machine

/-! ## A control word is one phase -/

/-- Settles O47, by the code of the word. -/
theorem controlWordsRunOnePhase : Obligations.ControlWordsRunOnePhase := by
  intro s x trdone rsvd prtad devad data evs es ts i slot c reads hready hev hcode
  rcases hcode with ⟨rfl, rfl, rfl, rfl⟩ | ⟨rfl, rfl, rfl, rfl⟩ | ⟨rfl, rfl, rfl, rfl⟩ | ⟨rfl, rfl, rfl, rfl⟩
    | ⟨rfl, rfl, rfl, rfl⟩
  all_goals exact MdioEngine.exec_onePhase hready rfl nofun rfl hev

/-! ## What a phase that returned sent (R140) -/

/-- The strings that a pseudocode has sent. -/
def sent (pr : Prog) (rxs : List Bytes) : List Bytes := (transcript pr rxs).map Transaction.tx

/-- Polls that a return comes after: between one and the allowed number of reads of the slot, and then what follows. -/
theorem sent_mdioPoll {x : Ctx} {slot : Fin 2} {rest : W32 → Prog} {res : Results} {n : Nat} {rxs : List Bytes}
    (h : progAfter (mdioPoll x slot rest n) rxs = .ret res) :
    ∃ k w rxs', 1 ≤ k ∧ k ≤ n ∧ progAfter (rest w) rxs' = .ret res
      ∧ sent (mdioPoll x slot rest n) rxs
        = List.replicate k (rframe x.p (portAddr x.p.mdioAcc slot.val)) ++ sent (rest w) rxs' := by
  induction n generalizing rxs with
  | zero => cases rxs <;> cases h
  | succ n ih =>
    cases rxs with
    | nil => cases h
    | cons rx rxs =>
      simp only [mdioPoll, regrdSeq, progAfter, sent, transcript] at h ⊢
      split at h
      next hdone =>
        refine ⟨1, _, rxs, le_rfl, by omega, h, ?_⟩
        simp [hdone]
      next hdone =>
        obtain ⟨k, w, rxs', hk, hkn, hret, hsent⟩ := ih h
        refine ⟨k + 1, w, rxs', by omega, by omega, hret, ?_⟩
        rw [if_neg hdone, List.map_cons, ← sent, hsent, List.replicate_succ, List.cons_append, sent]

/-- A phase that a return comes after: its write, its polls, and then what follows. -/
theorem sent_mdioPhase {x : Ctx} {slot : Fin 2} {cw : W32} {rest : W32 → Prog} {res : Results} {rxs : List Bytes}
    (h : progAfter (mdioPhase x slot cw rest) rxs = .ret res) :
    ∃ k w rxs', 1 ≤ k ∧ k ≤ x.p.mdioMaxPolls ∧ progAfter (rest w) rxs' = .ret res
      ∧ sent (mdioPhase x slot cw rest) rxs
        = wframe x (portAddr x.p.mdioAcc slot.val) cw
          :: List.replicate k (rframe x.p (portAddr x.p.mdioAcc slot.val)) ++ sent (rest w) rxs' := by
  cases rxs with
  | nil => cases h
  | cons rx rxs =>
    obtain ⟨k, w, rxs', hk, hkn, hret, hsent⟩ := sent_mdioPoll (x := x) (slot := slot) (rest := rest) h
    refine ⟨k, w, rxs', hk, hkn, hret, ?_⟩
    rw [List.cons_append, ← hsent]
    rfl

/-! ## An operation that delivered an OK response returned -/

/-- The one way to an OK response is a return, and the history grew by the transactions before it. -/
theorem exists_transcript_of_ok {i : Instr} {s t : State} {x : Ctx} {r : Results} (hready : Ready s x)
    (h1 : i.isInit = false) (h2 : i ≠ .deinit) (hexec : exec i s = .next t)
    (hresp : t.responses = s.responses ++ [okResponse r]) :
    ∃ rxs res, progAfter (progOf i x) rxs = .ret res ∧ t.history = s.history ++ transcript (progOf i x) rxs := by
  rw [exec_request h1 h2, request_ready hready] at hexec
  cases hexec
  obtain ⟨rxs, es', -, -, hran⟩ := run_spec (progOf i x) s.events { s with life := .busy i 0 ⟨[]⟩ }
  cases hran with
  | returned res hret ht => exact ⟨rxs, res, hret, by simp [ht]⟩
  | raised st _ ht | busError _ _ e _ ht => simp [ht, errorResponse, okResponse] at hresp
  | faulted n _ ht | waits _ _ ht | reentered _ ht => simp [ht] at hresp

/-- Settles O38: the return comes after the second phase, which comes after the first. -/
theorem clause45OkMeansTwoWritesInOrder : Obligations.Clause45OkMeansTwoWritesInOrder := by
  intro s t x i cw1 cw2 r hready hop hexec hresp
  have hprog : ∃ results : W32 → Results, i.isInit = false ∧ i ≠ .deinit
      ∧ progOf i x = mdioPhase x 0 cw1 fun _ => mdioPhase x 1 cw2 fun w => .ret (results w) := by
    obtain ⟨prtad, devad, regaddr, rfl, ⟨rfl, rfl⟩ | ⟨data, rfl, rfl⟩⟩ := hop
    · exact ⟨_, rfl, nofun, MdioEngine.progOf_c45rd prtad devad regaddr x⟩
    · exact ⟨_, rfl, nofun, MdioEngine.progOf_c45wr prtad devad regaddr data x⟩
  obtain ⟨results, h1, h2, hprog⟩ := hprog
  obtain ⟨rxs, res, hret, hhist⟩ := exists_transcript_of_ok hready h1 h2 hexec hresp
  rw [hprog] at hret hhist
  obtain ⟨k1, -, rxs1, hk1, hk1max, hret1, hsent1⟩ := sent_mdioPhase hret
  obtain ⟨k2, w, rxs2, hk2, hk2max, -, hsent2⟩ := sent_mdioPhase hret1
  have hlast : sent (.ret (results w)) rxs2 = [] := by cases rxs2 <;> rfl
  refine ⟨k1, k2, _, hhist, hk1, hk1max, hk2, hk2max, ?_⟩
  rw [← sent, hsent1, hsent2, hlast, List.append_nil]
  rfl

end Sys2Proof.Laws.MdioTrace

/-! SUPPORT. The frame FIFO of spec/44_fifo.md: the length arithmetic (R160 to R162, R165), the argument checks and the
transactions of FIFOTX (R163) and of FIFORX (R164), and which bytes of a received data region a frame is made of (R80). -/

namespace Sys2Proof.Laws.Fifo

open Machine MdioEngine

/-! ## Lengths (R160 to R162, R165) -/

/-- Settles O43, from the source's sizes and `alignUp_spec`. -/
theorem transmitLengthsMeetTheMinimum : Obligations.TransmitLengthsMeetTheMinimum := by
  intro x l hs
  have hpad := Encoding.txPad_of_sourceValues hs l
  have hfl := Encoding.frameLength_of_sourceValues hs l
  have hheader : headerLen x = 2 + x.cfg.crcEn.toNat := by rw [headerLen, hs.2.1]
  obtain ⟨hdvd, hle, hlt⟩ := alignUp_spec (frameLength x l) (a := 4) (by decide)
  refine ⟨hheader, ?_, ?_, ?_, hdvd, hle, by omega⟩ <;> omega

/-- Settles O44. -/
theorem leastSpaceThatAdmitsAFrame : Obligations.LeastSpaceThatAdmitsAFrame := by
  intro fl space
  rw [noSpace, decide_eq_true_iff, decide_eq_false_iff_not]
  exact ⟨Iff.rfl, by omega⟩

/-- What fits after alignment to four bytes is what is no longer than the aligned part of the room. -/
theorem alignUp_four_le (n room : Nat) : alignUp n 4 ≤ room ↔ n ≤ 4 * (room / 4) := by
  unfold alignUp
  omega

theorem txFits_iff {x : Ctx} {l : Nat} :
    txFits x l = true ↔ x.p.cmdHdrBytes + alignUp (frameLength x l) x.p.fifoAlign ≤ x.p.bufLen := decide_eq_true_iff

theorem txFits_eq_false {x : Ctx} {l : Nat} (h : x.p.bufLen < x.p.cmdHdrBytes + alignUp (frameLength x l) x.p.fifoAlign) :
    txFits x l = false := decide_eq_false (Nat.not_le.mpr h)

theorem rxFits_iff {x : Ctx} {fs : Nat} :
    rxFits x fs = true ↔ x.p.cmdHdrBytes + 1 + alignUp fs x.p.fifoAlign ≤ x.p.bufLen := decide_eq_true_iff

theorem rxFits_eq_false {x : Ctx} {fs : Nat} (h : x.p.bufLen < x.p.cmdHdrBytes + 1 + alignUp fs x.p.fifoAlign) :
    rxFits x fs = false := decide_eq_false (Nat.not_le.mpr h)

/-- Settles O45: `alignUp_four_le` for the frame length and for the frame size. -/
theorem largestFramesThatFitTheBuffer : Obligations.LargestFramesThatFitTheBuffer := by
  intro x n hp hs
  have hheader : headerLen x = 2 + x.cfg.crcEn.toNat := by rw [headerLen, hs.2.1]
  have ⟨_, _, _, _, _, hroom, _⟩ := hp
  refine ⟨fun hmin => ?transmit, ?receive⟩
  case transmit =>
    have hal := alignUp_four_le (frameLength x n) (x.p.bufLen - x.p.cmdHdrBytes)
    have hfl := Encoding.frameLength_of_sourceValues hs n
    rw [txFits_iff, Encoding.fifoAlign_of_sourceValues hs]
    omega
  case receive =>
    have hal := alignUp_four_le n (x.p.bufLen - x.p.cmdHdrBytes - 1)
    rw [rxFits_iff, Encoding.fifoAlign_of_sourceValues hs]
    omega

/-! ## Answered transactions, one after another -/

/-- A transaction that is answered, and then what its string leads to. -/
theorem reaches_cons {tx rx : Bytes} {rest : Bytes → Prog} {rxs : List Bytes} {ts : List Transaction} {pr' : Prog}
    (hfit : Fits rx tx) (h : Reaches (rest rx) rxs ts pr') :
    Reaches (.xfer tx rest) (rx :: rxs) (exchanged tx rx :: ts) pr' :=
  (Faults.reaches_of_fits hfit rest).trans h

/-! ## FIFOTX: the argument checks (R163, R204) -/

theorem portOk_iff {c : Cfg} {port : Byte} : portOk c port = true ↔ port.toNat < c.ports.toNat := decide_eq_true_iff

theorem portOk_eq_false {c : Cfg} {port : Byte} (h : c.ports.toNat ≤ port.toNat) : portOk c port = false :=
  decide_eq_false (Nat.not_lt.mpr h)

theorem macLengthsOk_iff {p : Params} {d m t : Bytes} :
    macLengthsOk p d m t = true ↔ d.length = p.macLen ∧ m.length = p.macLen ∧ t.length = p.ethertypeLen := by
  simp only [macLengthsOk, Bool.and_eq_true, beq_iff_eq, and_assoc]

theorem progOf_fifotx_of_badPort {x : Ctx} {port : Byte} (h : x.cfg.ports.toNat ≤ port.toNat)
    (dest src et payload : Option Bytes) :
    progOf (.fifotx port dest src et payload) x = .raise (.invalidArg .port) :=
  require_fails (portOk_eq_false h) _ _

theorem progOf_fifotx_of_absent {x : Ctx} {port : Byte} (hport : port.toNat < x.cfg.ports.toNat)
    {dest src et payload : Option Bytes} (h : dest = none ∨ src = none ∨ et = none ∨ payload = none) :
    progOf (.fifotx port dest src et payload) x = .raise (.invalidArg .null) := by
  have hprog : progOf (.fifotx port dest src et payload) x = fifotxProg port dest src et payload x := rfl
  rw [hprog, fifotxProg, require_holds (portOk_iff.mpr hport)]
  rcases dest with _ | d
  · rfl
  rcases src with _ | m
  · rfl
  rcases et with _ | t
  · rfl
  rcases payload with _ | l
  · rfl
  simp at h

theorem progOf_fifotx_some {x : Ctx} {port : Byte} (hport : port.toNat < x.cfg.ports.toNat) (d m t l : Bytes) :
    progOf (.fifotx port (some d) (some m) (some t) (some l)) x
      = require (macLengthsOk x.p d m t) .len (require (txFits x l.length) .tooLong (fifotxSend port.toNat d m t l x)) :=
  require_holds (portOk_iff.mpr hport) _ _

/-- Settles O39, by the first check that fails. -/
theorem fifotxChecksItsArgumentsInOrder : Obligations.FifotxChecksItsArgumentsInOrder := by
  intro s x port dest src et payload r hready hcause
  refine exec_raises_at_once (i := .fifotx _ _ _ _ _) hready rfl nofun ?_
  rcases hcause with ⟨hport, rfl⟩ | ⟨hport, habsent, rfl⟩ | ⟨hport, d, m, t, l, rfl, rfl, rfl, rfl, hcause⟩
  · exact progOf_fifotx_of_badPort hport _ _ _ _
  · exact progOf_fifotx_of_absent hport habsent
  · rw [progOf_fifotx_some hport]
    rcases hcause with ⟨hlens, rfl⟩ | ⟨hd, hm, ht, hlong, rfl⟩
    · exact require_fails (Bool.eq_false_iff.mpr fun h => hlens (macLengthsOk_iff.mp h)) _ _
    · rw [require_holds (macLengthsOk_iff.mpr ⟨hd, hm, ht⟩)]
      exact require_fails (txFits_eq_false hlong) _ _

/-! ## FIFOTX: its transactions (R163) -/

section
variable {x : Ctx} {port : Nat} {d m t l rx1 rx2 rx3 rx4 rx5 rx6 : Bytes}

/-- FIFOTX up to the space read, T1. -/
theorem reaches_fifotxSend_noSpace (h1 : Fits rx1 (rframe x.p x.p.txSpaceAddr))
    (hspace : noSpace (frameLength x l.length) (rdecode x.p rx1).toNat = true) :
    Reaches (fifotxSend port d m t l x) [rx1] [exchanged (rframe x.p x.p.txSpaceAddr) rx1]
      (.raise (.wouldBlock .noSpace)) := by
  refine reaches_cons h1 ?_
  beta_reduce
  rw [if_pos hspace]
  exact .refl _

/-- FIFOTX up to the status read, T4, and what it does with the status. -/
theorem reaches_fifotxSend_status (h1 : Fits rx1 (rframe x.p x.p.txSpaceAddr))
    (hspace : noSpace (frameLength x l.length) (rdecode x.p rx1).toNat = false)
    (h2 : Fits rx2 (wframe x (portAddr x.p.txFsizeAddr port) (BitVec.ofNat 32 (frameLength x l.length))))
    (h3 : Fits rx3 (txframe x port d m t l)) (h4 : Fits rx4 (rframe x.p x.p.statusAddr)) :
    Reaches (fifotxSend port d m t l x) [rx1, rx2, rx3, rx4]
      [exchanged (rframe x.p x.p.txSpaceAddr) rx1,
        exchanged (wframe x (portAddr x.p.txFsizeAddr port) (BitVec.ofNat 32 (frameLength x l.length))) rx2,
        exchanged (txframe x port d m t l) rx3, exchanged (rframe x.p x.p.statusAddr) rx4]
      (if (rdecode x.p rx4).getLsbD x.p.fifoErrBit then
        regwrSeq x x.p.flush0.addr x.p.flush0.value <|
        regwrSeq x x.p.flush1.addr x.p.flush1.value <|
        .raise (.wouldBlock .fifoErr)
      else .ret .empty) := by
  refine reaches_cons h1 ?_
  beta_reduce
  rw [if_neg (Bool.eq_false_iff.mp hspace)]
  exact reaches_cons h2 (reaches_cons h3 (reaches_cons h4 (.refl _)))

/-- The flush of the transmit FIFO, T5 and T6. -/
theorem reaches_flush (h5 : Fits rx5 (wframe x x.p.flush0.addr x.p.flush0.value))
    (h6 : Fits rx6 (wframe x x.p.flush1.addr x.p.flush1.value)) :
    Reaches (regwrSeq x x.p.flush0.addr x.p.flush0.value <|
        regwrSeq x x.p.flush1.addr x.p.flush1.value <| .raise (.wouldBlock .fifoErr)) [rx5, rx6]
      [exchanged (wframe x x.p.flush0.addr x.p.flush0.value) rx5,
        exchanged (wframe x x.p.flush1.addr x.p.flush1.value) rx6] (.raise (.wouldBlock .fifoErr)) :=
  reaches_cons h5 (reaches_cons h6 (.refl _))

end

/-- Settles O40, by the space and then by the FIFO-error bit. -/
theorem fifotxTransmitsTheFrame : Obligations.FifotxTransmitsTheFrame := by
  intro s x port d m t l fl space fsize frame status flush0 flush1 rx1 es hready hport hd hm ht hfl hfits hspace hfsize
    hframe hstatus hflush0 hflush1 h1
  subst hfl hspace hfsize hframe hstatus hflush0 hflush1
  have hprog : progOf (.fifotx port (some d) (some m) (some t) (some l)) x = fifotxSend port.toNat d m t l x := by
    rw [progOf_fifotx_some hport, require_holds (macLengthsOk_iff.mpr ⟨hd, hm, ht⟩)]
    exact require_holds (txFits_iff.mpr hfits) _ _
  refine ⟨fun hfull hev => ?noSpace, fun hroom rx2 rx3 rx4 h2 h3 h4 => ?sends⟩
  case noSpace =>
    have hreach := reaches_fifotxSend_noSpace (port := port.toNat) (d := d) (m := m) (t := t) h1 (decide_eq_true hfull)
    rw [← hprog] at hreach
    exact exec_raises_of_reaches hready rfl nofun hreach hev
  case sends =>
    have hreach := reaches_fifotxSend_status h1 (decide_eq_false (not_lt.mpr hroom)) h2 h3 h4
    rw [← hprog] at hreach
    refine ⟨fun herr hev => ?ok, fun herr rx5 rx6 h5 h6 hev => ?flushes⟩
    case ok =>
      rw [if_neg (Bool.eq_false_iff.mp herr)] at hreach
      exact exec_returns_of_reaches hready rfl nofun hreach hev
    case flushes =>
      rw [if_pos herr] at hreach
      exact exec_raises_of_reaches hready rfl nofun (hreach.trans (reaches_flush h5 h6)) hev

/-! ## FIFORX: its tests (R164) -/

theorem progOf_fiforx_of_badPort {x : Ctx} {port : Byte} (h : x.cfg.ports.toNat ≤ port.toNat) (cap : Option W32) :
    progOf (.fiforx port cap) x = .raise (.invalidArg .port) :=
  require_fails (portOk_eq_false h) _ _

theorem progOf_fiforx_none {x : Ctx} {port : Byte} (h : port.toNat < x.cfg.ports.toNat) :
    progOf (.fiforx port none) x = .raise (.invalidArg .null) :=
  require_holds (portOk_iff.mpr h) _ _

theorem fiforxTake_of_noFrame {x : Ctx} {fs : W32} (h : fs.toNat < headerLen x + x.p.fcsLen) (port : Nat) (cap : W32) :
    fiforxTake port cap fs x = .ret .noFrame := by
  rw [fiforxTake, if_pos h]

/-- A frame size from both bounds on is tested against the buffer and then against the caller's capacity. -/
theorem fiforxTake_of_frame {x : Ctx} {fs : W32} (hfcs : headerLen x + x.p.fcsLen ≤ fs.toNat)
    (heth : headerLen x + x.p.ethHdrLen ≤ fs.toNat) (port : Nat) (cap : W32) :
    fiforxTake port cap fs x
      = (require (rxFits x fs.toNat) .tooLong <|
        require (decide (fs.toNat - headerLen x - x.p.ethHdrLen ≤ cap.toNat)) .capacity <|
        .xfer (rxcmd x.p port fs.toNat) fun rx => .ret (decodeFrame x fs.toNat (rxData x.p fs.toNat rx))) := by
  rw [fiforxTake, if_neg (Nat.not_lt.mpr hfcs), if_neg (Nat.not_lt.mpr heth)]

/-- FIFORX after its size read goes on with the size. -/
theorem reaches_fiforx {x : Ctx} {port : Byte} {rx : Bytes} (hport : port.toNat < x.cfg.ports.toNat) (cap : W32)
    (hfit : Fits rx (rframe x.p (portAddr x.p.rxFsizeAddr port.toNat))) :
    Reaches (progOf (.fiforx port (some cap)) x) [rx]
      [exchanged (rframe x.p (portAddr x.p.rxFsizeAddr port.toNat)) rx]
      (fiforxTake port.toNat cap (rdecode x.p rx) x) := by
  rw [Faults.progOf_fiforx_some hport]
  exact reaches_cons hfit (.refl _)

/-- Settles O41, by the test that ends the operation. -/
theorem fiforxStopsBeforeTheFrame : Obligations.FiforxStopsBeforeTheFrame := by
  intro s x port hready
  refine ⟨fun cap hport => ?badPort, fun hport => ⟨?noCapacity, ?_⟩⟩
  case badPort => exact exec_raises_at_once (i := .fiforx _ _) hready rfl nofun (progOf_fiforx_of_badPort hport cap)
  case noCapacity => exact exec_raises_at_once (i := .fiforx _ _) hready rfl nofun (progOf_fiforx_none hport)
  intro cap rx es size fs h r hsize hfs hh hfit hev hcause
  subst hsize hfs hh
  have hreach := reaches_fiforx hport cap hfit
  rcases hcause with ⟨hfs, rfl⟩ | ⟨hfcs, heth, hlong, rfl⟩ | ⟨hfcs, heth, hfits, hcap, rfl⟩
  · rw [fiforxTake_of_noFrame hfs] at hreach
    exact exec_returns_of_reaches hready rfl nofun hreach hev
  · rw [fiforxTake_of_frame hfcs heth, require_fails (rxFits_eq_false hlong)] at hreach
    exact exec_raises_of_reaches hready rfl nofun hreach hev
  · rw [fiforxTake_of_frame hfcs heth, require_holds (rxFits_iff.mpr hfits),
      require_fails (decide_eq_false (Nat.not_le.mpr hcap))] at hreach
    exact exec_raises_of_reaches hready rfl nofun hreach hev

/-! ## FIFORX: the frame (R80, R164) -/

/-- A slice between given places, from what stands before and after it. -/
theorem slice_eq_middle {s before mid after : Bytes} {i j : Nat} (hs : s = before ++ mid ++ after) (hi : before.length = i)
    (hj : i + mid.length = j) : slice s i j = mid := by
  subst hs hi hj
  exact RegBus.slice_middle before mid after

/-- The fields of a data region that is header, addresses, ethertype, payload and tail. -/
theorem decodeFrame_append {x : Ctx} {fs : Nat} {hdr dest src et payload : Bytes} (hp : x.p.wf)
    (hhdr : hdr.length = headerLen x) (hdest : dest.length = x.p.macLen) (hsrc : src.length = x.p.macLen)
    (het : et.length = x.p.ethertypeLen) (hpayload : payload.length = fs - headerLen x - x.p.ethHdrLen) (tail : Bytes) :
    decodeFrame x fs (hdr ++ dest ++ src ++ et ++ payload ++ tail)
      = .frame dest src et payload (fs - headerLen x - x.p.ethHdrLen) := by
  have ⟨_, _, _, _, _, _, _, _, _, hmac⟩ := hp
  rw [Params.ethertypeLen] at het
  have hd : slice (hdr ++ dest ++ src ++ et ++ payload ++ tail) (headerLen x) (headerLen x + x.p.macLen) = dest :=
    slice_eq_middle (after := src ++ et ++ payload ++ tail) (by simp only [List.append_assoc]) hhdr (by omega)
  have hs : slice (hdr ++ dest ++ src ++ et ++ payload ++ tail) (headerLen x + x.p.macLen) (headerLen x + 2 * x.p.macLen)
      = src :=
    slice_eq_middle (before := hdr ++ dest) (after := et ++ payload ++ tail) (by simp only [List.append_assoc])
      (by simp only [List.length_append]; omega) (by omega)
  have ht : slice (hdr ++ dest ++ src ++ et ++ payload ++ tail) (headerLen x + 2 * x.p.macLen)
      (headerLen x + x.p.ethHdrLen) = et :=
    slice_eq_middle (before := hdr ++ dest ++ src) (after := payload ++ tail) (by simp only [List.append_assoc])
      (by simp only [List.length_append]; omega) (by omega)
  have hl : slice (hdr ++ dest ++ src ++ et ++ payload ++ tail) (headerLen x + x.p.ethHdrLen)
      (headerLen x + x.p.ethHdrLen + (fs - headerLen x - x.p.ethHdrLen)) = payload :=
    slice_eq_middle (before := hdr ++ dest ++ src ++ et) rfl (by simp only [List.length_append]; omega) (by omega)
  rw [decodeFrame, hd, hs, ht, hl]

/-- Settles O42: the second transaction's data region is the frame. -/
theorem fiforxDeliversTheFrame : Obligations.FiforxDeliversTheFrame := by
  intro s x port cap rx1 size cmd head hdr dest src et payload tail fs es hp hready hport hsize hfit1 hfs hfcs heth hfits
    hcap hcmd hhead hhdr hdest hsrc het hpayload htail hev
  subst hsize hfs hcmd
  have ⟨_, _, _, _, _, _, _, _, halign, hmac⟩ := hp
  obtain ⟨-, hge, -⟩ := alignUp_spec (rdecode x.p rx1).toNat halign
  have hregion : (hdr ++ dest ++ src ++ et ++ payload ++ tail).length = alignUp (rdecode x.p rx1).toNat x.p.fifoAlign := by
    rw [Params.ethertypeLen] at het
    simp only [List.length_append]
    omega
  have hfit2 : Fits (head ++ (hdr ++ dest ++ src ++ et ++ payload ++ tail))
      (rxcmd x.p port.toNat (rdecode x.p rx1).toNat) := by
    rw [Fits, Encoding.rxcmd_length, List.length_append, hhead, hregion]
  have hdata : rxData x.p (rdecode x.p rx1).toNat (head ++ (hdr ++ dest ++ src ++ et ++ payload ++ tail))
      = hdr ++ dest ++ src ++ et ++ payload ++ tail :=
    slice_eq_middle (after := []) (List.append_nil _).symm hhead (by rw [hregion])
  have hreach := reaches_fiforx hport cap hfit1
  rw [fiforxTake_of_frame hfcs heth, require_holds (rxFits_iff.mpr hfits), require_holds (decide_eq_true hcap)] at hreach
  have hframe := hreach.trans (Faults.reaches_of_fits hfit2 _)
  rw [hdata, decodeFrame_append hp hhdr hdest hsrc het hpayload] at hframe
  exact exec_returns_of_reaches hready rfl nofun hframe hev

/-- Slices of strings that agree between their ends. -/
theorem slice_congr {d d' : Bytes} {i j : Nat} (h : ∀ k, i ≤ k → k < j → d[k]? = d'[k]?) : slice d i j = slice d' i j := by
  refine List.ext_getElem? fun k => ?_
  simp only [slice, List.getElem?_take, List.getElem?_drop]
  split
  case isTrue hk => exact h (i + k) (by omega) (by omega)
  case isFalse => rfl

/-- Settles O46: every field lies between the frame header and the frame's size. -/
theorem receiveIgnoresHeaderAndTail : Obligations.ReceiveIgnoresHeaderAndTail := by
  intro x fs d d' hp hfs _ _ hagree
  have ⟨_, _, _, _, _, _, _, _, _, hmac⟩ := hp
  have hslice : ∀ i j, headerLen x ≤ i → j ≤ fs → slice d i j = slice d' i j :=
    fun i j hi hj => slice_congr fun k hik hkj => hagree k (by omega) (by omega)
  rw [decodeFrame, hslice, hslice, hslice, hslice, ← decodeFrame] <;> omega

end Sys2Proof.Laws.Fifo

/-! SUPPORT. The CRC-8 functions of spec/41_crc8.md: the table is linear (R110) and so is what both of its constructions build,
and the CRC is a remainder over GF(2) (R111), from which it follows that no single-bit error goes unseen (R124). -/

namespace Sys2Proof.Laws.CrcTable

open Machine

/-! ## Shifts (R110) -/

@[simp] theorem crc8Step_zero (poly : Byte) : crc8Step poly 0 = 0 := rfl

/-- A shift adds the polynomial where bit 7 leaves, and is linear. -/
theorem crc8Step_xor (poly a b : Byte) : crc8Step poly (a ^^^ b) = crc8Step poly a ^^^ crc8Step poly b := by
  simp only [crc8Step, BitVec.getLsbD_xor, BitVec.shiftLeft_xor_distrib]
  cases a.getLsbD 7 <;> cases b.getLsbD 7
  · rfl
  · exact BitVec.xor_assoc _ _ _
  · simp only [Bool.xor_false, if_true, Bool.false_eq_true, if_false]
    rw [BitVec.xor_assoc, BitVec.xor_comm (b <<< 1), BitVec.xor_assoc]
  · simp only [Bool.xor_self, Bool.false_eq_true, if_true, if_false]
    rw [BitVec.xor_assoc, BitVec.xor_comm (b <<< 1), ← BitVec.xor_assoc poly, BitVec.xor_self, BitVec.zero_xor]

theorem crc8Shifts_xor (poly a b : Byte) (n : Nat) :
    crc8Shifts poly n (a ^^^ b) = crc8Shifts poly n a ^^^ crc8Shifts poly n b := by
  induction n generalizing a b with
  | zero => rfl
  | succ n ih => rw [crc8Shifts, crc8Step_xor, ih, crc8Shifts, crc8Shifts]

theorem crc8Shifts_add (poly c : Byte) (m n : Nat) :
    crc8Shifts poly (m + n) c = crc8Shifts poly m (crc8Shifts poly n c) := by
  induction n generalizing c with
  | zero => rfl
  | succ n ih => exact ih (crc8Step poly c)

/-- One shift more, at the end. -/
theorem crc8Shifts_succ (poly c : Byte) (n : Nat) : crc8Shifts poly (n + 1) c = crc8Step poly (crc8Shifts poly n c) := by
  rw [Nat.add_comm, crc8Shifts_add]
  rfl

theorem crc8Shifts_zero (poly : Byte) (n : Nat) : crc8Shifts poly n 0 = 0 := by
  induction n with
  | zero => rfl
  | succ n ih => rw [crc8Shifts_succ, ih, crc8Step_zero]

/-- Below bit 7 a shift moves a single bit up by one. -/
theorem crc8Step_two_pow (poly : Byte) {k : Nat} (hk : k < 7) :
    crc8Step poly (BitVec.ofNat 8 (2 ^ k)) = BitVec.ofNat 8 (2 ^ (k + 1)) := by
  interval_cases k <;> rfl

/-- Up to seven shifts of 1 reach bit 7 and no further. -/
theorem crc8Shifts_one (poly : Byte) {k : Nat} (hk : k < 8) : crc8Shifts poly k 1 = BitVec.ofNat 8 (2 ^ k) := by
  induction k with
  | zero => rfl
  | succ k ih => rw [crc8Shifts_succ, ih (by omega), crc8Step_two_pow poly (by omega)]

/-- With polynomial 0 eight shifts move every bit out. -/
theorem crc8Shifts_zero_poly (c : Byte) (n : Nat) : crc8Shifts 0 n c = c <<< n := by
  induction n generalizing c with
  | zero => rw [BitVec.shiftLeft_zero]; rfl
  | succ n ih =>
    have hstep : crc8Step 0 c = c <<< 1 := by simp [crc8Step]
    rw [crc8Shifts, hstep, ih, ← BitVec.shiftLeft_add, Nat.add_comm]

/-! ## The table (R110) -/

@[simp] theorem crcLookup_crc8Table (poly b : Byte) : crcLookup (crc8Table poly) b = crc8Entry poly b := by
  simp [crcLookup, crc8Table]

theorem crc8Entry_zero (poly : Byte) : crc8Entry poly 0 = 0 := crc8Shifts_zero poly 8

theorem crc8Entry_xor (poly i j : Byte) : crc8Entry poly (i ^^^ j) = crc8Entry poly i ^^^ crc8Entry poly j :=
  crc8Shifts_xor poly i j 8

/-- The entry of `2^k` is bit 7 shifted `k + 1` times. -/
theorem crc8Entry_two_pow (poly : Byte) {k : Nat} (hk : k < 8) :
    crc8Entry poly (BitVec.ofNat 8 (2 ^ k)) = crc8Shifts poly (k + 1) 0x80 := by
  have hbit7 : crc8Shifts poly 7 1 = 0x80 := crc8Shifts_one poly (by decide)
  rw [crc8Entry, ← crc8Shifts_one poly hk, ← hbit7, ← crc8Shifts_add, ← crc8Shifts_add]
  congr 1
  omega

theorem crc8Entry_one (poly : Byte) : crc8Entry poly 1 = poly := by
  have hbit7 : crc8Step poly 0x80 = 0 ^^^ poly := rfl
  have hone := crc8Entry_two_pow poly (k := 0) (by decide)
  rw [crc8Shifts_succ] at hone
  exact hone.trans (hbit7.trans BitVec.zero_xor)

/-- Settles O24. -/
theorem crcTableIsLinear : Obligations.CrcTableIsLinear := by
  intro poly
  simp only [crcLookup_crc8Table]
  refine ⟨crc8Entry_zero poly, crc8Entry_one poly, crc8Entry_xor poly, ?_⟩
  rintro rfl i
  rw [crc8Entry, crc8Shifts_zero_poly]
  exact BitVec.shiftLeft_eq_zero (le_refl 8)

/-! ## The doubling construction (R110) -/

/-- Below a power of two, adding it is setting its bit. -/
theorem two_pow_add_eq_xor {k j : Nat} (h : j < 2 ^ k) : 2 ^ k + j = 2 ^ k ^^^ j := by
  have hor := Nat.two_pow_add_eq_or_of_lt h 1
  rw [Nat.mul_one] at hor
  rw [hor]
  apply Nat.eq_of_testBit_eq
  intro i
  rw [Nat.testBit_or, Nat.testBit_xor, Nat.testBit_two_pow]
  by_cases hi : k = i
  · rw [← hi, Nat.testBit_lt_two_pow h, decide_eq_true rfl, Bool.true_or, Bool.true_xor, Bool.not_false]
  · rw [decide_eq_false hi, Bool.false_or, Bool.false_xor]

/-- The first `k` entries of the table. -/
def firstEntries (poly : Byte) (k : Nat) : List Byte := (List.range k).map fun i => crc8Entry poly (BitVec.ofNat 8 i)

/-- A round doubles the entries: those of `2^k + j` are those of `j` with the entry of `2^k` added. -/
theorem firstEntries_double (poly : Byte) (k : Nat) :
    firstEntries poly (2 ^ (k + 1)) = firstEntries poly (2 ^ k)
      ++ (firstEntries poly (2 ^ k)).map (· ^^^ crc8Entry poly (BitVec.ofNat 8 (2 ^ k))) := by
  rw [firstEntries, Nat.pow_succ, Nat.mul_two, List.range_add, List.map_append, List.map_map, firstEntries, List.map_map]
  congr 1
  refine List.map_congr_left fun j hj => ?_
  simp only [Function.comp_apply]
  rw [two_pow_add_eq_xor (List.mem_range.mp hj), BitVec.ofNat_xor, crc8Entry_xor, BitVec.xor_comm]

theorem doublingRound_eq (poly : Byte) (ts : List Byte) (t : Byte) :
    doublingRound poly (ts, t) = (ts ++ ts.map (· ^^^ crc8Step poly t), crc8Step poly t) := by
  have hstep : (t <<< 1) ^^^ (if t.getLsbD 7 then poly else 0) = crc8Step poly t := by
    rw [crc8Step]
    split
    · rfl
    · exact BitVec.xor_zero
  rw [doublingRound, hstep]

/-- After `k` rounds there are the first `2^k` entries, and `t` is bit 7 shifted `k` times. -/
theorem iterate_doublingRound (poly : Byte) {k : Nat} (hk : k ≤ 8) :
    (doublingRound poly)^[k] ([0], 0x80) = (firstEntries poly (2 ^ k), crc8Shifts poly k 0x80) := by
  induction k with
  | zero =>
    have hfirst : firstEntries poly 1 = [crc8Entry poly 0] := rfl
    rw [Nat.pow_zero, hfirst, crc8Entry_zero]
    rfl
  | succ k ih =>
    rw [Function.iterate_succ_apply', ih (by omega), doublingRound_eq, ← crc8Shifts_succ, firstEntries_double,
      crc8Entry_two_pow poly (by omega)]

/-- Settles O26: eight rounds build all 256 entries. -/
theorem doublingConstructionGivesTheTable : Obligations.DoublingConstructionGivesTheTable := by
  intro poly
  rw [doublingTable, iterate_doublingRound poly le_rfl]
  rfl

/-! ## The CRC of a string (R111) -/

theorem crc8_append (t : CrcTable) (s u : Bytes) (init : Byte) : crc8 t (s ++ u) init = crc8 t u (crc8 t s init) :=
  List.foldl_append

theorem crc8_append_singleton (poly : Byte) (s : Bytes) (b init : Byte) :
    crc8 (crc8Table poly) (s ++ [b]) init = crc8Entry poly (crc8 (crc8Table poly) s init ^^^ b) := by
  rw [crc8_append, ← crcLookup_crc8Table]
  rfl

/-- Settles O25: the last table index is the CRC added to itself. -/
theorem crcOfStringFollowedByItsCrcIsZero : Obligations.CrcOfStringFollowedByItsCrcIsZero := by
  refine ⟨crc8_append, fun poly s init => ?_⟩
  rw [crc8_append_singleton, BitVec.xor_self]
  exact crc8Entry_zero poly

end Sys2Proof.Laws.CrcTable

/-! SUPPORT. The CRC as a remainder over GF(2) (spec/41_crc8.md R111): a shift multiplies by `x` modulo the generator. From
it: no single-bit error goes unseen (spec/42_regbus.md R124). -/

namespace Sys2Proof.Laws.CrcPolynomial

open Machine Polynomial

/-! ## Bytes as polynomials -/

theorem bytePoly_eq_sum (b : Byte) :
    bytePoly b = ∑ i ∈ Finset.range 8, if b.getLsbD i then (X : (ZMod 2)[X]) ^ i else 0 := rfl

theorem coeff_bytePoly (b : Byte) (n : Nat) : (bytePoly b).coeff n = if b.getLsbD n then 1 else 0 := by
  have hterm : ∀ i, (if b.getLsbD i then (X : (ZMod 2)[X]) ^ i else 0).coeff n
      = if i = n then (if b.getLsbD n then 1 else 0) else 0 := by
    intro i
    by_cases hi : i = n
    · subst hi
      cases hb : b.getLsbD i <;> simp
    · cases hb : b.getLsbD i <;> simp [coeff_X_pow, hi, Ne.symm hi]
  rw [bytePoly_eq_sum, finsetSum_coeff, Finset.sum_congr rfl fun i _ => hterm i, Finset.sum_ite_eq' (Finset.range 8) n]
  by_cases hn : n < 8
  · rw [if_pos (Finset.mem_range.mpr hn)]
  · rw [if_neg (by simpa using hn), BitVec.getLsbD_of_ge b n (by omega)]
    rfl

theorem bytePoly_xor (a b : Byte) : bytePoly (a ^^^ b) = bytePoly a + bytePoly b := by
  ext n
  rw [coeff_add, coeff_bytePoly, coeff_bytePoly, coeff_bytePoly, BitVec.getLsbD_xor]
  cases a.getLsbD n <;> cases b.getLsbD n <;> decide

theorem bytePoly_zero : bytePoly 0 = 0 := by
  ext n
  simp [coeff_bytePoly]

theorem eq_zero_of_bytePoly {b : Byte} (h : bytePoly b = 0) : b = 0 := by
  refine BitVec.eq_of_getLsbD_eq fun i _ => ?_
  have hcoeff := coeff_bytePoly b i
  rw [h, coeff_zero] at hcoeff
  cases hb : b.getLsbD i
  · simp
  · simp [hb] at hcoeff

/-- A single bit is a monomial. -/
theorem bytePoly_one_shiftLeft {j : Nat} (hj : j < 8) : bytePoly ((1 <<< j : Nat) : Byte) = X ^ j := by
  ext n
  rw [coeff_bytePoly, coeff_X_pow, BitVec.natCast_eq_ofNat, BitVec.getLsbD_ofNat, Nat.one_shiftLeft, Nat.testBit_two_pow]
  by_cases hn : n = j
  · subst hn
    simp [hj]
  · simp [hn, Ne.symm hn]

theorem degree_bytePoly_lt (b : Byte) : (bytePoly b).degree < (8 : Nat) := by
  rw [degree_lt_iff_coeff_zero]
  intro m hm
  rw [coeff_bytePoly, BitVec.getLsbD_of_ge b m hm]
  rfl

/-! ## The generator (R22, R110) -/

theorem monic_generator (poly : Byte) : (generator poly).Monic := monic_X_pow_add (degree_bytePoly_lt poly)

theorem degree_generator (poly : Byte) : (generator poly).degree = (8 : Nat) := by
  rw [generator, degree_add_eq_left_of_degree_lt, degree_X_pow]
  rw [degree_X_pow]
  exact degree_bytePoly_lt poly

/-- A byte is its own remainder. -/
theorem bytePoly_modByMonic (poly b : Byte) : bytePoly b %ₘ generator poly = bytePoly b := by
  rw [modByMonic_eq_self_iff (monic_generator poly), degree_generator]
  exact degree_bytePoly_lt b

/-- A left shift multiplies by `x`, but for the bit that leaves. -/
theorem X_mul_bytePoly (c : Byte) : X * bytePoly c = bytePoly (c <<< 1) + if c.getLsbD 7 then X ^ 8 else 0 := by
  ext n
  rw [coeff_add, coeff_bytePoly]
  cases n with
  | zero => cases c.getLsbD 7 <;> simp [coeff_X_pow]
  | succ n =>
    rw [coeff_X_mul, coeff_bytePoly, BitVec.getLsbD_shiftLeft]
    rcases lt_trichotomy n 7 with hn | rfl | hn
    · have h8 : n + 1 < 8 := by omega
      have hne : ¬ n + 1 = 8 := by omega
      cases c.getLsbD 7 <;> simp [coeff_X_pow, h8, hn.ne]
    · cases c.getLsbD 7 <;> simp [coeff_X_pow]
    · rw [BitVec.getLsbD_of_ge c n (by omega)]
      have h8 : ¬ n + 1 < 8 := by omega
      cases c.getLsbD 7 <;> simp [coeff_X_pow, h8, hn.ne']

/-- A shift of R110's loop multiplies by `x` modulo the generator. -/
theorem generator_dvd_step (poly c : Byte) : generator poly ∣ X * bytePoly c - bytePoly (crc8Step poly c) := by
  rw [X_mul_bytePoly, crc8Step]
  cases hbit : c.getLsbD 7
  · simp
  · refine Dvd.intro 1 ?_
    simp only [if_true, bytePoly_xor, generator]
    rw [CharTwo.sub_eq_add]
    linear_combination (-1 : (ZMod 2)[X]) * CharTwo.add_self_eq_zero (bytePoly (c <<< 1))

theorem generator_dvd_shifts (poly c : Byte) (n : Nat) :
    generator poly ∣ X ^ n * bytePoly c - bytePoly (crc8Shifts poly n c) := by
  induction n with
  | zero => simp [crc8Shifts]
  | succ n ih =>
    rw [CrcTable.crc8Shifts_succ]
    have hsum := dvd_add (ih.mul_left X) (generator_dvd_step poly (crc8Shifts poly n c))
    convert hsum using 1
    ring

/-! ## Strings as polynomials (R111) -/

theorem bytesPoly_append_singleton (s : Bytes) (b : Byte) : bytesPoly (s ++ [b]) = bytesPoly s * X ^ 8 + bytePoly b := by
  rw [bytesPoly, List.foldl_append]
  rfl

/-- A string and then another: the first is moved up by the second's bits. -/
theorem bytesPoly_append (s t : Bytes) : bytesPoly (s ++ t) = bytesPoly s * X ^ (8 * t.length) + bytesPoly t := by
  induction t using List.reverseRecOn with
  | nil => simp [bytesPoly]
  | append_singleton t b ih =>
    rw [← List.append_assoc, bytesPoly_append_singleton, bytesPoly_append_singleton, ih, List.length_append,
      List.length_singleton]
    ring

/-- The string's polynomial times `x^8`, with the initial value ahead of it: what the CRC is the remainder of. -/
noncomputable def dividend (s : Bytes) (init : Byte) : (ZMod 2)[X] :=
  bytesPoly s * X ^ 8 + bytePoly init * X ^ (8 * s.length)

/-- The CRC is congruent to the dividend modulo the generator. -/
theorem generator_dvd_crc8 (poly init : Byte) (s : Bytes) :
    generator poly ∣ dividend s init - bytePoly (crc8 (crc8Table poly) s init) := by
  induction s using List.reverseRecOn with
  | nil => simp [dividend, bytesPoly, crc8]
  | append_singleton s b ih =>
    have hshift := generator_dvd_shifts poly (crc8 (crc8Table poly) s init ^^^ b) 8
    rw [CrcTable.crc8_append_singleton]
    have hsum := dvd_add (ih.mul_right (X ^ 8)) hshift
    convert hsum using 1
    rw [crc8Entry, bytePoly_xor, dividend, dividend, bytesPoly_append_singleton, List.length_append, List.length_singleton]
    ring

/-- Settles O27: the CRC is congruent to the dividend and, as a byte, its own remainder. -/
theorem crcIsTheRemainderOverGF2 : Obligations.CrcIsTheRemainderOverGF2 := by
  intro poly s
  have hdvd := generator_dvd_crc8 poly 0 s
  rw [dividend, bytePoly_zero, zero_mul, add_zero] at hdvd
  rw [modByMonic_eq_of_dvd_sub (monic_generator poly) hdvd, bytePoly_modByMonic]

/-! ## Single-bit errors (R111, R124) -/

/-- A monic polynomial that divides a power of `x` is one, so a generator with a nonzero polynomial divides none. -/
theorem not_generator_dvd_X_pow {poly : Byte} (hpoly : poly ≠ 0) (n : Nat) : ¬ generator poly ∣ X ^ n := by
  intro hdvd
  obtain ⟨k, -, hassoc⟩ := (dvd_prime_pow prime_X n).mp hdvd
  have heq : generator poly = X ^ k := eq_of_monic_of_associated (monic_generator poly) (monic_X_pow k) hassoc
  have hk : (8 : Nat) = k := by
    have hdeg := degree_generator poly
    rw [heq, degree_X_pow] at hdeg
    exact_mod_cast hdeg.symm
  subst hk
  rw [generator, add_eq_left] at heq
  exact hpoly (eq_zero_of_bytePoly heq)

/-- Inverting a bit adds its monomial. -/
theorem bytesPoly_flipBit {s : Bytes} {i j : Nat} (hi : i < s.length) (hj : j < 8) :
    bytesPoly (flipBit s i j) = bytesPoly s + X ^ (j + 8 * (s.length - (i + 1))) := by
  have hs : bytesPoly ((s.take i ++ [s[i]]) ++ s.drop (i + 1)) = bytesPoly s := congrArg bytesPoly (by simp)
  have hflip : flipBit s i j = (s.take i ++ [s[i] ^^^ ((1 <<< j : Nat) : Byte)]) ++ s.drop (i + 1) := by
    rw [flipBit, List.modify_eq_take_cons_drop hi, List.append_assoc]
    rfl
  rw [← hs, hflip, bytesPoly_append, bytesPoly_append_singleton, bytesPoly_append, bytesPoly_append_singleton,
    bytePoly_xor, bytePoly_one_shiftLeft hj, List.length_drop]
  ring

/-- Settles O28: two strings with one CRC have dividends that the generator does not tell apart, but these two differ by a
power of `x`. -/
theorem crcDetectsEverySingleBitError : Obligations.CrcDetectsEverySingleBitError := by
  intro poly init s i j hpoly hi hj hcrc
  have hlen : (flipBit s i j).length = s.length := List.length_modify _ _ _
  have hdvd := dvd_sub (generator_dvd_crc8 poly init (flipBit s i j)) (generator_dvd_crc8 poly init s)
  refine not_generator_dvd_X_pow hpoly (j + 8 * (s.length - (i + 1)) + 8) ?_
  convert hdvd using 1
  rw [hcrc, dividend, dividend, hlen, bytesPoly_flipBit hi hj]
  ring

end Sys2Proof.Laws.CrcPolynomial

/-! SUPPORT. The MDIO control word (spec/30_encoding.md R76 to R79) as a word made of fields that do not overlap: each field
is read back where it was placed, and fields that fill the word determine it. -/

namespace Sys2Proof.Laws.ControlWord

open Machine

/-! ## Words made of fields -/

/-- A field of a 32-bit word: its lowest bit, its width and its value. -/
structure Field where
  lo : Nat
  width : Nat
  value : BitVec width

/-- The field at its place in the word. -/
def Field.placed (f : Field) : W32 := f.value.setWidth 32 <<< f.lo

/-- The word made of some fields. -/
def wordOf (fs : List Field) : W32 := fs.foldr (fun f w => f.placed ||| w) 0#32

/-- The bits that some fields occupy. -/
def bitsOf (fs : List Field) : List Nat := fs.flatMap fun f => fieldBits f.lo f.width

theorem mem_fieldBits {i lo w : Nat} : i ∈ fieldBits lo w ↔ lo ≤ i ∧ i < lo + w := by
  simp only [fieldBits, List.mem_map, List.mem_range]
  constructor
  · rintro ⟨k, hk, rfl⟩
    omega
  · rintro ⟨hlo, hhi⟩
    exact ⟨i - lo, by omega, by omega⟩

theorem mem_bitsOf {i : Nat} {fs : List Field} : i ∈ bitsOf fs ↔ ∃ f ∈ fs, f.lo ≤ i ∧ i < f.lo + f.width := by
  simp only [bitsOf, List.mem_flatMap, mem_fieldBits]

theorem getLsbD_placed (f : Field) (i : Nat) :
    f.placed.getLsbD i = (decide (i < 32) && decide (f.lo ≤ i) && f.value.getLsbD (i - f.lo)) := by
  have hwidth : i < 32 → i - f.lo < 32 := by omega
  rw [Field.placed, BitVec.getLsbD_shiftLeft, BitVec.getLsbD_setWidth]
  by_cases hi : i < 32
  · by_cases hlo : f.lo ≤ i
    · simp [hi, hlo, hwidth hi, Nat.not_lt.mpr hlo]
    · simp [hi, hlo, Nat.not_le.mp hlo]
  · simp [hi]

theorem getLsbD_placed_eq_false {f : Field} {i : Nat} (h : ¬ (f.lo ≤ i ∧ i < f.lo + f.width)) :
    f.placed.getLsbD i = false := by
  rw [getLsbD_placed]
  by_cases hlo : f.lo ≤ i
  · rw [BitVec.getLsbD_of_ge f.value (i - f.lo) (by omega), Bool.and_false]
  · rw [decide_eq_false hlo, Bool.and_false, Bool.false_and]

theorem getLsbD_wordOf_cons (f : Field) (fs : List Field) (i : Nat) :
    (wordOf (f :: fs)).getLsbD i = (f.placed.getLsbD i || (wordOf fs).getLsbD i) :=
  BitVec.getLsbD_or

/-- A bit of no field is 0. -/
theorem getLsbD_wordOf_of_not_mem {fs : List Field} {i : Nat} (h : i ∉ bitsOf fs) : (wordOf fs).getLsbD i = false := by
  induction fs with
  | nil => exact BitVec.getLsbD_zero
  | cons f fs ih =>
    rw [bitsOf, List.flatMap_cons, List.mem_append, not_or, mem_fieldBits] at h
    rw [getLsbD_wordOf_cons, getLsbD_placed_eq_false h.1, ih h.2, Bool.false_or]

/-- In a word of fields that do not overlap, a bit of a field is the field's own. -/
theorem getLsbD_wordOf {fs : List Field} (hnodup : (bitsOf fs).Nodup) {f : Field} (hf : f ∈ fs) {i : Nat}
    (hi : f.lo ≤ i ∧ i < f.lo + f.width) : (wordOf fs).getLsbD i = f.placed.getLsbD i := by
  induction fs with
  | nil => cases hf
  | cons g fs ih =>
    rw [bitsOf, List.flatMap_cons, List.nodup_append'] at hnodup
    obtain ⟨-, htail, hdisjoint⟩ := hnodup
    rw [getLsbD_wordOf_cons]
    rcases List.mem_cons.mp hf with rfl | hf
    · rw [getLsbD_wordOf_of_not_mem (hdisjoint (mem_fieldBits.mpr hi)), Bool.or_false]
    · have hg : ¬ (g.lo ≤ i ∧ i < g.lo + g.width) := fun hg =>
        hdisjoint (mem_fieldBits.mpr hg) (mem_bitsOf.mpr ⟨f, hf, hi⟩)
      rw [getLsbD_placed_eq_false hg, ih htail hf, Bool.false_or]

/-- Reading a field of such a word gives its value. -/
theorem extractLsb'_wordOf {fs : List Field} (hnodup : (bitsOf fs).Nodup) (hbound : ∀ b ∈ bitsOf fs, b < 32) {f : Field}
    (hf : f ∈ fs) : (wordOf fs).extractLsb' f.lo f.width = f.value := by
  refine BitVec.eq_of_getLsbD_eq fun j hj => ?_
  have hin : f.lo ≤ f.lo + j ∧ f.lo + j < f.lo + f.width := by omega
  have hlt : f.lo + j < 32 := hbound _ (mem_bitsOf.mpr ⟨f, hf, hin⟩)
  rw [BitVec.getLsbD_extractLsb', decide_eq_true hj, Bool.true_and, getLsbD_wordOf hnodup hf hin, getLsbD_placed,
    decide_eq_true hlt, decide_eq_true hin.1, Nat.add_sub_cancel_left, Bool.true_and, Bool.true_and]

/-- 32 different bits below 32 are all of them. -/
theorem mem_bitsOf_of_lt {fs : List Field} (hnodup : (bitsOf fs).Nodup) (hbound : ∀ b ∈ bitsOf fs, b < 32)
    (hlen : (bitsOf fs).length = 32) {i : Nat} (hi : i < 32) : i ∈ bitsOf fs := by
  have hsub : bitsOf fs ⊆ List.range 32 := fun b hb => List.mem_range.mpr (hbound b hb)
  have hperm := (hnodup.subperm hsub).perm_of_length_le (by rw [hlen, List.length_range])
  exact hperm.mem_iff.mpr (List.mem_range.mpr hi)

/-- A word is the word of its fields where they fill it without overlap. -/
theorem wordOf_eq {fs : List Field} (hnodup : (bitsOf fs).Nodup) (hbound : ∀ b ∈ bitsOf fs, b < 32)
    (hlen : (bitsOf fs).length = 32) {w : W32} (hw : ∀ f ∈ fs, w.extractLsb' f.lo f.width = f.value) : wordOf fs = w := by
  refine BitVec.eq_of_getLsbD_eq fun i hi => ?_
  obtain ⟨f, hf, hin⟩ := mem_bitsOf.mp (mem_bitsOf_of_lt hnodup hbound hlen hi)
  have hj : i - f.lo < f.width := by omega
  rw [getLsbD_wordOf hnodup hf hin, getLsbD_placed, decide_eq_true hi, decide_eq_true hin.1, ← hw f hf,
    BitVec.getLsbD_extractLsb', decide_eq_true hj, Nat.add_sub_cancel' hin.1, Bool.true_and, Bool.true_and, Bool.true_and]

/-! ## The control word's seven fields (R76) -/

/-- The fields of a control word in a layout. -/
def controlFields (l : MdioLayout) (trdone rsvd : Bool) (st op : BitVec 2) (prtad devad : BitVec 5) (data : W16) :
    List Field :=
  [⟨l.trdone, 1, BitVec.ofBool trdone⟩, ⟨l.rsvd, 1, BitVec.ofBool rsvd⟩, ⟨l.st, 2, st⟩, ⟨l.op, 2, op⟩,
    ⟨l.prtad, 5, prtad⟩, ⟨l.devad, 5, devad⟩, ⟨l.data, 16, data⟩]

section
variable (l : MdioLayout) (trdone rsvd : Bool) (st op : BitVec 2) (prtad devad : BitVec 5) (data : W16)

theorem bitsOf_controlFields : bitsOf (controlFields l trdone rsvd st op prtad devad data) = l.bits := by
  simp only [bitsOf, controlFields, MdioLayout.bits, List.flatMap_cons, List.flatMap_nil, List.append_nil,
    List.append_assoc]

theorem bits_length : l.bits.length = 32 := by
  simp only [MdioLayout.bits, fieldBits, List.length_append, List.length_map, List.length_range]

theorem controlWordOf_eq_wordOf (c : MdioCode) :
    controlWordOf l c trdone rsvd prtad devad data
      = wordOf (controlFields l trdone rsvd (stCode c) (opCode c) prtad devad data) := by
  simp only [controlWordOf, mdioCw, controlBit, wordOf, controlFields, Field.placed, List.foldr_cons, List.foldr_nil,
    BitVec.or_assoc, BitVec.or_zero]

theorem extractLsb'_one (w : W32) (lo : Nat) : w.extractLsb' lo 1 = BitVec.ofBool (w.getLsbD lo) := by
  refine BitVec.eq_of_getLsbD_eq fun i hi => ?_
  obtain rfl : i = 0 := by omega
  simp

end

/-- In a legal layout every field of a control word is read back. -/
theorem fields_controlWordOf {l : MdioLayout} (hl : l.wf) (c : MdioCode) (trdone rsvd : Bool) (prtad devad : BitVec 5)
    (data : W16) {w : W32} (hw : w = controlWordOf l c trdone rsvd prtad devad data) :
    w.getLsbD l.trdone = trdone ∧ w.getLsbD l.rsvd = rsvd ∧ w.extractLsb' l.st 2 = stCode c
      ∧ w.extractLsb' l.op 2 = opCode c ∧ w.extractLsb' l.prtad 5 = prtad ∧ w.extractLsb' l.devad 5 = devad
      ∧ w.extractLsb' l.data 16 = data := by
  obtain ⟨hbound, hnodup⟩ := hl
  rw [← bitsOf_controlFields l trdone rsvd (stCode c) (opCode c) prtad devad data] at hbound hnodup
  rw [controlWordOf_eq_wordOf] at hw
  have hread : ∀ f ∈ controlFields l trdone rsvd (stCode c) (opCode c) prtad devad data,
      w.extractLsb' f.lo f.width = f.value := fun f hf => hw ▸ extractLsb'_wordOf hnodup hbound hf
  simp only [controlFields, List.forall_mem_cons] at hread
  obtain ⟨htrdone, hrsvd, hst, hop, hprtad, hdevad, hdata, -⟩ := hread
  rw [extractLsb'_one] at htrdone hrsvd
  exact ⟨BitVec.ofBool_eq_iff_eq.mp htrdone, BitVec.ofBool_eq_iff_eq.mp hrsvd, hst, hop, hprtad, hdevad, hdata⟩

/-- In a legal layout a word with a code of R77 is the control word of its fields. -/
theorem controlWordOf_fields {l : MdioLayout} (hl : l.wf) {c : MdioCode} {w : W32} (hst : w.extractLsb' l.st 2 = stCode c)
    (hop : w.extractLsb' l.op 2 = opCode c) :
    controlWordOf l c (w.getLsbD l.trdone) (w.getLsbD l.rsvd) (w.extractLsb' l.prtad 5) (w.extractLsb' l.devad 5)
      (w.extractLsb' l.data 16) = w := by
  obtain ⟨hbound, hnodup⟩ := hl
  have hlen := bits_length l
  rw [controlWordOf_eq_wordOf]
  rw [← bitsOf_controlFields l (w.getLsbD l.trdone) (w.getLsbD l.rsvd) (stCode c) (opCode c) (w.extractLsb' l.prtad 5)
    (w.extractLsb' l.devad 5) (w.extractLsb' l.data 16)] at hbound hnodup hlen
  refine wordOf_eq hnodup hbound hlen ?_
  simp only [controlFields, List.forall_mem_cons, extractLsb'_one, hst, hop, List.not_mem_nil, false_imp_iff, implies_true,
    and_self]

/-! ## The words the block writes (R77, R78) and reads (R79) -/

/-- The block sends TRDONE and the reserved bit as 0. -/
theorem mdioCw_eq_controlWordOf (l : MdioLayout) (c : MdioCode) (prtad dv : BitVec 5) (data : W16) :
    mdioCw l c prtad dv data = controlWordOf l c false false prtad dv data := by
  simp [controlWordOf, controlBit]

/-- R77's table of codes. -/
theorem codes_of_mem {c : MdioCode} {st op : BitVec 2}
    (h : (c, st, op) ∈ [(MdioCode.c22Write, 0b01, 0b01), (.c22Read, 0b01, 0b10), (.c45Addr, 0b00, 0b00),
      (.c45Write, 0b00, 0b01), (.c45Read, 0b00, 0b11)]) : st = stCode c ∧ op = opCode c := by
  simp only [List.mem_cons, Prod.mk.injEq, List.not_mem_nil, or_false] at h
  rcases h with ⟨rfl, rfl, rfl⟩ | ⟨rfl, rfl, rfl⟩ | ⟨rfl, rfl, rfl⟩ | ⟨rfl, rfl, rfl⟩ | ⟨rfl, rfl, rfl⟩ <;> exact ⟨rfl, rfl⟩

theorem setWidth_field5 (v : Byte) : (field5 v).setWidth 32 = (v &&& 0x1F).setWidth 32 := by
  revert v
  decide

/-- Settles O52: the fields by `fields_controlWordOf`, the spec's own layout by computation. -/
theorem controlWordFields : Obligations.ControlWordFields := by
  refine ⟨fun l c st op prtad dv data hl hcode => ?_, fun w => ⟨?_, ?_⟩, fun c st op prtad dv data hcode => ?_⟩
  · obtain ⟨rfl, rfl⟩ := codes_of_mem hcode
    obtain ⟨htrdone, hrsvd, hst, hop, hprtad, hdevad, hdata⟩ :=
      fields_controlWordOf hl c false false prtad dv data (mdioCw_eq_controlWordOf l c prtad dv data)
    exact ⟨hst, hop, hprtad, hdevad, hdata, htrdone, hrsvd⟩
  · exact BitVec.msb_eq_decide w
  · have hdata := BitVec.extractLsb'_toNat 0 16 w
    rwa [Nat.shiftRight_zero] at hdata
  · obtain ⟨rfl, rfl⟩ := codes_of_mem hcode
    rw [mdioCw, setWidth_field5, setWidth_field5]
    simp [MdioLayout.r76]

end Sys2Proof.Laws.ControlWord

/-! SUPPORT. The encoder and the decoder are inverse to each other (spec/30_encoding.md R70, R71, R76, R83; the framing is the
model's, notes/assumptions/6.md and 24.md). Each reader of a field is inverse to its writer; a format is read field by
field. -/

namespace Sys2Proof.Laws.Codec

open Machine

/-! ## Readers and writers -/

/-- `take` reads what `put` wrote, at the front of any bytes, and reads nothing else. -/
structure Inverse {α : Type} (take : Bytes → Except DecodeError (α × Bytes)) (put : α → Bytes) : Prop where
  take_put : ∀ v rest, take (put v ++ rest) = .ok (v, rest)
  eq_put : ∀ {bs v rest}, take bs = .ok (v, rest) → bs = put v ++ rest

section
variable {α β : Type} {take : Bytes → Except DecodeError (α × Bytes)} {put : α → Bytes}
  {f : α × Bytes → Except DecodeError (β × Bytes)}

/-- Going on after a field that was written. -/
theorem Inverse.bind_put (h : Inverse take put) (v : α) (rest : Bytes) : (take (put v ++ rest) >>= f) = f (v, rest) := by
  rw [h.take_put]
  rfl

/-- Bytes that are read field by field begin with the field that was written. -/
theorem Inverse.of_bind (h : Inverse take put) {bs : Bytes} {r : β × Bytes} (hbind : (take bs >>= f) = .ok r) :
    ∃ v rest, bs = put v ++ rest ∧ f (v, rest) = .ok r := by
  cases htake : take bs with
  | error e => rw [htake] at hbind; cases hbind
  | ok a =>
    rw [htake] at hbind
    exact ⟨a.1, a.2, h.eq_put htake, hbind⟩

end

/-- One byte as it stands. -/
def putByte (b : Byte) : Bytes := [b]

theorem inverse_byte : Inverse takeByte putByte where
  take_put _ _ := rfl
  eq_put {bs v rest} h := by
    cases bs with
    | nil => cases h
    | cons b bs => cases h; rfl

theorem inverse_bit : Inverse takeBit putBit where
  take_put v rest := by cases v <;> rfl
  eq_put {bs v rest} h := by
    cases bs with
    | nil => cases h
    | cons b bs =>
      rw [takeBit] at h
      split at h
      next hb => cases h; rw [hb]; rfl
      next =>
        split at h
        next hb => cases h; rw [hb]; rfl
        next => cases h

/-! ## Numbers (R9) -/

/-- The low bytes of a number do not depend on what is above them. -/
theorem beBytes_mod {n k : Nat} (h : n ≤ k) (v : Nat) : beBytes n (v % 2 ^ (8 * k)) = beBytes n v := by
  induction n with
  | zero => rfl
  | succ n ih =>
    have hbyte : BitVec.ofNat 8 ((v % 2 ^ (8 * k)) >>> (8 * n)) = BitVec.ofNat 8 (v >>> (8 * n)) := by
      refine BitVec.eq_of_getLsbD_eq fun i hi => ?_
      have hbit : 8 * n + i < 8 * k := by omega
      simp only [BitVec.getLsbD_ofNat, Nat.testBit_shiftRight, Nat.testBit_mod_two_pow, decide_eq_true hbit,
        Bool.true_and]
    rw [beBytes, beBytes, hbyte, ih (by omega)]

/-- The big-endian string of the number that some bytes spell. -/
theorem beBytes_fromBe (s : Bytes) : beBytes s.length (fromBe s) = s := by
  induction s with
  | nil => rfl
  | cons b s ih =>
    have hlt := RegBus.fromBe_lt s
    have hpow : (256 : Nat) ^ s.length = 2 ^ (8 * s.length) := (Nat.pow_mul 2 8 _).symm
    have hnumber : fromBe (b :: s) = 2 ^ (8 * s.length) * b.toNat + fromBe s := by
      rw [← List.singleton_append, fromBe_append, hpow, Nat.mul_comm]
      simp [fromBe]
    have hhigh : fromBe (b :: s) >>> (8 * s.length) = b.toNat := by
      rw [hnumber, Nat.shiftRight_eq_div_pow, Nat.mul_add_div (Nat.two_pow_pos _), Nat.div_eq_of_lt hlt, Nat.add_zero]
    have hlow : fromBe (b :: s) % 2 ^ (8 * s.length) = fromBe s := by
      rw [hnumber, Nat.mul_add_mod, Nat.mod_eq_of_lt hlt]
    rw [List.length_cons, beBytes, hhigh, ← beBytes_mod le_rfl, hlow, ih, BitVec.ofNat_toNat, BitVec.setWidth_eq]

theorem takeBe_append {n : Nat} {s : Bytes} (h : s.length = n) (rest : Bytes) :
    takeBe n (s ++ rest) = .ok (fromBe s, rest) := by
  subst h
  rw [takeBe, if_pos (by simp), List.take_left, List.drop_left]

theorem takeBe_eq_ok {n v : Nat} {bs rest : Bytes} (h : takeBe n bs = .ok (v, rest)) :
    ∃ s, s.length = n ∧ bs = s ++ rest ∧ v = fromBe s := by
  unfold takeBe at h
  split at h
  next hle =>
    cases h
    exact ⟨bs.take n, List.length_take_of_le hle, (List.take_append_drop n bs).symm, rfl⟩
  next => cases h

/-- A number of whole bytes. -/
theorem inverse_number {n w : Nat} (hw : w = 8 * n) :
    Inverse (fun bs => do let (v, bs) ← takeBe n bs; return (BitVec.ofNat w v, bs)) fun v => beBytes n v.toNat where
  take_put v rest := by
    have hpow : (256 : Nat) ^ n = 2 ^ w := by rw [hw, Nat.pow_mul]
    rw [takeBe_append (beBytes_length n _), fromBe_beBytes, hpow, Nat.mod_eq_of_lt v.isLt]
    simp only [bind, Except.bind, pure, Except.pure, BitVec.ofNat_toNat, BitVec.setWidth_eq]
  eq_put {bs v rest} h := by
    cases htake : takeBe n bs with
    | error e => rw [htake] at h; cases h
    | ok a =>
      rw [htake] at h
      cases h
      obtain ⟨s, rfl, hbs, ha⟩ := takeBe_eq_ok (v := a.1) (rest := a.2) htake
      rw [BitVec.toNat_ofNat, hw, beBytes_mod le_rfl, ha, beBytes_fromBe, hbs]

theorem inverse_16 : Inverse take16 put16 := inverse_number rfl

theorem inverse_32 : Inverse take32 be32 := inverse_number rfl

/-! ## Optional values and byte strings (R51, R83) -/

theorem inverse_option {α : Type} {take : Bytes → Except DecodeError (α × Bytes)} {put : α → Bytes} (h : Inverse take put) :
    Inverse (takeOption take) (putOption put) where
  take_put v rest := by
    cases v with
    | none => rfl
    | some v => exact (inverse_bit.bind_put true (put v ++ rest)).trans (h.bind_put v rest)
  eq_put {bs v rest} hread := by
    obtain ⟨present, bs', hbs, hread⟩ := inverse_bit.of_bind hread
    cases present with
    | false => cases hread; exact hbs
    | true =>
      obtain ⟨v', bs'', hbs', hread⟩ := h.of_bind hread
      cases hread
      rw [hbs, hbs']
      rfl

theorem takeChunks_zero (rest : Bytes) : takeChunks (0 :: rest) = .ok ([], rest) := by
  cases rest <;> rfl

theorem takeChunks_one (b : Byte) (bs : Bytes) :
    takeChunks (1 :: b :: bs) = (takeChunks bs >>= fun r => .ok (b :: r.1, r.2)) := by
  rw [takeChunks, if_neg (by decide), if_pos rfl]
  cases takeChunks bs <;> rfl

theorem takeChunks_badMark {m : Byte} (h0 : m ≠ 0) (h1 : m ≠ 1) (bs : Bytes) :
    takeChunks (m :: bs) = .error (.badBit m) := by
  cases bs <;> rw [takeChunks, if_neg h0, if_neg h1]

theorem inverse_chunks : Inverse takeChunks putChunks where
  take_put s rest := by
    induction s with
    | nil => exact takeChunks_zero rest
    | cons b s ih =>
      rw [putChunks, List.cons_append, List.cons_append, takeChunks_one, ih]
      rfl
  eq_put {bs s rest} h := by
    induction bs using takeChunks.induct generalizing s with
    | case1 => cases h
    | case2 => cases h; rfl
    | case3 => cases h
    | case4 m h0 h1 => rw [takeChunks_badMark h0 h1] at h; cases h
    | case5 b bs => rw [takeChunks_zero] at h; cases h; rfl
    | case6 b bs s' rest' hread _ ih =>
      rw [takeChunks_one, hread] at h
      cases h
      rw [ih hread]
      rfl
    | case7 b bs e hread => rw [takeChunks_one, hread] at h; cases h
    | case8 m b bs h0 h1 => rw [takeChunks_badMark h0 h1] at h; cases h

theorem inverse_string : Inverse takeString putString := inverse_option inverse_chunks

/-! ## Host requests (R70, R83) -/

theorem inverse_optionByte : Inverse (takeOption takeByte) (putOption fun b => [b]) := inverse_option inverse_byte

theorem inverse_option32 : Inverse (takeOption take32) (putOption be32) := inverse_option inverse_32

/-- The bytes are the encoding of a well-formed instruction in this format, and then `rest`. -/
structure Encodes (p : Params) (format : Format) (bs : Bytes) (i : Instr) (rest : Bytes) : Prop where
  wellFormed_eq : wellFormed p i = true
  format_eq : (encode p i).format = format
  bytes_eq : (encode p i).bytes ++ rest = bs

/-- What decodes as a host request is the encoding of its instruction, field by field of its argument record. -/
theorem encodes_of_decodeHost (p : Params) {bs rest : Bytes} {i : Instr} (h : decodeHost bs = .ok (i, rest)) :
    Encodes p .hostRequest bs i rest := by
  cases bs with
  | nil => cases h
  | cons opc bs =>
    rw [decodeHost] at h
    split at h
    case h_1 hopc =>
      obtain rfl : opc = 0x01 := BitVec.eq_of_toNat_eq hopc
      obtain ⟨poly, bs1, rfl, h1⟩ := inverse_byte.of_bind h
      obtain ⟨crcEn, bs2, rfl, h2⟩ := inverse_bit.of_bind h1
      obtain ⟨ports, bs3, rfl, h3⟩ := inverse_byte.of_bind h2
      cases h3
      exact ⟨rfl, rfl, rfl⟩
    case h_2 hopc =>
      obtain rfl : opc = 0x02 := BitVec.eq_of_toNat_eq hopc
      cases h
      exact ⟨rfl, rfl, rfl⟩
    case h_3 hopc =>
      obtain rfl : opc = 0x10 := BitVec.eq_of_toNat_eq hopc
      obtain ⟨data, bs1, rfl, h1⟩ := inverse_string.of_bind h
      obtain ⟨init, bs2, rfl, h2⟩ := inverse_optionByte.of_bind h1
      cases h2
      exact ⟨rfl, rfl, by simp only [encode, List.cons_append, List.append_assoc]⟩
    case h_4 hopc =>
      obtain rfl : opc = 0x11 := BitVec.eq_of_toNat_eq hopc
      obtain ⟨data, bs1, rfl, h1⟩ := inverse_string.of_bind h
      obtain ⟨expected, bs2, rfl, h2⟩ := inverse_byte.of_bind h1
      obtain ⟨init, bs3, rfl, h3⟩ := inverse_optionByte.of_bind h2
      cases h3
      exact ⟨rfl, rfl, by simp only [encode, List.cons_append, List.append_assoc]; rfl⟩
    case h_5 hopc =>
      obtain rfl : opc = 0x20 := BitVec.eq_of_toNat_eq hopc
      obtain ⟨addr, bs1, rfl, h1⟩ := inverse_16.of_bind h
      obtain ⟨value, bs2, rfl, h2⟩ := inverse_32.of_bind h1
      cases h2
      exact ⟨rfl, rfl, by simp only [encode, List.cons_append, List.append_assoc]⟩
    case h_6 hopc =>
      obtain rfl : opc = 0x21 := BitVec.eq_of_toNat_eq hopc
      obtain ⟨addr, bs1, rfl, h1⟩ := inverse_16.of_bind h
      cases h1
      exact ⟨rfl, rfl, rfl⟩
    case h_7 hopc =>
      obtain rfl : opc = 0x22 := BitVec.eq_of_toNat_eq hopc
      obtain ⟨addr, bs1, rfl, h1⟩ := inverse_16.of_bind h
      obtain ⟨mask, bs2, rfl, h2⟩ := inverse_32.of_bind h1
      obtain ⟨value, bs3, rfl, h3⟩ := inverse_32.of_bind h2
      cases h3
      exact ⟨rfl, rfl, by simp only [encode, List.cons_append, List.append_assoc]⟩
    case h_8 hopc =>
      obtain rfl : opc = 0x23 := BitVec.eq_of_toNat_eq hopc
      obtain ⟨frame, bs1, rfl, h1⟩ := inverse_string.of_bind h
      cases h1
      exact ⟨rfl, rfl, rfl⟩
    case h_9 hopc =>
      obtain rfl : opc = 0x30 := BitVec.eq_of_toNat_eq hopc
      obtain ⟨prtad, bs1, rfl, h1⟩ := inverse_byte.of_bind h
      obtain ⟨regad, bs2, rfl, h2⟩ := inverse_byte.of_bind h1
      cases h2
      exact ⟨rfl, rfl, rfl⟩
    case h_10 hopc =>
      obtain rfl : opc = 0x31 := BitVec.eq_of_toNat_eq hopc
      obtain ⟨prtad, bs1, rfl, h1⟩ := inverse_byte.of_bind h
      obtain ⟨regad, bs2, rfl, h2⟩ := inverse_byte.of_bind h1
      obtain ⟨data, bs3, rfl, h3⟩ := inverse_16.of_bind h2
      cases h3
      exact ⟨rfl, rfl, rfl⟩
    case h_11 hopc =>
      obtain rfl : opc = 0x32 := BitVec.eq_of_toNat_eq hopc
      obtain ⟨prtad, bs1, rfl, h1⟩ := inverse_byte.of_bind h
      obtain ⟨devad, bs2, rfl, h2⟩ := inverse_byte.of_bind h1
      obtain ⟨regaddr, bs3, rfl, h3⟩ := inverse_16.of_bind h2
      cases h3
      exact ⟨rfl, rfl, rfl⟩
    case h_12 hopc =>
      obtain rfl : opc = 0x33 := BitVec.eq_of_toNat_eq hopc
      obtain ⟨prtad, bs1, rfl, h1⟩ := inverse_byte.of_bind h
      obtain ⟨devad, bs2, rfl, h2⟩ := inverse_byte.of_bind h1
      obtain ⟨regaddr, bs3, rfl, h3⟩ := inverse_16.of_bind h2
      obtain ⟨data, bs4, rfl, h4⟩ := inverse_16.of_bind h3
      cases h4
      exact ⟨rfl, rfl, by simp only [encode, List.cons_append, List.append_assoc]; rfl⟩
    case h_13 hopc =>
      obtain rfl : opc = 0x40 := BitVec.eq_of_toNat_eq hopc
      obtain ⟨port, bs1, rfl, h1⟩ := inverse_byte.of_bind h
      obtain ⟨dest, bs2, rfl, h2⟩ := inverse_string.of_bind h1
      obtain ⟨src, bs3, rfl, h3⟩ := inverse_string.of_bind h2
      obtain ⟨ethertype, bs4, rfl, h4⟩ := inverse_string.of_bind h3
      obtain ⟨payload, bs5, rfl, h5⟩ := inverse_string.of_bind h4
      cases h5
      exact ⟨rfl, rfl, by simp only [encode, List.cons_append, List.append_assoc]; rfl⟩
    case h_14 hopc =>
      obtain rfl : opc = 0x41 := BitVec.eq_of_toNat_eq hopc
      obtain ⟨port, bs1, rfl, h1⟩ := inverse_byte.of_bind h
      obtain ⟨cap, bs2, rfl, h2⟩ := inverse_option32.of_bind h1
      cases h2
      exact ⟨rfl, rfl, rfl⟩
    case h_15 => cases h

/-- A host request's encoding decodes to it, field by field of its argument record. -/
theorem decodeHost_encode {p : Params} {i : Instr} (h : (encode p i).format = .hostRequest) (rest : Bytes) :
    decodeHost ((encode p i).bytes ++ rest) = .ok (i, rest) := by
  cases i with
  | init poly crcEn ports =>
    exact (inverse_byte.bind_put poly _).trans ((inverse_bit.bind_put crcEn _).trans (inverse_byte.bind_put ports _))
  | deinit => rfl
  | crc8 data init =>
    simp only [encode, List.cons_append, List.append_assoc]
    exact (inverse_string.bind_put data _).trans (inverse_optionByte.bind_put init _)
  | crcchk data expected init =>
    simp only [encode, List.cons_append, List.append_assoc]
    exact (inverse_string.bind_put data _).trans ((inverse_byte.bind_put expected _).trans (inverse_optionByte.bind_put init _))
  | regwr addr value =>
    simp only [encode, List.cons_append, List.append_assoc]
    exact (inverse_16.bind_put addr _).trans (inverse_32.bind_put value _)
  | regrd addr =>
    exact inverse_16.bind_put addr _
  | regupd addr mask value =>
    simp only [encode, List.cons_append, List.append_assoc]
    exact (inverse_16.bind_put addr _).trans ((inverse_32.bind_put mask _).trans (inverse_32.bind_put value _))
  | wfdec frame =>
    exact inverse_string.bind_put frame _
  | c22rd prtad regad =>
    exact (inverse_byte.bind_put prtad _).trans (inverse_byte.bind_put regad _)
  | c22wr prtad regad data =>
    exact (inverse_byte.bind_put prtad _).trans ((inverse_byte.bind_put regad _).trans (inverse_16.bind_put data _))
  | c45rd prtad devad regaddr =>
    exact (inverse_byte.bind_put prtad _).trans ((inverse_byte.bind_put devad _).trans (inverse_16.bind_put regaddr _))
  | c45wr prtad devad regaddr data =>
    simp only [encode, List.cons_append, List.append_assoc]
    exact (inverse_byte.bind_put prtad _).trans ((inverse_byte.bind_put devad _).trans ((inverse_16.bind_put regaddr _).trans (inverse_16.bind_put data _)))
  | fifotx port dest src ethertype payload =>
    simp only [encode, List.cons_append, List.append_assoc]
    exact (inverse_byte.bind_put port _).trans ((inverse_string.bind_put dest _).trans ((inverse_string.bind_put src _).trans ((inverse_string.bind_put ethertype _).trans (inverse_string.bind_put payload _))))
  | fiforx port cap =>
    exact (inverse_byte.bind_put port _).trans (inverse_option32.bind_put cap _)
  | mdioC22Read _ _ _ _ _ | mdioC22Write _ _ _ _ _ | mdioC45Addr _ _ _ _ _ | mdioC45Write _ _ _ _ _
  | mdioC45Read _ _ _ _ _ | busWriteHdr _ _ | busReadHdr _ => cases h

/-! ## Control words (R76, R77) -/

theorem mdioCodeOf_codes (c : MdioCode) : mdioCodeOf (stCode c) (opCode c) = some c := by
  cases c <;> rfl

theorem codes_of_mdioCodeOf {st op : BitVec 2} {c : MdioCode} (h : mdioCodeOf st op = some c) :
    st = stCode c ∧ op = opCode c := by
  revert st op
  cases c <;> decide

/-- A control word of a legal layout decodes to the instruction of its code and fields. -/
theorem decodeControlWord_controlWordOf {l : MdioLayout} (hl : l.wf) (c : MdioCode) (trdone rsvd : Bool)
    (prtad devad : BitVec 5) (data : W16) :
    decodeControlWord l (controlWordOf l c trdone rsvd prtad devad data)
      = .ok (controlInstr c trdone rsvd prtad devad data) := by
  obtain ⟨htrdone, hrsvd, hst, hop, hprtad, hdevad, hdata⟩ :=
    ControlWord.fields_controlWordOf hl c trdone rsvd prtad devad data rfl
  simp only [decodeControlWord, hst, hop, mdioCodeOf_codes, htrdone, hrsvd, hprtad, hdevad, hdata]

/-- A word that decodes is the control word of what it decodes to. -/
theorem exists_of_decodeControlWord {l : MdioLayout} (hl : l.wf) {w : W32} {i : Instr} (h : decodeControlWord l w = .ok i) :
    ∃ c trdone rsvd prtad devad data,
      i = controlInstr c trdone rsvd prtad devad data ∧ controlWordOf l c trdone rsvd prtad devad data = w := by
  unfold decodeControlWord at h
  split at h
  next c hcode =>
    obtain ⟨hst, hop⟩ := codes_of_mdioCodeOf hcode
    cases h
    exact ⟨c, _, _, _, _, _, rfl, ControlWord.controlWordOf_fields hl hst hop⟩
  next => cases h

theorem encode_controlInstr (p : Params) (c : MdioCode) (trdone rsvd : Bool) (prtad devad : BitVec 5) (data : W16) :
    encode p (controlInstr c trdone rsvd prtad devad data) = controlRequest p c trdone rsvd prtad devad data := by
  cases c <;> rfl

theorem wellFormed_controlInstr (p : Params) (c : MdioCode) (trdone rsvd : Bool) (prtad devad : BitVec 5) (data : W16) :
    wellFormed p (controlInstr c trdone rsvd prtad devad data) = true := by
  cases c <;> rfl

/-- The instructions whose encoding is a control word are those of the five codes. -/
theorem exists_controlInstr {p : Params} {i : Instr} (h : (encode p i).format = .controlWord) :
    ∃ c trdone rsvd prtad devad data, i = controlInstr c trdone rsvd prtad devad data := by
  cases i with
  | mdioC22Read t r pr dv d => exact ⟨.c22Read, t, r, pr, dv, d, rfl⟩
  | mdioC22Write t r pr dv d => exact ⟨.c22Write, t, r, pr, dv, d, rfl⟩
  | mdioC45Addr t r pr dv d => exact ⟨.c45Addr, t, r, pr, dv, d, rfl⟩
  | mdioC45Write t r pr dv d => exact ⟨.c45Write, t, r, pr, dv, d, rfl⟩
  | mdioC45Read t r pr dv d => exact ⟨.c45Read, t, r, pr, dv, d, rfl⟩
  | init _ _ _ | deinit | crc8 _ _ | crcchk _ _ _ | regwr _ _ | regrd _ | regupd _ _ _ | wfdec _ | c22rd _ _
  | c22wr _ _ _ | c45rd _ _ _ | c45wr _ _ _ _ | fifotx _ _ _ _ _ | fiforx _ _ | busWriteHdr _ _ | busReadHdr _ => cases h

theorem decodeControl_encode {p : Params} (hp : p.wf) {i : Instr} (h : (encode p i).format = .controlWord) (rest : Bytes) :
    decodeControl p ((encode p i).bytes ++ rest) = .ok (i, rest) := by
  have ⟨_, _, _, _, _, _, _, hl, _⟩ := hp
  obtain ⟨c, trdone, rsvd, prtad, devad, data, rfl⟩ := exists_controlInstr h
  rw [encode_controlInstr]
  refine (inverse_32.bind_put _ _).trans ?_
  dsimp only
  rw [decodeControlWord_controlWordOf hl]
  rfl

theorem encodes_of_decodeControl {p : Params} (hp : p.wf) {bs rest : Bytes} {i : Instr}
    (h : decodeControl p bs = .ok (i, rest)) : Encodes p .controlWord bs i rest := by
  have ⟨_, _, _, _, _, _, _, hl, _⟩ := hp
  obtain ⟨w, bs1, rfl, h1⟩ := inverse_32.of_bind h
  dsimp only at h1
  cases hword : decodeControlWord p.mdioLayout w with
  | error e => rw [hword] at h1; cases h1
  | ok j =>
    rw [hword] at h1
    cases h1
    obtain ⟨c, trdone, rsvd, prtad, devad, data, rfl, rfl⟩ := exists_of_decodeControlWord hl hword
    refine ⟨wellFormed_controlInstr .., ?_, ?_⟩ <;> rw [encode_controlInstr] <;> rfl

/-! ## Bus frames (R71) -/

/-- A header is built from its address field where its marker, its reserved bits and its direction are right. -/
theorem hdr_hdrAddr {p : Params} (hp : p.wf) {h : Nat} (hlt : h < 2 ^ (8 * p.cmdHdrBytes))
    (hcd : h.testBit p.cdBit = p.cdVal) (hres : hdrReserved p h = 0) {dir : Dir} (hrw : h.testBit p.rwBit = dirBit p dir) :
    hdr p (hdrAddr p h) dir = h := by
  apply Nat.eq_of_testBit_eq
  intro i
  have hbit := RegBus.testBit_hdrReserved hlt i
  rw [hres, Nat.zero_testBit] at hbit
  rw [Encoding.testBit_hdr_of_wf hp, hdrAddr, addrMask, Nat.and_two_pow_sub_one_eq_mod, Nat.testBit_mod_two_pow]
  split_ifs with haddr hmark hdir
  · rw [decide_eq_true haddr, Bool.true_and]
  · rw [hmark, hcd]
  · rw [hdir, hrw]
  · rwa [decide_eq_true ⟨Nat.not_lt.mp haddr, hmark, hdir⟩, Bool.and_true] at hbit

theorem hdrAddr_lt (p : Params) (h : Nat) : hdrAddr p h < 2 ^ p.addrWidth := by
  rw [hdrAddr, addrMask, Nat.and_two_pow_sub_one_eq_mod]
  exact Nat.mod_lt _ (Nat.two_pow_pos _)

/-- What is decoded after the header. -/
theorem decodeBus_eq {p : Params} {bs rest : Bytes} {h : Nat} (htake : takeBe p.cmdHdrBytes bs = .ok (h, rest)) :
    decodeBus p bs = if h.testBit p.cdBit != p.cdVal then .error .notCommandFrame
      else if hdrReserved p h ≠ 0 then .error .reservedHeaderBits
      else if h.testBit p.rwBit = p.rwWrite then
        take32 rest >>= fun r => .ok (.busWriteHdr (hdrAddr p h) r.1, r.2)
      else .ok (.busReadHdr (hdrAddr p h), rest) := by
  rw [decodeBus, htake]
  rfl

/-- A header the block builds passes the decoder's tests and gives its address back. -/
theorem decodeBus_hdrBytes {p : Params} (hp : p.wf) {addr : Nat} (haddr : addr < 2 ^ p.addrWidth) (dir : Dir) (rest : Bytes) :
    decodeBus p (hdrBytes p addr dir ++ rest) = if dirBit p dir = p.rwWrite then
        take32 rest >>= fun r => .ok (.busWriteHdr addr r.1, r.2)
      else .ok (.busReadHdr addr, rest) := by
  have htake := takeBe_append (hdrBytes_length p addr dir) rest
  rw [WriteFrame.fromBe_hdrBytes hp] at htake
  rw [decodeBus_eq htake, WriteFrame.testBit_hdr_cdBit hp, WriteFrame.hdrReserved_hdr hp, WriteFrame.testBit_hdr_rwBit hp,
    WriteFrame.hdrAddr_hdr hp, Nat.mod_eq_of_lt haddr, if_neg (by simp), if_neg (by simp)]

theorem decodeBus_encode {p : Params} (hp : p.wf) {i : Instr} (hi : wellFormed p i = true)
    (h : (encode p i).format = .busFrame) (rest : Bytes) : decodeBus p ((encode p i).bytes ++ rest) = .ok (i, rest) := by
  cases i with
  | busWriteHdr addr value =>
    have haddr : addr < 2 ^ p.addrWidth := of_decide_eq_true hi
    have hwrite : dirBit p .write = p.rwWrite := rfl
    simp only [encode, List.append_assoc]
    rw [decodeBus_hdrBytes hp haddr, if_pos hwrite]
    exact inverse_32.bind_put value rest
  | busReadHdr addr =>
    have haddr : addr < 2 ^ p.addrWidth := of_decide_eq_true hi
    have hread : ¬ dirBit p .read = p.rwWrite := Bool.not_ne_self _
    simp only [encode]
    rw [decodeBus_hdrBytes hp haddr, if_neg hread]
  | init _ _ _ | deinit | crc8 _ _ | crcchk _ _ _ | regwr _ _ | regrd _ | regupd _ _ _ | wfdec _ | c22rd _ _
  | c22wr _ _ _ | c45rd _ _ _ | c45wr _ _ _ _ | fifotx _ _ _ _ _ | fiforx _ _ | mdioC22Read _ _ _ _ _
  | mdioC22Write _ _ _ _ _ | mdioC45Addr _ _ _ _ _ | mdioC45Write _ _ _ _ _ | mdioC45Read _ _ _ _ _ => cases h

theorem encodes_of_decodeBus {p : Params} (hp : p.wf) {bs rest : Bytes} {i : Instr} (h : decodeBus p bs = .ok (i, rest)) :
    Encodes p .busFrame bs i rest := by
  cases htake : takeBe p.cmdHdrBytes bs with
  | error e => rw [decodeBus, htake] at h; cases h
  | ok a =>
    obtain ⟨s, hlen, rfl, hs⟩ := takeBe_eq_ok (v := a.1) (rest := a.2) htake
    rw [decodeBus_eq (h := a.1) (rest := a.2) htake] at h
    have hlt : a.1 < 2 ^ (8 * p.cmdHdrBytes) := by rw [hs, ← hlen]; exact RegBus.fromBe_lt s
    have hbytes : ∀ {dir}, hdr p (hdrAddr p a.1) dir = a.1 → hdrBytes p (hdrAddr p a.1) dir = s := by
      intro dir hdir
      rw [hdrBytes, hdir, hs, ← hlen, beBytes_fromBe]
    split_ifs at h with hmark hres hdir
    · have hcd : a.1.testBit p.cdBit = p.cdVal := by simpa using hmark
      obtain ⟨value, bs1, hrest, h1⟩ := inverse_32.of_bind h
      cases h1
      refine ⟨decide_eq_true (hdrAddr_lt p _), rfl, ?_⟩
      rw [encode, hbytes (hdr_hdrAddr hp hlt hcd (not_not.mp hres) (dir := .write) hdir), List.append_assoc, hrest]
    · have hcd : a.1.testBit p.cdBit = p.cdVal := by simpa using hmark
      have hrw : a.1.testBit p.rwBit = dirBit p .read := Bool.eq_not_of_ne hdir
      cases h
      refine ⟨decide_eq_true (hdrAddr_lt p _), rfl, ?_⟩
      rw [encode, hbytes (hdr_hdrAddr hp hlt hcd (not_not.mp hres) hrw)]

/-! ## Requests -/

theorem decodeRequest_eq_ok {p : Params} {r : Request} {i : Instr} :
    decodeRequest p r = .ok i ↔ decode p r.format r.bytes = .ok (i, []) := by
  unfold decodeRequest
  constructor
  · intro h
    split at h
    next j hdec => cases h; exact hdec
    next => cases h
    next => cases h
  · intro h
    simp only [h]

/-- Settles O53, by the format of the encoding. -/
theorem decodeInvertsEncode : Obligations.DecodeInvertsEncode := by
  intro p i hp hi
  rw [decodeRequest_eq_ok]
  have happend := List.append_nil (encode p i).bytes
  cases hformat : (encode p i).format with
  | hostRequest => simpa only [decode, happend] using decodeHost_encode hformat []
  | controlWord => simpa only [decode, happend] using decodeControl_encode hp hformat []
  | busFrame => simpa only [decode, happend] using decodeBus_encode hp hi hformat []

/-- Settles O54, by the format of the request. -/
theorem encodeInvertsDecode : Obligations.EncodeInvertsDecode := by
  intro p r i hp hdec
  rw [decodeRequest_eq_ok] at hdec
  have hencodes : Encodes p r.format r.bytes i [] := by
    obtain ⟨format, bytes⟩ := r
    cases format with
    | hostRequest => exact encodes_of_decodeHost p hdec
    | controlWord => exact encodes_of_decodeControl hp hdec
    | busFrame => exact encodes_of_decodeBus hp hdec
  obtain ⟨hwf, hformat, hbytes⟩ := hencodes
  rw [List.append_nil] at hbytes
  refine ⟨hwf, ?_⟩
  calc encode p i = ⟨(encode p i).format, (encode p i).bytes⟩ := rfl
    _ = r := by rw [hformat, hbytes]

/-- Settles O55, by decoding each word. -/
theorem writtenWordsDecode : Obligations.WrittenWordsDecode := by
  refine ⟨?_, ?_, ?_, ?_, ?_, ?_, ?_⟩ <;> decide +kernel

end Sys2Proof.Laws.Codec
